-- ==== Sys2Proof/Word.lean ====
section
/-! DEFINITION. The word and the byte of the machine (spec 00_scope R6, R10). -/

namespace Sys2Proof

/-- A machine word: register, memory cell, address and instruction are all 16 bits wide
(00_scope R6). Bit 0 is the least significant bit (R10). -/
abbrev Word := BitVec 16

/-- Half a word. No instruction moves one (20_memory R62); memory is held in them (log 5). -/
abbrev Byte := BitVec 8

end Sys2Proof
end

