-- ==== Sys2Proof/Machine/Sparse.lean ====
section
/-! DEFINITION. Sparse stores: a list of keys and values in one canonical form. The memory (bytes) and
the register bank (words) are held in them. -/

namespace Sys2Proof.Machine

/-- A store of `w`-bit values under keys. An unlisted key reads 0 (log 1, log 2). -/
abbrev Sparse (w : Nat) := List (Nat × BitVec w)

/-- The value under a key. -/
def Sparse.get {w : Nat} (key : Nat) : Sparse w → BitVec w
  | [] => 0#w
  | (k, v) :: rest => if k = key then v else Sparse.get key rest

/-- The store without a key. -/
def Sparse.erase {w : Nat} (key : Nat) (m : Sparse w) : Sparse w := m.filter (fun e => e.1 != key)

/-- The store with an entry put before the first greater key. -/
def Sparse.insert {w : Nat} (key : Nat) (value : BitVec w) : Sparse w → Sparse w
  | [] => [(key, value)]
  | (k, v) :: rest => if key < k then (key, value) :: (k, v) :: rest else (k, v) :: Sparse.insert key value rest

/-- The store with `value` under `key`. Writing the value an unlisted key reads as removes the entry. -/
def Sparse.set {w : Nat} (key : Nat) (value : BitVec w) (m : Sparse w) : Sparse w :=
  if value = 0#w then Sparse.erase key m else Sparse.insert key value (Sparse.erase key m)

/-- The canonical form: keys strictly rising and below `bound`, and no entry equal to what an unlisted
key reads as. -/
def Sparse.wf {w : Nat} (bound : Nat) (m : Sparse w) : Bool :=
  decide ((m.map Prod.fst).Pairwise (· < ·)) && m.all (fun e => e.2 != 0#w && e.1 < bound)

end Sys2Proof.Machine
end

