-- ==== Sys2Proof/Config.lean ====
section
/-! DEFINITION. The named parameters of the spec (00_scope R7), each at the value this model takes,
and the free answers of the device that owns the I/O page. -/

namespace Sys2Proof

/-- `SR_UNUSED_BITS` (10_state R34, D5): what bits 7 and 6 of R14 do. -/
inductive SrUnusedBits where
  | zero     -- they read 0 and a write to them is ignored
  | storage  -- they hold what an explicit write or RTI put there
  deriving DecidableEq, Repr

/-- `SR_DST_ORDER` (40_operands R136, D7): which write to R14 comes last when an instruction that
writes flags has R14 itself as its destination. -/
inductive SrDstOrder where
  | writeWins
  | flagsWin
  deriving DecidableEq, Repr

/-- `UNTAKEN_BRANCH_OPERAND` (45_branch R233, D15): what an untaken jump does with its operand. -/
inductive UntakenBranchOperand where
  | evaluate
  | skipConstantOnly
  deriving DecidableEq, Repr

/-- `SHIFT_COUNT` (42_shift_swap R170, D11): what a shift count above 15 does. -/
inductive ShiftCount where
  | iterative
  | mod16
  | refuseAbove15
  deriving DecidableEq, Repr

/-- `CTRL_LOW_BITS` (30_encoding R105, D21): bits 5..0 of HALT, RTI, INCRB and DECRB. -/
inductive CtrlLowBits where
  | ignored
  | mustBeZero
  deriving DecidableEq, Repr

/-- `IMAGE_BYTE_ORDER` (20_memory R66, D2): the order of a word's two bytes in a byte image. -/
inductive ImageByteOrder where
  | lowFirst
  | highFirst
  deriving DecidableEq, Repr

/-- One access to the I/O page, as the device that owns the address sees it (20_memory R68). -/
inductive IoEvent where
  | read (addr : Word)
  | write (addr value : Word)
  deriving DecidableEq, Repr

/-- DESIGN CHOICE (log 6): the spec's default. -/
def Config.srUnusedBits : SrUnusedBits := .zero
/-- DESIGN CHOICE (log 8): the spec's default. -/
def Config.srDstOrder : SrDstOrder := .writeWins
/-- DESIGN CHOICE (log 10): the spec's default. -/
def Config.untakenBranchOperand : UntakenBranchOperand := .evaluate
/-- DESIGN CHOICE (log 11): the spec's default. -/
def Config.shiftCount : ShiftCount := .iterative
/-- DESIGN CHOICE (log 12): the spec's default. -/
def Config.ctrlLowBits : CtrlLowBits := .ignored
/-- DESIGN CHOICE (log 5): the spec's default, "little endian!". -/
def Config.imageByteOrder : ImageByteOrder := .lowFirst
/-- `RESET_PC` (10_state R45, D27; log 3). -/
def Config.resetPc : Word := 0x0000
/-- `RESET_SR` (10_state R45, D27; log 3). -/
def Config.resetSr : Word := 0x0001

/-- The word a device answers to a read of `addr` after the accesses `history` (latest first).
A FREE VALUE: the source describes no device (20_memory R68), so nothing constrains it. As the history
grows with every access, no two reads of one run ask for the same value, and a device may change its
own state on either kind of access (log 14). -/
opaque Config.ioAnswer : (history : List IoEvent) → (addr : Word) → Word

end Sys2Proof
end

