-- ==== Sys2Proof/Syntax.lean ====
section
/-! DEFINITION. The instructions of QNICE, one constructor per row of spec/opcode_table.json. -/

namespace Sys2Proof

/-- The sixteen visible registers (10_state R23): the window R0..R7, R8..R13, R14 and R15. -/
inductive Reg where
  /-- R0..R7, a window onto the register bank (R21). -/
  | lo (i : Fin 8)
  /-- R8..R13, numbered from 0 (R22). -/
  | hi (i : Fin 6)
  /-- R14, the status register (R30). -/
  | sr
  /-- R15, the program counter (R28). -/
  | pc
  deriving DecidableEq, Repr

/-- R13, the stack pointer of ASUB and RSUB (10_state R26). -/
abbrev Reg.sp : Reg := .hi 5

/-- The four addressing modes (30_encoding R101, 40_operands R131). -/
inductive Mode where
  /-- `Rxx` -/
  | reg
  /-- `@Rxx` -/
  | ind
  /-- `@Rxx++` -/
  | indInc
  /-- `@--Rxx` -/
  | decInd
  deriving DecidableEq, Repr

/-- An operand field: a register and a mode; all 64 are legal (30_encoding R101). -/
structure Operand where
  reg : Reg
  mode : Mode
  deriving DecidableEq, Repr

/-- The condition field of a jump: the bit of R14 it selects, and whether it is negated
(30_encoding R93, R100). -/
structure Cond where
  negate : Bool
  select : Fin 8
  deriving DecidableEq, Repr

/-- The 22 instructions (30_encoding R97, R98, R99) and the reserved opcode.
`unused` is bits 5..0 of a control word that names no operand (R105). -/
inductive Instr where
  | move (src dst : Operand)
  | add (src dst : Operand)
  | addc (src dst : Operand)
  | sub (src dst : Operand)
  | subc (src dst : Operand)
  | shl (src dst : Operand)
  | shr (src dst : Operand)
  | swap (src dst : Operand)
  | not (src dst : Operand)
  | and (src dst : Operand)
  | or (src dst : Operand)
  | xor (src dst : Operand)
  | cmp (src dst : Operand)
  /-- Opcode 0xD with bits 11..0 of the word: no instruction (43_logic_cmp R191), a row of the table. -/
  | reservedD (payload : BitVec 12)
  | halt (unused : BitVec 6)
  | rti (unused : BitVec 6)
  | int (isr : Operand)
  | incrb (unused : BitVec 6)
  | decrb (unused : BitVec 6)
  | abra (target : Operand) (cond : Cond)
  | asub (target : Operand) (cond : Cond)
  | rbra (offset : Operand) (cond : Cond)
  | rsub (offset : Operand) (cond : Cond)
  deriving DecidableEq, Repr

end Sys2Proof
end

