-- ==== Sys2Proof/Machine/State.lean ====
section
/-! DEFINITION. The state of the machine (spec 10_state R20), the reasons a step can stop, and reset. -/

namespace Sys2Proof.Machine

/-- `MEM[a]` for 0x0000..0xFEFF (20_memory R60, R61) as byte cells: the word at address `a` has its low
byte in cell `2 * a` and its high byte in cell `2 * a + 1` (R66; log 5). An unlisted cell reads 0 (log 2). -/
abbrev Memory := List Host.Cell

/-- The first cell that is not memory: the I/O page starts at word 0xFF00 (20_memory R70). -/
abbrev memoryCells : Nat := 2 * 0xFF00

/-- The canonical form of memory: addresses strictly rising, none in the I/O page, no listed zero. -/
def Memory.wf (m : Memory) : Bool := Sparse.wf memoryCells m

/-- `BANK[p][i]` (10_state R21) under the key `8 * p + i`; an unlisted register reads 0 (log 1). -/
abbrev Bank := Sparse 16

/-- The bank has 256 pages of 8 registers (10_state R21). -/
abbrev bankRegisters : Nat := 256 * 8

/-- The canonical form of the bank. -/
def Bank.wf (b : Bank) : Bool := Sparse.wf bankRegisters b

/-- The whole state of a QNICE machine (10_state R20), and the two inputs of its step relation
(00_scope R7: IntSource, IODevice). Plain data. -/
structure State where
  /-- R0..R7 of the 256 pages (10_state R21). -/
  bank : Bank
  /-- R8..R13 (10_state R22). -/
  hi : Vector Word 6
  /-- R14, the status register (10_state R30). -/
  sr : Word
  /-- R15, the program counter (10_state R28). -/
  pc : Word
  /-- The invisible latch of R14 (10_state R40). -/
  srSave : Word
  /-- The invisible latch of R15 (10_state R40). -/
  pcSave : Word
  /-- `IN_ISR`: an interrupt is being serviced (10_state R41). -/
  inIsr : Bool
  /-- `HALTED` (10_state R42). -/
  halted : Bool
  /-- Memory below the I/O page (20_memory R60). -/
  mem : Memory
  /-- `IntSource` (60_exceptions R255): for each coming instruction boundary, nothing or a request with
  the address of its ISR; nothing once the list has ended (log 15). -/
  intSource : List (Option Word)
  /-- `IODevice` (20_memory R68): none given, or one with the accesses made to it, latest first
  (log 13, log 14). -/
  device : Option (List IoEvent)
  deriving DecidableEq, Repr

/-- The faults: stops of the model that the spec names with `raise` (00_scope R11). All are safe: the
spec gives no effect to what raises them. -/
inductive Fault where
  /-- Raised by the reserved opcode 0xD (43_logic_cmp R191). Safe (log 18). -/
  | reservedOpcode (ir : Word)
  /-- Raised at decode by opcode 0xE with command 5..63 (44_control R216). Safe (log 18). -/
  | undefinedCommand (ir : Word)
  /-- Raised at decode by a control word with non-zero unused bits when CTRL_LOW_BITS is must_be_zero
  (30_encoding R105); never at its default. Safe (log 12). -/
  | controlLowBits (ir : Word)
  /-- Raised by INT while an interrupt is being serviced (44_control R212 d). Safe (log 17). -/
  | nestedInterrupt
  /-- Raised by RTI while no interrupt is being serviced (44_control R211 d). Safe (log 17). -/
  | rtiOutsideIsr
  deriving DecidableEq, Repr

/-- The refusals: cases for which the spec says the model has no step. -/
inductive Refusal where
  /-- An instruction without a meaning. No arm of exec answers it. Safe. -/
  | notModelled (mnemonic : String)
  /-- Raised by any fetch, read or write in 0xFF00..0xFFFF while no IODevice is given
  (20_memory R68, R69). Safe (log 13). -/
  | noIODevice (addr : Word)
  /-- Raised by SHL and SHR when SHIFT_COUNT is refuse_above_15 (42_shift_swap R170, D11); never at its
  default. Safe (log 11). -/
  | shiftCountAbove15 (count : Word)
  deriving DecidableEq, Repr

/-- The machine right after reset (10_state R45, 70_reset R290). The values of R0..R13, of the bank, of
the latches and of memory are a DESIGN CHOICE (log 1, log 2): the spec gives none. So is the interrupt input
(log 15): 00_scope R7 calls IntSource a free input and gives it no value, and reset takes the empty list, so that
no request is ever offered in a run from this state. No device is given, the spec's default (log 13). -/
def State.reset : State where
  bank := []
  hi := Vector.replicate 6 0x0000#16
  sr := Config.resetSr
  pc := Config.resetPc
  srSave := 0x0000
  pcSave := 0x0000
  inIsr := false
  halted := false
  mem := []
  intSource := []
  device := none

end Sys2Proof.Machine
end

