-- ==== Sys2Proof/Machine/Flags.lean ====
section
/-! DEFINITION. The status register's fields and every flag computation of the spec
(10_state R30..R38, 41_move_arith, 42_shift_swap, 43_logic_cmp). -/

namespace Sys2Proof.Machine

/-- What R14 holds and reads as when `v` is put there (10_state R32, R33, R34): bit 0 is hard-wired to 1,
bits 7 and 6 follow SR_UNUSED_BITS. -/
def srFixed (p : SrUnusedBits) (v : Word) : Word :=
  match p with
  | .zero => (v &&& 0xFF3E#16) ||| 0x0001#16
  | .storage => v ||| 0x0001#16

/-- The bit numbers of the flags in R14 (10_state R30). -/
abbrev bitX : Nat := 1
abbrev bitC : Nat := 2
abbrev bitZ : Nat := 3
abbrev bitN : Nat := 4
abbrev bitV : Nat := 5

/-- `rbank`, bits 15..8 of R14 (10_state R30). -/
def rbankOf (sr : Word) : BitVec 8 := sr.extractLsb' 8 8

/-- R14 with another `rbank`, bits 7..0 unchanged (44_control R214, R215). -/
def withRbank (page : BitVec 8) (sr : Word) : Word := page ++ sr.extractLsb' 0 8

/-- `SR.f <- b` (00_scope R11): writes one bit and leaves the others; `none` writes nothing. -/
def writeBit (bit : Nat) (value : Option Bool) (sr : Word) : Word :=
  match value with
  | none => sr
  | some true => sr ||| (1#16 <<< bit)
  | some false => sr &&& ~~~(1#16 <<< bit)

/-- The flags an instruction writes: `none` where the table of 10_state R35 is empty. -/
structure FlagWrites where
  v : Option Bool := none
  n : Option Bool := none
  z : Option Bool := none
  c : Option Bool := none
  x : Option Bool := none
  deriving DecidableEq, Repr

/-- The status register after an instruction's flag writes. -/
def FlagWrites.apply (f : FlagWrites) (sr : Word) : Word :=
  writeBit bitV f.v (writeBit bitN f.n (writeBit bitZ f.z (writeBit bitC f.c (writeBit bitX f.x sr))))

/-- What the function of a two-operand instruction gives (40_operands R134, step 4). -/
structure AluOut where
  res : Word
  flags : FlagWrites
  deriving DecidableEq, Repr

/-- N = bit 15, Z = the result is 0x0000 (10_state R36; log 21). -/
def flagN (res : Word) : Bool := res.msb
def flagZ (res : Word) : Bool := res == 0x0000#16
/-- X = the result is 0xFFFF (10_state R36). -/
def flagX (res : Word) : Bool := res == 0xFFFF#16

/-- A result that writes N, Z and X and keeps V and C (10_state R35, R36): MOVE, SWAP, NOT, AND, OR, XOR. -/
def logicOut (res : Word) : AluOut :=
  ⟨res, { n := some (flagN res), z := some (flagZ res), x := some (flagX res) }⟩

/-- A result that writes V, N, Z, C and X: ADD, ADDC, SUB, SUBC. -/
def arithOut (res : Word) (carry overflow : Bool) : AluOut :=
  ⟨res, { v := some overflow, n := some (flagN res), z := some (flagZ res), c := some carry, x := some (flagX res) }⟩

/-- ADD and ADDC (41_move_arith R152, R153): the unbounded sum, its carry out of bit 15 and its signed
overflow (log 21). -/
def addOut (src dst : Word) (carryIn : Bool) : AluOut :=
  let sum := dst.toNat + src.toNat + carryIn.toNat
  let res := BitVec.ofNat 16 sum
  arithOut res (decide (65536 ≤ sum)) (dst.msb == src.msb && res.msb != dst.msb)

/-- SUB and SUBC (41_move_arith R154, R155): the unbounded difference, its borrow and its signed
overflow (log 21). -/
def subOut (src dst : Word) (borrowIn : Bool) : AluOut :=
  let diff : Int := (dst.toNat : Int) - src.toNat - borrowIn.toNat
  let res := BitVec.ofInt 16 diff
  arithOut res (decide (diff < 0)) (dst.msb != src.msb && res.msb != dst.msb)

/-- One place of SHL (42_shift_swap R171): bit 15 leaves, bit 0 takes the fill bit. -/
def shlPlace (fill : Bool) (s : Word × Bool) : Word × Bool :=
  ((s.1 <<< 1) ||| (BitVec.ofBool fill).setWidth 16, s.1.msb)

/-- One place of SHR (42_shift_swap R172): bit 0 leaves, bit 15 takes the fill bit. -/
def shrPlace (fill : Bool) (s : Word × Bool) : Word × Bool :=
  ((s.1 >>> 1) ||| ((BitVec.ofBool fill).setWidth 16 <<< 15), s.1.getLsbD 0)

/-- `repeat n times` of a shift's pseudocode (42_shift_swap R171, R172). -/
def repeatPlaces (place : Word × Bool → Word × Bool) : Nat → Word × Bool → Word × Bool
  | 0, s => s
  | n + 1, s => repeatPlaces place n (place s)

/-- The places a shift makes: after 17 places another place changes nothing
(Laws: `repeatPlaces_shl_cap`, `repeatPlaces_shr_cap`), so a larger count is not run out (log 11). -/
def cappedPlaces (n : Nat) : Nat := min n 17

/-- The count of a shift under SHIFT_COUNT (42_shift_swap R170, D11); `none` where the model has no step. -/
def shiftPlaces (p : ShiftCount) (count : Word) : Option Nat :=
  match p with
  | .iterative => some (cappedPlaces count.toNat)
  | .mod16 => some (count.toNat % 16)
  | .refuseAbove15 => if count.toNat ≤ 15 then some count.toNat else none

/-- SHL by `places` (42_shift_swap R171): fill with X, shift to C; writes N, Z, C. -/
def shlOut (places : Nat) (dst : Word) (oldX oldC : Bool) : AluOut :=
  let s := repeatPlaces (shlPlace oldX) places (dst, oldC)
  ⟨s.1, { n := some (flagN s.1), z := some (flagZ s.1), c := some s.2 }⟩

/-- SHR by `places` (42_shift_swap R172): fill with C, shift to X; writes N, Z, X. -/
def shrOut (places : Nat) (dst : Word) (oldC oldX : Bool) : AluOut :=
  let s := repeatPlaces (shrPlace oldC) places (dst, oldX)
  ⟨s.1, { n := some (flagN s.1), z := some (flagZ s.1), x := some s.2 }⟩

/-- SWAP's exchange of the two bytes of a word (42_shift_swap R173). -/
def swapBytes (v : Word) : Word := v.extractLsb' 0 8 ++ v.extractLsb' 8 8

/-- CMP's flags (10_state R37, 43_logic_cmp R190): Z equal, N unsigned greater, V signed greater. -/
def cmpFlags (src dst : Word) : FlagWrites :=
  { v := some (dst.slt src), n := some (dst.ult src), z := some (src == dst) }

end Sys2Proof.Machine
end

