-- ==== Sys2Proof/Machine/Ops.lean ====
section
/-! DEFINITION. The named operations over registers and memory (spec 10_state R23..R33, 20_memory
R63..R69), the stack push, taking an interrupt and returning from one. -/

namespace Sys2Proof.Machine

/-- The outcome of a part of an instruction. -/
abbrev Res (α : Type) := Host.Outcome α Fault Refusal

/-- Goes on with what a part gives; a stop ends the instruction. -/
def andThen {α β : Type} (r : Res α) (f : α → Res β) : Res β :=
  match r with
  | .next a => f a
  | .fault e => .fault e
  | .refused e => .refused e

/-- `x[14]`: the hard-wired bits read as the spec says whatever is stored (10_state R23, R32, R34). -/
def readSr (s : State) : Word := srFixed Config.srUnusedBits s.sr

/-- `x[14] <- v` (10_state R33). -/
def writeSr (v : Word) (s : State) : State := { s with sr := srFixed Config.srUnusedBits v }

/-- The page that R0..R7 show at this moment (10_state R23). -/
def currentPage (s : State) : BitVec 8 := rbankOf s.sr

/-- Where `BANK[page][i]` is held. -/
def bankKey (page : BitVec 8) (i : Fin 8) : Nat := 8 * page.toNat + i.val

/-- `BANK[page][i]` (10_state R21). -/
def readBank (s : State) (page : BitVec 8) (i : Fin 8) : Word := Sparse.get (bankKey page i) s.bank

/-- `x[r]`, through the window (10_state R23). -/
def readReg (s : State) (r : Reg) : Word :=
  match r with
  | .lo i => readBank s (currentPage s) i
  | .hi i => s.hi[i.val]
  | .sr => readSr s
  | .pc => s.pc

/-- `x[r] <- v`, through the window (10_state R24, R28, R33). -/
def writeReg (r : Reg) (v : Word) (s : State) : State :=
  match r with
  | .lo i => { s with bank := Sparse.set (bankKey (currentPage s) i) v s.bank }
  | .hi i => { s with hi := s.hi.set i.val v }
  | .sr => writeSr v s
  | .pc => { s with pc := v }

/-- A flag of R14 (10_state R30). -/
def readFlag (s : State) (bit : Nat) : Bool := (readSr s).getLsbD bit

/-- Step 5 of 40_operands R134: the flags an instruction writes. -/
def writeFlags (f : FlagWrites) (s : State) : State := { s with sr := f.apply s.sr }

/-- The I/O page, the upper 256 words (20_memory R68, R70). -/
def inIoPage (a : Word) : Bool := decide (0xFF00 ≤ a.toNat)

/-- One byte cell of memory (log 5). -/
def readByte (m : Memory) (cell : Nat) : Byte := Sparse.get cell m

/-- `MEM[a]` (20_memory R63): the low byte in the lower cell (R66; log 5). -/
def readWord (m : Memory) (a : Word) : Word :=
  readByte m (2 * a.toNat + 1) ++ readByte m (2 * a.toNat)

/-- `MEM[a] <- v` (20_memory R64). -/
def writeWord (a v : Word) (m : Memory) : Memory :=
  Sparse.set (2 * a.toNat + 1) (v.extractLsb' 8 8) (Sparse.set (2 * a.toNat) (v.extractLsb' 0 8) m)

/-- `MemRead(a, 16)` (20_memory R63, R68): memory, or the device that owns the address; without a device
the model has no step (D4; log 13). -/
def memRead (a : Word) (s : State) : Res (Word × State) :=
  if inIoPage a then
    match s.device with
    | none => .refused (.noIODevice a)
    | some h => .next (Config.ioAnswer h a, { s with device := some (.read a :: h) })
  else .next (readWord s.mem a, s)

/-- `MemWrite(a, 16, v)` (20_memory R64, R68). -/
def memWrite (a v : Word) (s : State) : Res State :=
  if inIoPage a then
    match s.device with
    | none => .refused (.noIODevice a)
    | some h => .next { s with device := some (.write a v :: h) }
  else .next { s with mem := writeWord a v s.mem }

/-- `Push(v)` of a subroutine call (45_branch R230): decrement R13, then store. -/
def push (v : Word) (s : State) : Res State :=
  let s := writeReg .sp (readReg s .sp - 1) s
  memWrite (readReg s .sp) v s

/-- TAKING AN INTERRUPT, hardware or software (60_exceptions R258): the latches take R14 and R15, the pc
goes to the ISR address, and nothing else changes but IN_ISR (D25; log 16). -/
def takeInterrupt (isr : Word) (s : State) : State :=
  { s with srSave := readSr s, pcSave := s.pc, pc := isr, inIsr := true }

/-- RETURNING FROM AN INTERRUPT (44_control R211): R14 whole and R15 from the latches, IN_ISR cleared; the
latches stay. -/
def returnFromInterrupt (s : State) : State :=
  { writeReg .pc s.pcSave (writeReg .sr s.srSave s) with inIsr := false }

end Sys2Proof.Machine
end

