-- ==== Sys2Proof/Machine/Operands.lean ====
section
/-! DEFINITION. The four addressing modes, the evaluation of operands, and the order of evaluation of a
two-operand instruction (spec 40_operands R131..R140). -/

namespace Sys2Proof.Machine

/-- `ReadOperand(r, m)` (40_operands R132): an operand that is only read, with its side effect. -/
def readOperand (o : Operand) (s : State) : Res (Word × State) :=
  match o.mode with
  | .reg => .next (readReg s o.reg, s)
  | .ind => memRead (readReg s o.reg) s
  | .indInc =>
    andThen (memRead (readReg s o.reg) s) fun r =>
      .next (r.1, writeReg o.reg (readReg r.2 o.reg + 1) r.2)
  | .decInd =>
    let s := writeReg o.reg (readReg s o.reg - 1) s
    memRead (readReg s o.reg) s

/-- The place of a destination operand (40_operands R133). -/
inductive Loc where
  | reg (r : Reg)
  | mem (a : Word)
  deriving DecidableEq, Repr

/-- The state part of `DstLocate` (40_operands R133): the pre-decrement. -/
def locateState (o : Operand) (s : State) : State :=
  match o.mode with
  | .decInd => writeReg o.reg (readReg s o.reg - 1) s
  | .reg => s
  | .ind => s
  | .indInc => s

/-- The location part of `DstLocate` (40_operands R133): the address before an increment, after a
decrement. -/
def locate (o : Operand) (s : State) : Loc :=
  match o.mode with
  | .reg => .reg o.reg
  | .ind => .mem (readReg s o.reg)
  | .indInc => .mem (readReg s o.reg)
  | .decInd => .mem (readReg (locateState o s) o.reg)

/-- `DstRead(loc)` (40_operands R133). -/
def dstRead (l : Loc) (s : State) : Res (Word × State) :=
  match l with
  | .reg r => .next (readReg s r, s)
  | .mem a => memRead a s

/-- `DstWrite(loc, v)` (40_operands R133). -/
def dstWrite (l : Loc) (v : Word) (s : State) : Res State :=
  match l with
  | .reg r => .next (writeReg r v s)
  | .mem a => memWrite a v s

/-- `DstFinish(r, m)` (40_operands R133): the post-increment. -/
def dstFinish (o : Operand) (s : State) : State :=
  match o.mode with
  | .indInc => writeReg o.reg (readReg s o.reg + 1) s
  | .reg => s
  | .ind => s
  | .decInd => s

/-- Steps 5 and 6 of 40_operands R134, in the order SR_DST_ORDER gives (R136, D7; log 8). -/
def writeResult (p : SrDstOrder) (l : Loc) (out : AluOut) (s : State) : Res State :=
  match p with
  | .writeWins => dstWrite l out.res (writeFlags out.flags s)
  | .flagsWin => andThen (dstWrite l out.res s) fun s => .next (writeFlags out.flags s)

/-- A two-operand instruction that does not read its old destination (40_operands R134, R140): MOVE,
SWAP, NOT. -/
def writeOnly (f : Word → AluOut) (src dst : Operand) (s : State) : Res State :=
  andThen (readOperand src s) fun r =>
  andThen (writeResult Config.srDstOrder (locate dst r.2) (f r.1) (locateState dst r.2)) fun s =>
    .next (dstFinish dst s)

/-- A two-operand instruction that reads and writes its destination (40_operands R134, R140). `f` is its
function of the source, the old destination and the state whose flags it reads. -/
def readModifyWrite (f : Word → Word → State → Res AluOut) (src dst : Operand) (s : State) : Res State :=
  andThen (readOperand src s) fun r =>
  andThen (dstRead (locate dst r.2) (locateState dst r.2)) fun d =>
  andThen (f r.1 d.1 d.2) fun out =>
  andThen (writeResult Config.srDstOrder (locate dst r.2) out d.2) fun s =>
    .next (dstFinish dst s)

/-- A two-operand instruction that reads its destination and writes flags only (40_operands R134, R140):
CMP. -/
def compareOnly (f : Word → Word → FlagWrites) (src dst : Operand) (s : State) : Res State :=
  andThen (readOperand src s) fun r =>
  andThen (dstRead (locate dst r.2) (locateState dst r.2)) fun d =>
    .next (dstFinish dst (writeFlags (f r.1 d.1) d.2))

end Sys2Proof.Machine
end

