-- ==== Sys2Proof/Machine/Branch.lean ====
section
/-! DEFINITION. ABRA, ASUB, RBRA, RSUB (spec 45_branch). -/

namespace Sys2Proof.Machine

/-- Whether a condition holds (R227): the selected bit of R14, inverted when `negate` is 1. -/
def taken (c : Cond) (s : State) : Bool := (readSr s).getLsbD c.select.val != c.negate

/-- What is left of an untaken jump under `skip_constant_only` (R233): only the constant is stepped over. -/
def skipConstant (o : Operand) (s : State) : State :=
  if o = ⟨.pc, .indInc⟩ then { s with pc := s.pc + 1 } else s

/-- What the four jumps share (R225, R226, R227, R233): the operand is evaluated whether or not the
condition holds, then the condition is tested (D14), then `go` acts on the operand. Under
`skip_constant_only` nothing is evaluated before the test (log 10). -/
def conditionalJump (p : UntakenBranchOperand) (go : Word → State → Res State) (o : Operand) (c : Cond)
    (s : State) : Res State :=
  match p with
  | .evaluate =>
    andThen (readOperand o s) fun r => if taken c r.2 then go r.1 r.2 else .next r.2
  | .skipConstantOnly =>
    if taken c s then andThen (readOperand o s) fun r => go r.1 r.2 else .next (skipConstant o s)

/-- `x[15] <- a` (R228). -/
def jumpTo (a : Word) (s : State) : State := { s with pc := a }

/-- ABRA target, cond: "Absolute branch" (R228). -/
def execAbra (target : Operand) (cond : Cond) (s : State) : Res State :=
  conditionalJump Config.untakenBranchOperand (fun a s => .next (jumpTo a s)) target cond s

/-- ASUB target, cond: the return address is R15 after the operand (R229, R230). -/
def execAsub (target : Operand) (cond : Cond) (s : State) : Res State :=
  conditionalJump Config.untakenBranchOperand
    (fun a s => andThen (push s.pc s) fun s => .next (jumpTo a s)) target cond s

/-- RBRA offset, cond: "Relative branch", from R15 after the operand (R231; log 22). -/
def execRbra (offset : Operand) (cond : Cond) (s : State) : Res State :=
  conditionalJump Config.untakenBranchOperand (fun o s => .next (jumpTo (s.pc + o) s)) offset cond s

/-- RSUB offset, cond: pushes R15 and adds the offset to the same R15 (R232). -/
def execRsub (offset : Operand) (cond : Cond) (s : State) : Res State :=
  conditionalJump Config.untakenBranchOperand
    (fun o s => andThen (push s.pc s) fun s => .next (jumpTo (s.pc + o) s)) offset cond s

end Sys2Proof.Machine
end

