-- ==== Sys2Proof/Machine/Control.lean ====
section
/-! DEFINITION. HALT, RTI, INT, INCRB, DECRB (spec 44_control). -/

namespace Sys2Proof.Machine

/-- HALT: "Halt the processor" (R210). -/
def execHalt (s : State) : Res State :=
  .next { s with halted := true }

/-- RTI: "Return from interrupt" (R211); outside an interrupt the model stops (corner case d; log 17). -/
def execRti (s : State) : Res State :=
  if s.inIsr then .next (returnFromInterrupt s) else .fault .rtiOutsideIsr

/-- INT dst: "Issue software interrupt" (R212). The operand is evaluated first; while an interrupt is
being serviced the model stops (corner case d; log 17). -/
def execInt (isr : Operand) (s : State) : Res State :=
  andThen (readOperand isr s) fun r =>
    if r.2.inIsr then .fault .nestedInterrupt else .next (takeInterrupt r.1 r.2)

/-- INCRB: "Increment the register bank address", modulo 256, bits 7..0 unchanged (R214). -/
def execIncrb (s : State) : Res State :=
  .next { s with sr := withRbank (rbankOf s.sr + 1) s.sr }

/-- DECRB: "Decrement the register bank address", modulo 256, bits 7..0 unchanged (R215). -/
def execDecrb (s : State) : Res State :=
  .next { s with sr := withRbank (rbankOf s.sr - 1) s.sr }

end Sys2Proof.Machine
end

