-- ==== Sys2Proof/WellFormed.lean ====
section
/-! DEFINITION. Which terms of `Instr` are instructions of the machine. Register numbers, modes and
condition selects cannot be ill formed by their types; what is left are the unused bits of the control
group under the parameter CTRL_LOW_BITS. -/

namespace Sys2Proof

/-- May a control word carry `unused` in bits 5..0 (30_encoding R105)? -/
def CtrlLowBits.allows (p : CtrlLowBits) (unused : BitVec 6) : Bool :=
  match p with
  | .ignored => true
  | .mustBeZero => unused == 0#6

/-- Well-formedness under a value of CTRL_LOW_BITS. -/
def Instr.wellFormedUnder (p : CtrlLowBits) : Instr → Bool
  | .move _ _ => true
  | .add _ _ => true
  | .addc _ _ => true
  | .sub _ _ => true
  | .subc _ _ => true
  | .shl _ _ => true
  | .shr _ _ => true
  | .swap _ _ => true
  | .not _ _ => true
  | .and _ _ => true
  | .or _ _ => true
  | .xor _ _ => true
  | .cmp _ _ => true
  | .reservedD _ => true
  | .halt unused => p.allows unused
  | .rti unused => p.allows unused
  | .int _ => true
  | .incrb unused => p.allows unused
  | .decrb unused => p.allows unused
  | .abra _ _ => true
  | .asub _ _ => true
  | .rbra _ _ => true
  | .rsub _ _ => true

/-- Well-formedness of this model: under its own value of CTRL_LOW_BITS. -/
def Instr.wellFormed (i : Instr) : Bool := i.wellFormedUnder Config.ctrlLowBits

end Sys2Proof
end

