-- ==== Sys2Proof/Decode.lean ====
section
/-! DEFINITION. The decoder (spec 30_encoding R91..R106) and, after it, the encoder. -/

namespace Sys2Proof

/-- The register named by a 4-bit field (30_encoding R91, 10_state R23). -/
def regOfNum (n : BitVec 4) : Reg :=
  if h : n.toNat < 8 then .lo ⟨n.toNat, h⟩
  else if h : n.toNat < 14 then .hi ⟨n.toNat - 8, by omega⟩
  else if n.toNat = 14 then .sr
  else .pc

/-- The mode named by a 2-bit field (30_encoding R101). -/
def modeOfBits (m : BitVec 2) : Mode :=
  match m.toNat with
  | 0 => .reg
  | 1 => .ind
  | 2 => .indInc
  | _ => .decInd

/-- The operand in a 6-bit field `rxx ++ mode` (30_encoding R91, R101). -/
def operandOfBits (b : BitVec 6) : Operand :=
  ⟨regOfNum (b.extractLsb' 2 4), modeOfBits (b.extractLsb' 0 2)⟩

/-- The condition in bits 3..0 of a jump (30_encoding R93, R100). -/
def condOfBits (b : BitVec 4) : Cond :=
  ⟨b.getLsbD 3, ⟨(b.extractLsb' 0 3).toNat, (b.extractLsb' 0 3).isLt⟩⟩

/-- What a word decodes to (30_encoding R95): an instruction or the reserved opcode, or a rejection by
name. -/
inductive Decoded where
  | instr (i : Instr)
  /-- Opcode 0xE with command 5..63 (30_encoding R104). -/
  | undefinedCommand (ir : Word)
  /-- Non-zero bits 5..0 in HALT, RTI, INCRB or DECRB under CTRL_LOW_BITS = must_be_zero (R105). -/
  | controlLowBits (ir : Word)
  deriving DecidableEq, Repr

/-- Format G, opcodes 0x0..0xC, and the reserved opcode 0xD (30_encoding R91, R97, R103). -/
def decodeTwoOperand (op : Nat) (src dst : Operand) (payload : BitVec 12) : Instr :=
  match op with
  | 0 => .move src dst
  | 1 => .add src dst
  | 2 => .addc src dst
  | 3 => .sub src dst
  | 4 => .subc src dst
  | 5 => .shl src dst
  | 6 => .shr src dst
  | 7 => .swap src dst
  | 8 => .not src dst
  | 9 => .and src dst
  | 10 => .or src dst
  | 11 => .xor src dst
  | 12 => .cmp src dst
  | _ => .reservedD payload

/-- A control command whose bits 5..0 are no operand (30_encoding R105). -/
def decodeBareControl (p : CtrlLowBits) (i : BitVec 6 → Instr) (low : BitVec 6) (ir : Word) : Decoded :=
  if p.allows low then .instr (i low) else .controlLowBits ir

/-- Format C, opcode 0xE: the command is bits 11..6 (30_encoding R92, R98, R104). -/
def decodeControl (p : CtrlLowBits) (command : Nat) (low : BitVec 6) (ir : Word) : Decoded :=
  match command with
  | 0 => decodeBareControl p .halt low ir
  | 1 => decodeBareControl p .rti low ir
  | 2 => .instr (.int (operandOfBits low))
  | 3 => decodeBareControl p .incrb low ir
  | 4 => decodeBareControl p .decrb low ir
  | _ => .undefinedCommand ir

/-- Format B, opcode 0xF: `bmode` is bits 5..4 (30_encoding R93, R99). -/
def decodeJump (bmode : Nat) (target : Operand) (cond : Cond) : Instr :=
  match bmode with
  | 0 => .abra target cond
  | 1 => .asub target cond
  | 2 => .rbra target cond
  | _ => .rsub target cond

/-- The decoder under a value of CTRL_LOW_BITS. The opcode alone chooses the format (30_encoding R94),
and no state of the machine takes part (R95). -/
def decodeUnder (p : CtrlLowBits) (ir : Word) : Decoded :=
  match (ir.extractLsb' 12 4).toNat with
  | 14 => decodeControl p (ir.extractLsb' 6 6).toNat (ir.extractLsb' 0 6) ir
  | 15 => .instr (decodeJump (ir.extractLsb' 4 2).toNat (operandOfBits (ir.extractLsb' 6 6))
      (condOfBits (ir.extractLsb' 0 4)))
  | op => .instr (decodeTwoOperand op (operandOfBits (ir.extractLsb' 6 6))
      (operandOfBits (ir.extractLsb' 0 6)) (ir.extractLsb' 0 12))

/-- The decoder of this model. -/
def decode (ir : Word) : Decoded := decodeUnder Config.ctrlLowBits ir

/-- The instruction of a word of the opcode table, for the host: every instruction is one 16-bit word
(30_encoding R90), so only the first word is decoded. -/
def decodeTableWord (nbits w : Nat) : Option Instr :=
  match decode (BitVec.ofNat 16 (w % 2 ^ nbits)) with
  | .instr i => some i
  | .undefinedCommand _ => none
  | .controlLowBits _ => none

/-- The 4-bit number of a register (10_state R23). -/
def regNum : Reg → BitVec 4
  | .lo i => BitVec.ofNat 4 i.val
  | .hi i => BitVec.ofNat 4 (i.val + 8)
  | .sr => 14#4
  | .pc => 15#4

/-- The 2 bits of a mode (30_encoding R101). -/
def modeBits : Mode → BitVec 2
  | .reg => 0b00#2
  | .ind => 0b01#2
  | .indInc => 0b10#2
  | .decInd => 0b11#2

/-- The 6 bits `rxx ++ mode` of an operand (30_encoding R101). -/
def operandBits (o : Operand) : BitVec 6 := regNum o.reg ++ modeBits o.mode

/-- The bits `n ccc` of a condition (30_encoding R99, R100). -/
def condBits (c : Cond) : BitVec 4 := BitVec.ofBool c.negate ++ BitVec.ofNat 3 c.select.val

/-- A word of format G: `oooo ssss mm dddd nn` (30_encoding R91). -/
def wordG (op : BitVec 4) (src dst : Operand) : Word := op ++ operandBits src ++ operandBits dst

/-- A word of format C: `1110 cccccc` and six bits (30_encoding R92). -/
def wordC (command low : BitVec 6) : Word := 0xE#4 ++ command ++ low

/-- A word of format B: `1111 ssss mm bb n ccc` (30_encoding R93, R99). -/
def wordB (bmode : BitVec 2) (target : Operand) (cond : Cond) : Word :=
  0xF#4 ++ operandBits target ++ bmode ++ condBits cond

/-- The word of an instruction (30_encoding R97, R98, R99). -/
def encode : Instr → Word
  | .move src dst => wordG 0x0#4 src dst
  | .add src dst => wordG 0x1#4 src dst
  | .addc src dst => wordG 0x2#4 src dst
  | .sub src dst => wordG 0x3#4 src dst
  | .subc src dst => wordG 0x4#4 src dst
  | .shl src dst => wordG 0x5#4 src dst
  | .shr src dst => wordG 0x6#4 src dst
  | .swap src dst => wordG 0x7#4 src dst
  | .not src dst => wordG 0x8#4 src dst
  | .and src dst => wordG 0x9#4 src dst
  | .or src dst => wordG 0xA#4 src dst
  | .xor src dst => wordG 0xB#4 src dst
  | .cmp src dst => wordG 0xC#4 src dst
  | .reservedD payload => 0xD#4 ++ payload
  | .halt unused => wordC 0#6 unused
  | .rti unused => wordC 1#6 unused
  | .int isr => wordC 2#6 (operandBits isr)
  | .incrb unused => wordC 3#6 unused
  | .decrb unused => wordC 4#6 unused
  | .abra target cond => wordB 0#2 target cond
  | .asub target cond => wordB 1#2 target cond
  | .rbra offset cond => wordB 2#2 offset cond
  | .rsub offset cond => wordB 3#2 offset cond

end Sys2Proof
end

