-- ==== Sys2Proof/Machine/LogicCmp.lean ====
section
/-! DEFINITION. NOT, AND, OR, XOR, CMP and the reserved opcode (spec 43_logic_cmp). -/

namespace Sys2Proof.Machine

/-- NOT src, dst: "dst := !src", every bit inverted (R186; log 21). -/
def execNot (src dst : Operand) (s : State) : Res State :=
  writeOnly (fun a => logicOut (~~~a)) src dst s

/-- AND src, dst: "dst := dst & src" (R187). -/
def execAnd (src dst : Operand) (s : State) : Res State :=
  readModifyWrite (fun a d _ => .next (logicOut (d &&& a))) src dst s

/-- OR src, dst: "dst := dst | src" (R188). -/
def execOr (src dst : Operand) (s : State) : Res State :=
  readModifyWrite (fun a d _ => .next (logicOut (d ||| a))) src dst s

/-- XOR src, dst: "dst := dst ^ src" (R189). -/
def execXor (src dst : Operand) (s : State) : Res State :=
  readModifyWrite (fun a d _ => .next (logicOut (d ^^^ a))) src dst s

/-- CMP src, dst: "compare src with dst"; flags only (R190). -/
def execCmp (src dst : Operand) (s : State) : Res State :=
  compareOnly cmpFlags src dst s

/-- The reserved opcode 0xD: `raise ReservedOpcode(ir)`, no operand evaluated (R191; log 18). -/
def execReservedD (payload : BitVec 12) (_s : State) : Res State :=
  .fault (.reservedOpcode (encode (.reservedD payload)))

end Sys2Proof.Machine
end

