-- ==== Sys2Proof/Machine/MoveArith.lean ====
section
/-! DEFINITION. MOVE, ADD, ADDC, SUB, SUBC (spec 41_move_arith). -/

namespace Sys2Proof.Machine

/-- MOVE src, dst: "dst := src" (R151). -/
def execMove (src dst : Operand) (s : State) : Res State :=
  writeOnly logicOut src dst s

/-- ADD src, dst: "dst := dst + src" (R152). -/
def execAdd (src dst : Operand) (s : State) : Res State :=
  readModifyWrite (fun a d _ => .next (addOut a d false)) src dst s

/-- ADDC src, dst: "dst := dst + src + C" (R153); C as it is at step 4. -/
def execAddc (src dst : Operand) (s : State) : Res State :=
  readModifyWrite (fun a d s => .next (addOut a d (readFlag s bitC))) src dst s

/-- SUB src, dst: "dst := dst - src" (R154). -/
def execSub (src dst : Operand) (s : State) : Res State :=
  readModifyWrite (fun a d _ => .next (subOut a d false)) src dst s

/-- SUBC src, dst: "dst := dst - src - C" (R155); C as it is at step 4. -/
def execSubc (src dst : Operand) (s : State) : Res State :=
  readModifyWrite (fun a d s => .next (subOut a d (readFlag s bitC))) src dst s

end Sys2Proof.Machine
end

