-- ==== Sys2Proof/Machine/ShiftSwap.lean ====
section
/-! DEFINITION. SHL, SHR, SWAP (spec 42_shift_swap). -/

namespace Sys2Proof.Machine

/-- The function of SHL (R171): the source is the count, the fill bit is X at step 4. -/
def shlFunction (count dst : Word) (s : State) : Res AluOut :=
  match shiftPlaces Config.shiftCount count with
  | none => .refused (.shiftCountAbove15 count)
  | some n => .next (shlOut n dst (readFlag s bitX) (readFlag s bitC))

/-- The function of SHR (R172): the source is the count, the fill bit is C at step 4. -/
def shrFunction (count dst : Word) (s : State) : Res AluOut :=
  match shiftPlaces Config.shiftCount count with
  | none => .refused (.shiftCountAbove15 count)
  | some n => .next (shrOut n dst (readFlag s bitC) (readFlag s bitX))

/-- SHL src, dst: "dst << src, fill with X, shift to C" (R171). -/
def execShl (src dst : Operand) (s : State) : Res State :=
  readModifyWrite shlFunction src dst s

/-- SHR src, dst: "dst >> src, fill with C, shift to X" (R172). -/
def execShr (src dst : Operand) (s : State) : Res State :=
  readModifyWrite shrFunction src dst s

/-- SWAP src, dst: the source with its two bytes exchanged (R173); the old destination is not read. -/
def execSwap (src dst : Operand) (s : State) : Res State :=
  writeOnly (fun a => logicOut (swapBytes a)) src dst s

end Sys2Proof.Machine
end

