-- ==== Sys2Proof/Machine/Dispatch.lean ====
section
/-! DEFINITION. The dispatch: one arm per constructor of `Instr`. -/

namespace Sys2Proof.Machine

/-- What an instruction does, once it is fetched and the pc has advanced (40_operands R130). -/
def exec (i : Instr) (s : State) : Host.Outcome State Fault Refusal :=
  match i with
  | .move src dst => Sys2Proof.Machine.execMove src dst s
  | .add src dst => Sys2Proof.Machine.execAdd src dst s
  | .addc src dst => Sys2Proof.Machine.execAddc src dst s
  | .sub src dst => Sys2Proof.Machine.execSub src dst s
  | .subc src dst => Sys2Proof.Machine.execSubc src dst s
  | .shl src dst => Sys2Proof.Machine.execShl src dst s
  | .shr src dst => Sys2Proof.Machine.execShr src dst s
  | .swap src dst => Sys2Proof.Machine.execSwap src dst s
  | .not src dst => Sys2Proof.Machine.execNot src dst s
  | .and src dst => Sys2Proof.Machine.execAnd src dst s
  | .or src dst => Sys2Proof.Machine.execOr src dst s
  | .xor src dst => Sys2Proof.Machine.execXor src dst s
  | .cmp src dst => Sys2Proof.Machine.execCmp src dst s
  | .reservedD payload => Sys2Proof.Machine.execReservedD payload s
  | .halt _ => Sys2Proof.Machine.execHalt s
  | .rti _ => Sys2Proof.Machine.execRti s
  | .int isr => Sys2Proof.Machine.execInt isr s
  | .incrb _ => Sys2Proof.Machine.execIncrb s
  | .decrb _ => Sys2Proof.Machine.execDecrb s
  | .abra target cond => Sys2Proof.Machine.execAbra target cond s
  | .asub target cond => Sys2Proof.Machine.execAsub target cond s
  | .rbra offset cond => Sys2Proof.Machine.execRbra offset cond s
  | .rsub offset cond => Sys2Proof.Machine.execRsub offset cond s

end Sys2Proof.Machine
end

