-- ==== Sys2Proof/Machine/Fetch.lean ====
section
/-! DEFINITION. What stands around an instruction: the instruction boundary with its interrupt request,
the fetch, the stop of a word that is no instruction, and the word placed for the next fetch (spec 40_operands R130,
60_exceptions R255..R257). -/

namespace Sys2Proof.Machine

/-- What happens at an instruction boundary. -/
inductive Boundary where
  /-- The CPU is halted and has no step (44_control R210). -/
  | stuck
  /-- An interrupt is entered; no instruction executes (60_exceptions R256). -/
  | enter (s : State)
  /-- The next instruction is fetched. -/
  | run (s : State)
  deriving DecidableEq, Repr

/-- The instruction boundary (60_exceptions R255, R257): IntSource gives nothing or a request; a request
is taken at once when IN_ISR = 0 and HALTED = 0, and otherwise not granted (R254; log 15). A halted
machine asks for nothing. -/
def boundary (s : State) : Boundary :=
  if s.halted then .stuck
  else
    match s.intSource with
    | [] => .run s
    | none :: rest => .run { s with intSource := rest }
    | some isr :: rest =>
      if s.inIsr then .run { s with intSource := rest }
      else .enter (takeInterrupt isr { s with intSource := rest })

/-- The fetch (40_operands R130): the word at the pc, then the pc plus 1. -/
def fetch (s : State) : Res (Word × State) :=
  andThen (memRead s.pc s) fun r => .next (r.1, { r.2 with pc := r.2.pc + 1 })

/-- Goes on with the instruction a word decodes to, or stops by the name of what it is instead
(30_encoding R104, R105). -/
def runDecoded (run : Instr → Res State) (d : Decoded) : Res State :=
  match d with
  | .instr i => run i
  | .undefinedCommand ir => .fault (.undefinedCommand ir)
  | .controlLowBits ir => .fault (.controlLowBits ir)

/-- The coming boundary offers no interrupt request. -/
def withoutRequest : List (Option Word) → List (Option Word)
  | some _ :: rest => none :: rest
  | none :: rest => none :: rest
  | [] => []

/-- `w` stored where the next step fetches, the machine running and no request at the coming boundary. A
pc in the I/O page, which is no memory, is moved to 0x0000 (log 4). -/
def placeForFetch (w : Word) (s : State) : State :=
  let a := if inIoPage s.pc then 0x0000#16 else s.pc
  { s with pc := a, mem := writeWord a w s.mem, halted := false, intSource := withoutRequest s.intSource }

end Sys2Proof.Machine
end

