-- ==== Sys2Proof/Machine/Step.lean ====
section
/-! DEFINITION. One step of the machine (spec 40_operands R130, 60_exceptions R257). -/

namespace Sys2Proof.Machine

/-- One step: a halted machine stays as it is (93 U13; log 20), an interrupt entry executes no instruction,
and otherwise one instruction is fetched, decoded and executed. -/
def step (s : State) : Host.Outcome State Fault Refusal :=
  match boundary s with
  | .stuck => .next s
  | .enter t => .next t
  | .run t => andThen (fetch t) fun r => runDecoded (fun i => exec i r.2) (decode r.1)

/-- The word of an instruction stored where step fetches its next instruction, for the host (log 4). -/
def State.withFetchWord (s : State) (nbits w : Nat) : State :=
  placeForFetch (BitVec.ofNat 16 (w % 2 ^ nbits)) s

end Sys2Proof.Machine
end

