-- ==== Sys2Proof/Machine/HostActions.lean ====
section
/-! DEFINITION. What the host does around a run (spec 70_reset R300, R301): load an image, reset, run until
HALTED, read the registers, memory and the statistics (the disassembler's rendering stands in Disassembler.lean).
No instruction and no step uses any of it. -/

namespace Sys2Proof.Machine

/-! ### Loading -/

/-- The host's load of one word (R300). The I/O page is no memory (20_memory R68): a load there stores nothing
(DESIGN CHOICE, log 4). -/
def storeHostWord (a v : Word) (s : State) : State :=
  if inIoPage a then s else { s with mem := writeWord a v s.mem }

/-- The load of an image given as a list of (address, word) pairs, in order (R300). -/
def State.loadPairs : List (Word × Word) → State → State
  | [], s => s
  | (a, v) :: rest, s => State.loadPairs rest (storeHostWord a v s)

/-- The pairs of an image of words at consecutive addresses from its origin (R300). An image that runs past 0xFFFF
goes on at 0x0000: DESIGN CHOICE, the spec does not say what the load does there (log 4). -/
def imagePairs (origin : Word) : List Word → List (Word × Word)
  | [] => []
  | v :: rest => (origin, v) :: imagePairs (origin + 1) rest

/-- The load of words at consecutive addresses from an origin (R300). -/
def State.loadImage (origin : Word) (words : List Word) (s : State) : State :=
  State.loadPairs (imagePairs origin words) s

/-- A word from its two bytes in the order of a byte image (20_memory R66). -/
def imageWord (p : ImageByteOrder) (first second : Byte) : Word :=
  match p with
  | .lowFirst => second ++ first
  | .highFirst => first ++ second

/-- The words of a byte image; a last byte without a partner is no word (DESIGN CHOICE, log 5). -/
def imageWords (p : ImageByteOrder) : List Byte → List Word
  | first :: second :: rest => imageWord p first second :: imageWords p rest
  | [_] => []
  | [] => []

/-- The load of a byte image (20_memory R66, R300). -/
def State.loadBytes (origin : Word) (image : List Byte) (s : State) : State :=
  State.loadImage origin (imageWords Config.imageByteOrder image) s

/-! ### Reset and the device -/

/-- The host's reset of a machine (R290, R300): every register, latch and mark at its value of 10_state R45. What
the CPU does not hold stays: memory, so that an image loaded before the reset is there after it (00_scope R9,
10_state R45); and, of which the spec says nothing, the device and the interrupt input (DESIGN CHOICE, log 26). -/
def State.hostReset (s : State) : State :=
  { State.reset with mem := s.mem, intSource := s.intSource, device := s.device }

/-- Gives the I/O page a device to which no access has been made (20_memory R68; log 13). -/
def State.attachDevice (s : State) : State := { s with device := some [] }

/-! ### Statistics -/

/-- The operands an instruction evaluates to read them, those it writes, by mode, and whether it pushes: from them
come its data accesses (40_operands R141). -/
structure Accesses where
  reads : List Mode
  writes : List Mode
  push : Bool
  deriving DecidableEq, Repr

/-- A jump evaluates its operand before its condition, or, under skip_constant_only, only if it is taken
(45_branch R227, R233); a call that is taken pushes (R230). -/
def jumpAccesses (p : UntakenBranchOperand) (call : Bool) (o : Operand) (c : Cond) (s : State) : Accesses :=
  match p with
  | .evaluate =>
    match readOperand o s with
    | .next r => ⟨[o.mode], [], call && taken c r.2⟩
    | .fault _ => ⟨[o.mode], [], false⟩
    | .refused _ => ⟨[o.mode], [], false⟩
  | .skipConstantOnly => if taken c s then ⟨[o.mode], [], call⟩ else ⟨[], [], false⟩

/-- The operand accesses of an instruction executed in `s` (40_operands R140, R141). -/
def accesses (i : Instr) (s : State) : Accesses :=
  match i with
  | .move src dst => ⟨[src.mode], [dst.mode], false⟩
  | .swap src dst => ⟨[src.mode], [dst.mode], false⟩
  | .not src dst => ⟨[src.mode], [dst.mode], false⟩
  | .add src dst => ⟨[src.mode, dst.mode], [dst.mode], false⟩
  | .addc src dst => ⟨[src.mode, dst.mode], [dst.mode], false⟩
  | .sub src dst => ⟨[src.mode, dst.mode], [dst.mode], false⟩
  | .subc src dst => ⟨[src.mode, dst.mode], [dst.mode], false⟩
  | .shl src dst => ⟨[src.mode, dst.mode], [dst.mode], false⟩
  | .shr src dst => ⟨[src.mode, dst.mode], [dst.mode], false⟩
  | .and src dst => ⟨[src.mode, dst.mode], [dst.mode], false⟩
  | .or src dst => ⟨[src.mode, dst.mode], [dst.mode], false⟩
  | .xor src dst => ⟨[src.mode, dst.mode], [dst.mode], false⟩
  | .cmp src dst => ⟨[src.mode, dst.mode], [], false⟩
  | .reservedD _ => ⟨[], [], false⟩
  | .halt _ => ⟨[], [], false⟩
  | .rti _ => ⟨[], [], false⟩
  | .int o => ⟨[o.mode], [], false⟩
  | .incrb _ => ⟨[], [], false⟩
  | .decrb _ => ⟨[], [], false⟩
  | .abra o c => jumpAccesses Config.untakenBranchOperand false o c s
  | .asub o c => jumpAccesses Config.untakenBranchOperand true o c s
  | .rbra o c => jumpAccesses Config.untakenBranchOperand false o c s
  | .rsub o c => jumpAccesses Config.untakenBranchOperand true o c s

/-- How many of these operands are in memory: every mode but `Rxx` (40_operands R131). -/
def inMemory (modes : List Mode) : Nat := (modes.filter (· ≠ .reg)).length

/-- The `MemRead`s of an instruction: its fetch and its operands (40_operands R141). -/
def Accesses.memReads (a : Accesses) : Nat := 1 + inMemory a.reads

/-- The `MemWrite`s of an instruction: its destination and its push (40_operands R141). -/
def Accesses.memWrites (a : Accesses) : Nat := inMemory a.writes + a.push.toNat

/-- The statistics, kept outside the machine (R300, R311, 60_exceptions R265): the totals of 95 V-S1, the count of
each instruction of V-S2 (opcodes 0..14, then the four jumps; 90_conflicts C4), and the operand accesses by mode of
V-S3. -/
structure Statistics where
  instructions : Nat
  memReads : Nat
  memWrites : Nat
  perInstruction : Vector Nat 19
  readsByMode : Vector Nat 4
  writesByMode : Vector Nat 4
  deriving DecidableEq, Repr

/-- Nothing has been counted. -/
def Statistics.zero : Statistics :=
  ⟨0, 0, 0, Vector.replicate 19 0, Vector.replicate 4 0, Vector.replicate 4 0⟩

/-- The place of an instruction word in the counts of 95 V-S2. -/
def statisticsSlot (w : Word) : Fin 19 :=
  let op := w.extractLsb' 12 4
  let bmode := w.extractLsb' 4 2
  if op.toNat = 15 then ⟨15 + bmode.toNat, by have := bmode.isLt; omega⟩
  else ⟨op.toNat, by have := op.isLt; omega⟩

/-- One count more at a place. -/
def countAt {n : Nat} (k : Fin n) (v : Vector Nat n) : Vector Nat n := v.set k.val (v[k.val] + 1)

/-- Each operand counted under its mode. -/
def countModes (modes : List Mode) (v : Vector Nat 4) : Vector Nat 4 :=
  modes.foldl (fun v m => countAt (modeBits m).toFin v) v

/-- The statistics after an executed instruction with word `w`. -/
def Statistics.record (w : Word) (a : Accesses) (c : Statistics) : Statistics where
  instructions := c.instructions + 1
  memReads := c.memReads + a.memReads
  memWrites := c.memWrites + a.memWrites
  perInstruction := countAt (statisticsSlot w) c.perInstruction
  readsByMode := countModes a.reads c.readsByMode
  writesByMode := countModes a.writes c.writesByMode

/-- The word and the accesses of the instruction a step executes; none for an interrupt entry, which makes no
access (60_exceptions R258), and none where nothing executes. -/
def stepAccesses (s : State) : Option (Word × Accesses) :=
  match boundary s with
  | .stuck => none
  | .enter _ => none
  | .run t =>
    match fetch t with
    | .next (w, u) =>
      match decode w with
      | .instr i => some (w, accesses i u)
      | .undefinedCommand _ => none
      | .controlLowBits _ => none
    | .fault _ => none
    | .refused _ => none

/-- The statistics after a step from `s`. -/
def Statistics.afterStep (s : State) (c : Statistics) : Statistics :=
  match stepAccesses s with
  | some (w, a) => c.record w a
  | none => c

/-! ### Running -/

/-- How a run of at most so many steps ends. -/
inductive RunResult where
  /-- HALTED = 1: the end of a run (R301). -/
  | halted (c : Statistics) (s : State)
  /-- The steps are used up and the machine is not halted. -/
  | running (c : Statistics) (s : State)
  /-- A step stopped with a fault. -/
  | fault (c : Statistics) (e : Fault)
  /-- A step was refused. -/
  | refused (c : Statistics) (e : Refusal)
  deriving DecidableEq, Repr

/-- The host's run: the CPU steps from the current state until HALTED = 1 (R300, R301), at most `bound` steps. A
program that never halts does not end (R301): its run is `running` for every bound (log 26). -/
def State.run (bound : Nat) (c : Statistics) (s : State) : RunResult :=
  if s.halted then .halted c s
  else
    match bound with
    | 0 => .running c s
    | k + 1 =>
      match step s with
      | .next t => State.run k (c.afterStep s) t
      | .fault e => .fault c e
      | .refused e => .refused c e

/-! ### Reading -/

/-- What the host reads of the registers: R0..R15 of the current page, rbank and the flags (R300). -/
structure RegisterDump where
  registers : Vector Word 16
  rbank : BitVec 8
  v : Bool
  n : Bool
  z : Bool
  c : Bool
  x : Bool
  deriving DecidableEq, Repr

/-- The host reads the registers (R300). -/
def State.readRegisters (s : State) : RegisterDump where
  registers := #v[readReg s (.lo 0), readReg s (.lo 1), readReg s (.lo 2), readReg s (.lo 3), readReg s (.lo 4),
    readReg s (.lo 5), readReg s (.lo 6), readReg s (.lo 7), readReg s (.hi 0), readReg s (.hi 1), readReg s (.hi 2),
    readReg s (.hi 3), readReg s (.hi 4), readReg s (.hi 5), readReg s .sr, readReg s .pc]
  rbank := currentPage s
  v := readFlag s bitV
  n := readFlag s bitN
  z := readFlag s bitZ
  c := readFlag s bitC
  x := readFlag s bitX

/-- The host reads a word of memory (R300). The I/O page is no memory (20_memory R68): there is nothing to read
there (DESIGN CHOICE, log 26). -/
def State.readMemory (a : Word) (s : State) : Option Word :=
  if inIoPage a then none else some (readWord s.mem a)

end Sys2Proof.Machine
end

