-- ==== Sys2Proof/Safety.lean ====
section
/-! DEFINITION. The terms claims are stated in: the invariant of the state, which accesses and operands
the machine can make, what an instruction writes, and what a state shows afterwards. -/

namespace Sys2Proof.Machine

/-- The invariant: memory and the register bank in canonical form, and the hard-wired bits of R14, and
while an interrupt is serviced of its latch, as the spec says they read (10_state R32, R34, R40). -/
def State.wf (s : State) : Bool :=
  Memory.wf s.mem && Bank.wf s.bank && srFixed Config.srUnusedBits s.sr == s.sr &&
    (!s.inIsr || srFixed Config.srUnusedBits s.srSave == s.srSave)

/-- An access to `a` has a step: `a` is memory, or a device owns the I/O page (20_memory R63, R68). -/
def accessible (s : State) (a : Word) : Bool := !inIoPage a || s.device.isSome

/-- The access of an operand has a step. -/
def readable (o : Operand) (s : State) : Bool :=
  match locate o s with
  | .reg _ => true
  | .mem a => accessible s a

/-- Both operands of a two-operand instruction have a step, the second after the first. -/
def operandsReady (src dst : Operand) (s : State) : Bool :=
  match readOperand src s with
  | .next r => readable dst r.2
  | .fault _ => false
  | .refused _ => false

/-- The operands of a two-operand instruction. -/
def twoOperands : Instr → Option (Operand × Operand)
  | .move src dst => some (src, dst)
  | .add src dst => some (src, dst)
  | .addc src dst => some (src, dst)
  | .sub src dst => some (src, dst)
  | .subc src dst => some (src, dst)
  | .shl src dst => some (src, dst)
  | .shr src dst => some (src, dst)
  | .swap src dst => some (src, dst)
  | .not src dst => some (src, dst)
  | .and src dst => some (src, dst)
  | .or src dst => some (src, dst)
  | .xor src dst => some (src, dst)
  | .cmp src dst => some (src, dst)
  | _ => none

/-- The operand and the condition of a jump, branch or call. -/
def jumpOperand : Instr → Option (Operand × Cond)
  | .abra o c => some (o, c)
  | .asub o c => some (o, c)
  | .rbra o c => some (o, c)
  | .rsub o c => some (o, c)
  | _ => none

/-- Which two-operand instructions write their destination (40_operands R140): all but CMP. -/
def writesDestination : Instr → Bool
  | .cmp _ _ => false
  | i => (twoOperands i).isSome

/-- The flags, by bit number, that the table of 10_state R35 marks W for an instruction. -/
def flagsWritten : Instr → List Nat
  | .move _ _ => [bitN, bitZ, bitX]
  | .add _ _ => [bitV, bitN, bitZ, bitC, bitX]
  | .addc _ _ => [bitV, bitN, bitZ, bitC, bitX]
  | .sub _ _ => [bitV, bitN, bitZ, bitC, bitX]
  | .subc _ _ => [bitV, bitN, bitZ, bitC, bitX]
  | .shl _ _ => [bitN, bitZ, bitC]
  | .shr _ _ => [bitN, bitZ, bitX]
  | .swap _ _ => [bitN, bitZ, bitX]
  | .not _ _ => [bitN, bitZ, bitX]
  | .and _ _ => [bitN, bitZ, bitX]
  | .or _ _ => [bitN, bitZ, bitX]
  | .xor _ _ => [bitN, bitZ, bitX]
  | .cmp _ _ => [bitV, bitN, bitZ]
  | _ => []

/-- The addressing mode itself updates register `r` (40_operands R131). -/
def modeUpdates (o : Operand) (r : Reg) : Bool :=
  o.reg == r && (o.mode == .indInc || o.mode == .decInd)

/-- A two-operand instruction `i` with these operands writes register `r`: as its destination, or by the
mode of an operand. -/
def mayWriteReg (i : Instr) (src dst : Operand) (r : Reg) : Bool :=
  modeUpdates src r || modeUpdates dst r || (writesDestination i && dst.reg == r && dst.mode == .reg)

/-- What a destination holds when `res` has been written to it: a register reads it (R14 with its
hard-wired bits, 10_state R33), a memory word reads it, a device has taken it. -/
def destHolds (l : Loc) (res : Word) (t : State) : Prop :=
  match l with
  | .reg .sr => readReg t .sr = srFixed Config.srUnusedBits res
  | .reg (.lo i) => readReg t (.lo i) = res
  | .reg (.hi i) => readReg t (.hi i) = res
  | .reg .pc => readReg t .pc = res
  | .mem a =>
    (inIoPage a = false → readWord t.mem a = res) ∧
      (inIoPage a = true → ∃ h, t.device = some (.write a res :: h))

/-- Everything no two-operand instruction and no jump writes (10_state R40..R43): the latches, the marks
and the interrupt input. -/
def sameHidden (s t : State) : Prop :=
  t.srSave = s.srSave ∧ t.pcSave = s.pcSave ∧ t.inIsr = s.inIsr ∧ t.halted = s.halted ∧
    t.intSource = s.intSource

/-- From `s` to `t` nothing changed but register `r`: a register of the window in the page `s` shows
(10_state R24, R25). -/
def onlyRegChanged (r : Reg) (s t : State) : Prop :=
  (∀ k, r ≠ .hi k → readReg t (.hi k) = readReg s (.hi k)) ∧
    (∀ page k, r ≠ .lo k ∨ page ≠ currentPage s → readBank t page k = readBank s page k) ∧
    (r ≠ .pc → t.pc = s.pc) ∧ (r ≠ .sr → t.sr = s.sr) ∧ t.mem = s.mem ∧ t.device = s.device ∧ sameHidden s t

/-- From `s` to `t` nothing changed but the destination, to which `v` was written, and the five flags
(40_operands R133, R134, 10_state R35). -/
def onlyDestinationChanged (l : Loc) (v : Word) (s t : State) : Prop :=
  (match l with
    | .reg r => onlyRegChanged r s { t with sr := s.sr }
    | .mem a =>
      (inIoPage a = false → { t with sr := s.sr, mem := s.mem } = s ∧
        ∀ cell, cell ≠ 2 * a.toNat → cell ≠ 2 * a.toNat + 1 → readByte t.mem cell = readByte s.mem cell) ∧
      (inIoPage a = true → ∃ h, s.device = some h ∧
        { t with sr := s.sr } = { s with device := some (.write a v :: h) })) ∧
  (l ≠ .reg .sr → ∀ k, k ∉ [bitV, bitN, bitZ, bitC, bitX] →
    (readReg t .sr).getLsbD k = (readReg s .sr).getLsbD k)

/-- An access of the device's history is a read. -/
def isRead : IoEvent → Bool
  | .read _ => true
  | .write _ _ => false

/-- The five flags of a state. -/
def flagsAre (t : State) (v n z c x : Bool) : Prop :=
  readFlag t bitV = v ∧ readFlag t bitN = n ∧ readFlag t bitZ = z ∧ readFlag t bitC = c ∧ readFlag t bitX = x

/-- A signed number does not fit in 16 bits (41_move_arith R152..R155). -/
def signedOverflow (n : Int) : Bool := decide (n < -32768 ∨ 32767 < n)

/-- The same outcome but for the two latches: what a program cannot tell apart (10_state R40). -/
def sameButLatches (x y : Res State) : Prop :=
  match x, y with
  | .next t, .next u => { t with srSave := 0#16, pcSave := 0#16 } = { u with srSave := 0#16, pcSave := 0#16 }
  | .fault e, .fault f => e = f
  | .refused e, .refused f => e = f
  | _, _ => False

/-- An instruction that writes `res` of its source without reading its old destination completes in every
form whose operands can be accessed; `u` is the state before the destination's post-increment. N, Z and X
are the result's, V and C stay (10_state R35, R36), but for a destination R14, which holds the result
(40_operands R136; log 8). All else is as the located destination left it. -/
def CompletesWriting (i : Operand → Operand → Instr) (res : Word → Word) : Prop :=
  ∀ src dst s a s1, readOperand src s = .next (a, s1) → readable dst s1 = true →
    ∃ u, exec (i src dst) s = .next (dstFinish dst u) ∧
      destHolds (locate dst s1) (res a) u ∧
      onlyDestinationChanged (locate dst s1) (res a) (locateState dst s1) u ∧
      (locate dst s1 ≠ .reg .sr →
        flagsAre u (readFlag (locateState dst s1) bitV) ((res a).getLsbD 15) (decide (res a = 0x0000#16))
          (readFlag (locateState dst s1) bitC) (decide (res a = 0xFFFF#16)))

/-- An instruction that writes `res` of its source, its old destination and the state at step 4 of
40_operands R134 completes in every form whose operands can be accessed. N and Z are the result's; V, C
and X are given. A destination R14 holds the result and no flag (40_operands R136; log 8). All else is as the
read of the old destination left it. -/
def CompletesModifying (i : Operand → Operand → Instr) (res : Word → Word → State → Word)
    (v c x : Word → Word → State → Bool) : Prop :=
  ∀ src dst s a s1 d s3, readOperand src s = .next (a, s1) →
    dstRead (locate dst s1) (locateState dst s1) = .next (d, s3) →
    ∃ u, exec (i src dst) s = .next (dstFinish dst u) ∧
      destHolds (locate dst s1) (res a d s3) u ∧
      onlyDestinationChanged (locate dst s1) (res a d s3) s3 u ∧
      (locate dst s1 ≠ .reg .sr →
        flagsAre u (v a d s3) ((res a d s3).getLsbD 15) (decide (res a d s3 = 0x0000#16)) (c a d s3) (x a d s3))

/-- The condition of a jump holds (45_branch R227). -/
def conditionHolds (c : Cond) (s : State) : Prop := ((readReg s .sr).getLsbD c.select.val ^^ c.negate) = true

/-- The state after a taken call from `s` (the state after its operand) to `target` (45_branch R229, R230,
R232): R15 at the target, R13 decremented, the old R15 stored at the new R13, and nothing else changed. -/
def calledFrom (s : State) (target : Word) (t : State) : Prop :=
  t.pc = target ∧ readReg t .sp = readReg s .sp - 1 ∧
    (∀ k : Fin 6, k ≠ 5 → readReg t (.hi k) = readReg s (.hi k)) ∧ t.bank = s.bank ∧ t.sr = s.sr ∧
    sameHidden s t ∧
    (inIoPage (readReg s .sp - 1) = false →
      readWord t.mem (readReg s .sp - 1) = s.pc ∧ t.device = s.device ∧
        ∀ cell, cell ≠ 2 * (readReg s .sp - 1).toNat → cell ≠ 2 * (readReg s .sp - 1).toNat + 1 →
          readByte t.mem cell = readByte s.mem cell) ∧
    (inIoPage (readReg s .sp - 1) = true →
      t.mem = s.mem ∧ ∃ h, s.device = some h ∧ t.device = some (.write (readReg s .sp - 1) s.pc :: h))

end Sys2Proof.Machine
end

