-- ==== Sys2Proof/Certificates/Slice0/Obligations.lean ====
section
/-! DEFINITION. The statements for the provers. Each docstring names the rule of spec/ it formalises; a
statement that rests on a decision of the spec (92_eei_decisions) or a choice of the model says so. -/

open Sys2Proof Sys2Proof.Machine

/-! ### Encoding -/

/-- Decoding the encoding of a well-formed instruction gives it back, every operand at every value
(30_encoding R91, R92, R93, R97, R98, R99). -/
def Obligations.DecodeEncodeAgree : Prop :=
  ∀ i : Instr, i.wellFormed = true → decode (encode i) = .instr i

/-- Encoding what a word decodes to gives the word back, and only well-formed instructions are decoded
(30_encoding R95, R105 as D21 decides it). -/
def Obligations.EncodeDecodeAgree : Prop :=
  ∀ (w : Word) (i : Instr), decode w = .instr i → encode i = w ∧ i.wellFormed = true

/-- R96: the source's three encoded examples, the third with its constant word 0x1234 read through `@R15++`;
and the six instruction words of its sum program (95 V-S6). -/
def Obligations.SourceExamplesDecode : Prop :=
  decode 0x0DFC#16 = .instr (.move ⟨.hi 5, .decInd⟩ ⟨.pc, .reg⟩) ∧
  decode 0x1005#16 = .instr (.add ⟨.lo 0, .reg⟩ ⟨.lo 1, .ind⟩) ∧
  decode 0xFF90#16 = .instr (.asub ⟨.pc, .indInc⟩ ⟨false, 0⟩) ∧
  decode 0xB000#16 = .instr (.xor ⟨.lo 0, .reg⟩ ⟨.lo 0, .reg⟩) ∧
  decode 0x0F84#16 = .instr (.move ⟨.pc, .indInc⟩ ⟨.lo 1, .reg⟩) ∧
  decode 0x1100#16 = .instr (.add ⟨.lo 1, .reg⟩ ⟨.lo 0, .reg⟩) ∧
  decode 0x3F84#16 = .instr (.sub ⟨.pc, .indInc⟩ ⟨.lo 1, .reg⟩) ∧
  decode 0xFF8B#16 = .instr (.abra ⟨.pc, .indInc⟩ ⟨true, 3⟩) ∧
  decode 0xE000#16 = .instr (.halt 0) ∧
  ∀ s : State, inIoPage s.pc = false → readWord s.mem s.pc = 0x1234#16 →
    ∃ t, readOperand ⟨.pc, .indInc⟩ s = .next (0x1234#16, t)

/-- The operand field `rxx ++ mode`: R0..R7, R8..R13, R14, R15 by number, the four modes by their bits, and
all 64 values different operands (30_encoding R91, R101). -/
def Obligations.OperandFieldLayout : Prop :=
  (∀ (n : BitVec 4) (m : BitVec 2), operandOfBits (n ++ m) = ⟨regOfNum n, modeOfBits m⟩) ∧
  (∀ k : Fin 8, regOfNum (BitVec.ofNat 4 k.val) = .lo k) ∧
  (∀ k : Fin 6, regOfNum (BitVec.ofNat 4 (8 + k.val)) = .hi k) ∧
  regOfNum 14#4 = .sr ∧ regOfNum 15#4 = .pc ∧
  modeOfBits 0b00#2 = .reg ∧ modeOfBits 0b01#2 = .ind ∧ modeOfBits 0b10#2 = .indInc ∧
  modeOfBits 0b11#2 = .decInd ∧
  (∀ b c : BitVec 6, operandOfBits b = operandOfBits c → b = c)

/-- R99: bits 5..4 of an opcode-F word choose among ABRA, ASUB, RBRA and RSUB; `ssss mm` is the operand,
`n` negates, `ccc` selects. -/
def Obligations.JumpGroupDecodes : Prop :=
  ∀ (ssss : BitVec 4) (mm : BitVec 2) (n : Bool) (ccc : Fin 8),
    let word := fun bmode : BitVec 2 =>
      0xF#4 ++ ssss ++ mm ++ bmode ++ BitVec.ofBool n ++ BitVec.ofNat 3 ccc.val
    let operand : Operand := ⟨regOfNum ssss, modeOfBits mm⟩
    decode (word 0b00#2) = .instr (.abra operand ⟨n, ccc⟩) ∧
    decode (word 0b01#2) = .instr (.asub operand ⟨n, ccc⟩) ∧
    decode (word 0b10#2) = .instr (.rbra operand ⟨n, ccc⟩) ∧
    decode (word 0b11#2) = .instr (.rsub operand ⟨n, ccc⟩)

/-- Every word decodes to an instruction or the reserved opcode, but for the undefined control commands
0xE140..0xEFFF, which are rejected with their word (30_encoding R95, R104; D20). -/
def Obligations.OnlyUndefinedCommandsAreRejected : Prop :=
  ∀ w : Word,
    (0xE140 ≤ w.toNat ∧ w.toNat ≤ 0xEFFF → decode w = .undefinedCommand w) ∧
    (¬ (0xE140 ≤ w.toNat ∧ w.toNat ≤ 0xEFFF) → ∃ i, decode w = .instr i)

/-- The words 0xD000..0xDFFF, and only they, are the reserved opcode, which stops the model with the word and
evaluates no operand (43_logic_cmp R191; D19). -/
def Obligations.ReservedOpcodeFaults : Prop :=
  (∀ w : Word, (0xD000 ≤ w.toNat ∧ w.toNat ≤ 0xDFFF) ↔ ∃ p, decode w = .instr (.reservedD p)) ∧
  (∀ (p : BitVec 12) (s : State), exec (.reservedD p) s = .fault (.reservedOpcode (0xD#4 ++ p)))

/-! ### Registers and the status register -/

/-- A register reads what was written to it and no other register changes; a write of R14 moves the window
at once (10_state R23, R24, R25; D14). -/
def Obligations.RegisterWriteThenRead : Prop :=
  ∀ (s : State) (v : Word),
    (∀ r, r ≠ .sr → readReg (writeReg r v s) r = v ∧
      ∀ q, q ≠ r → readReg (writeReg r v s) q = readReg s q) ∧
    (∀ k, readReg (writeReg .sr v s) (.lo k) = readBank s (v.extractLsb' 8 8) k) ∧
    (∀ k, readReg (writeReg .sr v s) (.hi k) = readReg s (.hi k)) ∧
    readReg (writeReg .sr v s) .pc = readReg s .pc

/-- R21: page p register i is distinct storage from page q register i: a value written through the window
is read back through it only while the same page shows. -/
def Obligations.BankPagesAreDistinct : Prop :=
  ∀ (s u : State) (i : Fin 8) (v : Word), u.bank = (writeReg (.lo i) v s).bank →
    readReg u (.lo i) = (if currentPage u = currentPage s then v else readBank s (currentPage u) i) ∧
    ∀ j, j ≠ i → readReg u (.lo j) = readBank s (currentPage u) j

/-- An explicit write of R14: bits 15..8 and 5..1 take the written bits, bit 0 is 1, and bits 7..6 are 0
(10_state R33, R34; D5, D6; log 6). -/
def Obligations.StatusRegisterWrite : Prop :=
  ∀ (s : State) (v : Word) (k : Fin 16),
    (readReg (writeReg .sr v s) .sr).getLsbD k.val =
      if k.val = 0 then true else if k.val = 6 ∨ k.val = 7 then false else v.getLsbD k.val

/-- R32: R14 reads with bit 0 set whatever was written; a condition that selects bit 0 is always true, and
negated always false. -/
def Obligations.AlwaysOneBit : Prop :=
  ∀ (s : State) (v : Word),
    (readReg s .sr).getLsbD 0 = true ∧ (readReg (writeReg .sr v s) .sr).getLsbD 0 = true ∧
    taken ⟨false, 0⟩ s = true ∧ taken ⟨true, 0⟩ s = false

/-! ### Memory and devices -/

/-- A store below the I/O page is read back, changes no other word and no byte outside its own two, and
nothing else (20_memory R63, R64, R72; D1, D3). -/
def Obligations.StoreThenLoad : Prop :=
  ∀ (a v : Word) (s : State), inIoPage a = false →
    ∃ t, memWrite a v s = .next t ∧ memRead a t = .next (v, t) ∧ { t with mem := s.mem } = s ∧
      (∀ b, b ≠ a → readWord t.mem b = readWord s.mem b) ∧
      (∀ cell, cell ≠ 2 * a.toNat → cell ≠ 2 * a.toNat + 1 → readByte t.mem cell = readByte s.mem cell)

/-- The I/O page: without a device an access has no step; with one, each access is one event of its history
and memory is not touched (20_memory R68; D4; log 13, log 14). -/
def Obligations.IoPageBelongsToTheDevice : Prop :=
  ∀ (a v : Word) (s : State), 0xFF00 ≤ a.toNat →
    (s.device = none → memRead a s = .refused (.noIODevice a) ∧ memWrite a v s = .refused (.noIODevice a)) ∧
    (∀ h, s.device = some h →
      (∃ w, memRead a s = .next (w, { s with device := some (.read a :: h) })) ∧
      memWrite a v s = .next { s with device := some (.write a v :: h) })

/-- A store is seen by the next fetch from its address: self-modifying code needs no fence
(20_memory R75; D3). -/
def Obligations.FetchSeesStore : Prop :=
  ∀ (a v : Word) (s t : State), inIoPage a = false → memWrite a v s = .next t →
    fetch { t with pc := a } = .next (v, { t with pc := a + 1 })

/-- An instruction makes at most three data accesses, each a new event of the device's history if it is in
the I/O page; it never attaches or removes a device (20_memory R72, 40_operands R141; D3; log 14). -/
def Obligations.DeviceHistoryGrows : Prop :=
  ∀ (i : Instr) (s t : State), exec i s = .next t →
    (s.device = none → t.device = none) ∧
    (∀ h, s.device = some h → ∃ events, t.device = some (events ++ h) ∧ events.length ≤ 3)

/-! ### Operands -/

/-- What evaluating an operand that is only read gives and leaves, mode by mode: its value, its register's
update (R14 with its hard-wired bits), and nothing else. A register or a word below the I/O page leaves the device
alone; an operand in the I/O page is exactly one read of its address (40_operands R131, R132, 20_memory R68; D30;
log 14). -/
def Obligations.OperandReadByMode : Prop :=
  ∀ (o : Operand) (s t : State) (v : Word), readOperand o s = .next (v, t) →
    (∀ k, modeUpdates o (.hi k) = false → readReg t (.hi k) = readReg s (.hi k)) ∧
    (∀ page k, modeUpdates o (.lo k) = false ∨ page ≠ currentPage s →
      readBank t page k = readBank s page k) ∧
    (modeUpdates o .pc = false → t.pc = s.pc) ∧
    (o.mode = .reg → v = readReg s o.reg ∧ t = s) ∧
    (∀ a, locate o s = .mem a → inIoPage a = false → v = readWord s.mem a) ∧
    (o.mode = .ind → locate o s = .mem (readReg s o.reg) ∧ ∀ q, readReg t q = readReg s q) ∧
    (o.mode = .indInc → locate o s = .mem (readReg s o.reg) ∧
      readReg t o.reg = if o.reg = .sr then srFixed Config.srUnusedBits (readReg s .sr + 1)
        else readReg s o.reg + 1) ∧
    (o.mode = .decInd → locate o s = .mem (readReg t o.reg) ∧
      readReg t o.reg = if o.reg = .sr then srFixed Config.srUnusedBits (readReg s .sr - 1)
        else readReg s o.reg - 1) ∧
    (modeUpdates o .sr = false → t.sr = s.sr) ∧ t.mem = s.mem ∧ sameHidden s t ∧
    (o.mode = .reg → t.device = s.device) ∧
    (∀ a, locate o s = .mem a →
      (inIoPage a = false → t.device = s.device) ∧
      (inIoPage a = true → ∃ h, s.device = some h ∧ t.device = some (.read a :: h)))

/-- An operand can be evaluated exactly when its access has a step: its register, its memory word, or the
I/O page with a device (40_operands R132, 20_memory R68; D4). -/
def Obligations.OperandEvaluatesWhenReadable : Prop :=
  ∀ (o : Operand) (s : State), readable o s = true ↔ ∃ r, readOperand o s = .next r

/-- The constant idiom: `@R15++` reads the word R15 addresses and steps R15 over it (10_state R28 point 3,
30_encoding R102). -/
def Obligations.ConstantOperandSteps : Prop :=
  ∀ s : State, inIoPage s.pc = false →
    readOperand ⟨.pc, .indInc⟩ s = .next (readWord s.mem s.pc, { s with pc := s.pc + 1 })

/-! ### Two-operand instructions -/

/-- MOVE writes its source, SWAP its source with the two bytes exchanged, NOT its complement 0xFFFF - src, in
every form; the old destination is not read, and nothing but the destination and the flags changes
(41_move_arith R151, 42_shift_swap R173, 43_logic_cmp R186; D10, D12, D13). That a destination R14 holds the
result and not the flags is the choice of 40_operands R136 (D7; log 8). -/
def Obligations.MoveSwapNotComplete : Prop :=
  CompletesWriting .move (fun a => a) ∧
  CompletesWriting .swap (fun a => a.rotateLeft 8) ∧
  CompletesWriting .not (fun a => 0xFFFF#16 - a)

/-- AND, OR and XOR, in every form; V and C stay, and nothing but the destination and the flags changes
(43_logic_cmp R187, R188, R189; D10, D13). That a destination R14 holds the result and not the flags is the
choice of 40_operands R136 (D7; log 8). -/
def Obligations.AndOrXorComplete : Prop :=
  let stayV := fun (_ _ : Word) (s : State) => readFlag s bitV
  let stayC := fun (_ _ : Word) (s : State) => readFlag s bitC
  CompletesModifying .and (fun a d _ => d &&& a) stayV stayC (fun a d _ => decide (d &&& a = 0xFFFF#16)) ∧
  CompletesModifying .or (fun a d _ => d ||| a) stayV stayC (fun a d _ => decide (d ||| a = 0xFFFF#16)) ∧
  CompletesModifying .xor (fun a d _ => d ^^^ a) stayV stayC (fun a d _ => decide (d ^^^ a = 0xFFFF#16))

/-- ADD and ADDC, in every form: the sum modulo 65536, C when the unsigned sum does not fit, V when the signed
sum does not fit, X when the result is 0xFFFF, and nothing but the destination and the flags changes
(41_move_arith R152, R153; D8, D10; log 21). That a destination R14 holds the result and not the flags is the
choice of 40_operands R136 (D7; log 8). -/
def Obligations.AddAddcComplete : Prop :=
  CompletesModifying .add (fun a d _ => d + a) (fun a d _ => signedOverflow (d.toInt + a.toInt))
    (fun a d _ => decide (65536 ≤ d.toNat + a.toNat)) (fun a d _ => decide (d + a = 0xFFFF#16)) ∧
  CompletesModifying .addc (fun a d s => d + a + (BitVec.ofBool (readFlag s bitC)).setWidth 16)
    (fun a d s => signedOverflow (d.toInt + a.toInt + (readFlag s bitC).toNat))
    (fun a d s => decide (65536 ≤ d.toNat + a.toNat + (readFlag s bitC).toNat))
    (fun a d s => decide (d + a + (BitVec.ofBool (readFlag s bitC)).setWidth 16 = 0xFFFF#16))

/-- SUB and SUBC, in every form: the difference modulo 65536, C when there is a borrow, V when the signed
difference does not fit, X when the result is 0xFFFF, and nothing but the destination and the flags changes
(41_move_arith R154, R155; D9, D10; log 21). That a destination R14 holds the result and not the flags is the
choice of 40_operands R136 (D7; log 8). -/
def Obligations.SubSubcComplete : Prop :=
  CompletesModifying .sub (fun a d _ => d - a) (fun a d _ => signedOverflow (d.toInt - a.toInt))
    (fun a d _ => decide (d.toNat < a.toNat)) (fun a d _ => decide (d - a = 0xFFFF#16)) ∧
  CompletesModifying .subc (fun a d s => d - a - (BitVec.ofBool (readFlag s bitC)).setWidth 16)
    (fun a d s => signedOverflow (d.toInt - a.toInt - (readFlag s bitC).toNat))
    (fun a d s => decide (d.toNat < a.toNat + (readFlag s bitC).toNat))
    (fun a d s => decide (d - a - (BitVec.ofBool (readFlag s bitC)).setWidth 16 = 0xFFFF#16))

/-- SHL's closed form for every count 0..65535, in every form: the fill is X, the last bit out goes to C, and
X and V stay, and nothing but the destination and the flags changes (42_shift_swap R171; D11; log 11). That a
destination R14 holds the result and not the flags is the choice of 40_operands R136 (D7; log 8). -/
def Obligations.ShlClosedForm : Prop :=
  CompletesModifying .shl
    (fun n d s =>
      if n.toNat ≤ 16 then
        (d <<< n.toNat) ||| (if readFlag s bitX then BitVec.ofNat 16 (2 ^ n.toNat - 1) else 0x0000#16)
      else if readFlag s bitX then 0xFFFF#16 else 0x0000#16)
    (fun _ _ s => readFlag s bitV)
    (fun n d s =>
      if n.toNat = 0 then readFlag s bitC
      else if n.toNat ≤ 16 then d.getLsbD (16 - n.toNat) else readFlag s bitX)
    (fun _ _ s => readFlag s bitX)

/-- SHR's closed form for every count 0..65535, in every form: the fill is C, the last bit out goes to X, and
C and V stay, and nothing but the destination and the flags changes (42_shift_swap R172; D11; log 11). That a
destination R14 holds the result and not the flags is the choice of 40_operands R136 (D7; log 8). -/
def Obligations.ShrClosedForm : Prop :=
  CompletesModifying .shr
    (fun n d s =>
      if n.toNat ≤ 16 then
        (d >>> n.toNat) |||
          (if readFlag s bitC then BitVec.ofNat 16 ((2 ^ n.toNat - 1) * 2 ^ (16 - n.toNat)) else 0x0000#16)
      else if readFlag s bitC then 0xFFFF#16 else 0x0000#16)
    (fun _ _ s => readFlag s bitV)
    (fun _ _ s => readFlag s bitC)
    (fun n d s =>
      if n.toNat = 0 then readFlag s bitX
      else if n.toNat ≤ 16 then d.getLsbD (n.toNat - 1) else readFlag s bitC)

/-- After CMP Z says equal, N says source greater as unsigned numbers, V says source greater as signed numbers,
each by its own comparison; C, X, the rest of R14 and everything else stay (10_state R37, 43_logic_cmp R190). In
every form, with the destination read and not written and the operands in the order of 40_operands R134 and R140
(D13, D14; log 9). -/
def Obligations.CmpFlagTable : Prop :=
  ∀ (src dst : Operand) (s s1 s3 : State) (a d : Word), readOperand src s = .next (a, s1) →
    dstRead (locate dst s1) (locateState dst s1) = .next (d, s3) →
    ∃ u, exec (.cmp src dst) s = .next (dstFinish dst u) ∧ { u with sr := s3.sr } = s3 ∧
      readFlag u bitZ = decide (a = d) ∧ readFlag u bitN = decide (d.toNat < a.toNat) ∧
      readFlag u bitV = decide (d.toInt < a.toInt) ∧
      (∀ k, k ≠ bitZ → k ≠ bitN → k ≠ bitV → (readReg u .sr).getLsbD k = (readReg s3 .sr).getLsbD k)

/-- The frame of the 13 two-operand instructions, registers: only the destination and the registers of the
operands' modes change, in the page the window shows unless an operand writes R14; the hidden state stays
(10_state R24, R25, 40_operands R131, R140; D13, D14). -/
def Obligations.TwoOperandRegisterFrame : Prop :=
  ∀ (i : Instr) (src dst : Operand) (s t : State), twoOperands i = some (src, dst) → exec i s = .next t →
    (∀ k, mayWriteReg i src dst (.hi k) = false → readReg t (.hi k) = readReg s (.hi k)) ∧
    (∀ k, mayWriteReg i src dst (.lo k) = false → ∀ page, readBank t page k = readBank s page k) ∧
    (mayWriteReg i src dst .sr = false →
      ∀ page k, page ≠ currentPage s → readBank t page k = readBank s page k) ∧
    (mayWriteReg i src dst .pc = false → t.pc = s.pc) ∧ sameHidden s t

/-- The frame of the 13 two-operand instructions, R14: unless an operand or the destination is R14 itself,
only the flags marked W in the table change (10_state R35, R39). -/
def Obligations.TwoOperandFlagFrame : Prop :=
  ∀ (i : Instr) (src dst : Operand) (s t : State), twoOperands i = some (src, dst) → exec i s = .next t →
    mayWriteReg i src dst .sr = false →
    ∀ k, k ∉ flagsWritten i → (readReg t .sr).getLsbD k = (readReg s .sr).getLsbD k

/-- The frame of the 13 two-operand instructions, memory: a form without a memory destination, and CMP, store
nothing; a memory destination stores the two bytes of the word at its address and nothing else, and nothing in
memory if that is in the I/O page (20_memory R64, R65, 40_operands R133, R140; D13). -/
def Obligations.TwoOperandMemoryFrame : Prop :=
  ∀ (i : Instr) (src dst : Operand) (s t : State), twoOperands i = some (src, dst) → exec i s = .next t →
    (dst.mode = .reg ∨ writesDestination i = false → ∀ cell, readByte t.mem cell = readByte s.mem cell) ∧
    (∀ r a, readOperand src s = .next r → locate dst r.2 = .mem a →
      (inIoPage a = true → ∀ cell, readByte t.mem cell = readByte s.mem cell) ∧
      ∀ cell, cell ≠ 2 * a.toNat → cell ≠ 2 * a.toNat + 1 → readByte t.mem cell = readByte s.mem cell)

/-- A two-operand instruction completes whenever both operands can be accessed, and otherwise stops at the
I/O page without a device and nowhere else; it raises no fault (41_move_arith R150, 42_shift_swap R170,
43_logic_cmp R185, 60_exceptions R250; D4). That SHL and SHR complete for every count is the choice
SHIFT_COUNT = iterative (42_shift_swap R170, D11; log 11). -/
def Obligations.TwoOperandStopsOnlyAtIoPage : Prop :=
  ∀ (i : Instr) (src dst : Operand) (s : State), twoOperands i = some (src, dst) →
    (operandsReady src dst s = true → ∃ t, exec i s = .next t) ∧
    (operandsReady src dst s = false →
      s.device = none ∧ ∃ a, inIoPage a = true ∧ exec i s = .refused (.noIODevice a))

/-- MOVE to R14: the written word wins over MOVE's own flags (40_operands R136; D7; log 8). -/
def Obligations.MoveToStatusRegisterWins : Prop :=
  ∀ (src : Operand) (s s1 : State) (a : Word), readOperand src s = .next (a, s1) →
    exec (.move src ⟨.sr, .reg⟩) s = .next (writeReg .sr a s1)

/-- Law 3 of R156: ADD then SUB of the same register restores the destination, for all values
(41_move_arith R156; derived there). -/
def Obligations.AddThenSubRestores : Prop :=
  ∀ (q r : Reg) (s : State), q ≠ r → q ≠ .sr → r ≠ .sr →
    ∃ t u, exec (.add ⟨q, .reg⟩ ⟨r, .reg⟩) s = .next t ∧ exec (.sub ⟨q, .reg⟩ ⟨r, .reg⟩) t = .next u ∧
      readReg t r = readReg s r + readReg s q ∧ readReg u r = readReg s r

/-- Law 4 of R156: after SUB, Z says equal, C says unsigned less, and N differs from V exactly when the
destination was less as a signed number (41_move_arith R156; derived there). -/
def Obligations.SubComparesLikeSigned : Prop :=
  ∀ (src dst : Operand) (s s1 s3 : State) (a d : Word), readOperand src s = .next (a, s1) →
    dstRead (locate dst s1) (locateState dst s1) = .next (d, s3) → locate dst s1 ≠ .reg .sr →
    ∃ u, exec (.sub src dst) s = .next (dstFinish dst u) ∧
      (readFlag u bitZ = true ↔ d = a) ∧ (readFlag u bitC = true ↔ d.toNat < a.toNat) ∧
      (readFlag u bitN ≠ readFlag u bitV ↔ d.toInt < a.toInt)

/-! ### The control group -/

/-- HALT sets HALTED and changes nothing else, whatever its unused bits (44_control R210; D21, D28). -/
def Obligations.HaltHalts : Prop :=
  ∀ (unused : BitVec 6) (s : State), exec (.halt unused) s = .next { s with halted := true }

/-- HALTED is set by HALT and by nothing else; while it is set the CPU executes nothing (10_state R42, 44_control
R210). That a step of a halted machine changes nothing, so that no request wakes it or is used up, is the choice
HALT_WAKE = none (D28; log 20). -/
def Obligations.OnlyHaltHalts : Prop :=
  (∀ unused s t, exec (.halt unused) s = .next t → t.halted = true) ∧
  (∀ i s t, exec i s = .next t → t.halted ≠ s.halted → ∃ unused, i = .halt unused) ∧
  (∀ s t, step s = .next t → s.halted = false → t.halted = true →
    ∃ w u unused, fetch { s with intSource := s.intSource.tail } = .next (w, u) ∧
      decode w = .instr (.halt unused)) ∧
  (∀ s t, s.halted = true → step s = .next t → t = s)

/-- A halted machine is stuck: its step is itself, whatever is requested (93 U13, U14; D28; log 20, the
model's choice of how a machine without a step is shown). -/
def Obligations.HaltedMachineIsStuck : Prop :=
  ∀ s : State, s.halted = true → step s = .next s

/-- RTI inside an interrupt restores R14 whole and R15, clears IN_ISR and changes nothing else; outside one the
model stops (44_control R211; D24; log 7, log 17). -/
def Obligations.RtiReturns : Prop :=
  ∀ (unused : BitVec 6) (s : State),
    (s.inIsr = true → ∃ t, exec (.rti unused) s = .next t ∧
      readReg t .sr = srFixed Config.srUnusedBits s.srSave ∧ t.pc = s.pcSave ∧ t.inIsr = false ∧
      { t with sr := s.sr, pc := s.pc, inIsr := s.inIsr } = s) ∧
    (s.inIsr = false → exec (.rti unused) s = .fault .rtiOutsideIsr)

/-- INT, in every form: after its operand the latches take R14 and R15, R15 the operand, IN_ISR is set and
nothing else changes; inside an interrupt the model stops after the operand (44_control R212, 60_exceptions
R258; D17, D23, D25). -/
def Obligations.IntEnters : Prop :=
  ∀ (o : Operand) (s s1 : State) (a : Word), readOperand o s = .next (a, s1) →
    (s.inIsr = false → ∃ t, exec (.int o) s = .next t ∧ t.srSave = readReg s1 .sr ∧ t.pcSave = s1.pc ∧
      t.pc = a ∧ t.inIsr = true ∧
      { t with srSave := s1.srSave, pcSave := s1.pcSave, pc := s1.pc, inIsr := s1.inIsr } = s1) ∧
    (s.inIsr = true → exec (.int o) s = .fault .nestedInterrupt)

/-- INT then RTI resumes at the instruction after INT with every register, the flags and memory as INT's
operand left them (44_control R211, R212, 60_exceptions R257; D17, D26). -/
def Obligations.InterruptThenReturnResumes : Prop :=
  ∀ (o : Operand) (s s1 : State) (a : Word) (unused : BitVec 6), readOperand o s = .next (a, s1) →
    s.inIsr = false →
    ∃ t u, exec (.int o) s = .next t ∧ exec (.rti unused) t = .next u ∧
      (∀ r, readReg u r = readReg s1 r) ∧ u.bank = s1.bank ∧ u.mem = s1.mem ∧ u.inIsr = false ∧
      u.device = s1.device

/-- INCRB and DECRB: the page number plus or minus 1 modulo 256, bits 7..0 of R14 and everything else, the
contents of every page among it, unchanged (44_control R214, R215, 10_state R25; D21, D22). -/
def Obligations.BankSteps : Prop :=
  ∀ (unused : BitVec 6) (s : State),
    (∃ t, exec (.incrb unused) s = .next t ∧ currentPage t = currentPage s + 1 ∧
      (∀ k, k < 8 → (readReg t .sr).getLsbD k = (readReg s .sr).getLsbD k) ∧
      (∀ k, readReg t (.lo k) = readBank s (currentPage s + 1) k) ∧ { t with sr := s.sr } = s) ∧
    (∃ t, exec (.decrb unused) s = .next t ∧ currentPage t = currentPage s - 1 ∧
      (∀ k, k < 8 → (readReg t .sr).getLsbD k = (readReg s .sr).getLsbD k) ∧
      (∀ k, readReg t (.lo k) = readBank s (currentPage s - 1) k) ∧ { t with sr := s.sr } = s)

/-- DECRB undoes INCRB, at page 255 too: a subroutine that begins with one and ends with the other gives the
caller its page back (44_control R214, R215, 45_branch R240; D22). -/
def Obligations.DecrbUndoesIncrb : Prop :=
  ∀ (x y : BitVec 6) (s : State), ∃ t, exec (.incrb x) s = .next t ∧ exec (.decrb y) t = .next s

/-! ### Interrupts -/

/-- A request at an instruction boundary, outside an interrupt and not halted, is entered at once: the latches
take R14 and R15, R15 the ISR address, IN_ISR is set, the request is gone, and nothing else changes
(60_exceptions R255, R256, R257, R258; D25, D26; log 15). -/
def Obligations.HardwareInterruptEntry : Prop :=
  ∀ (s : State) (isr : Word) (rest : List (Option Word)), s.intSource = some isr :: rest →
    s.halted = false → s.inIsr = false →
    ∃ t, step s = .next t ∧ t.srSave = readReg s .sr ∧ t.pcSave = s.pc ∧ t.pc = isr ∧ t.inIsr = true ∧
      t.intSource = rest ∧ t.bank = s.bank ∧ t.hi = s.hi ∧ t.sr = s.sr ∧ t.mem = s.mem ∧
      t.halted = s.halted ∧ t.device = s.device

/-- A request while an interrupt is serviced is not granted: the step is the one without the request, and the
latches are not touched; a request that is offered after RTI is granted (60_exceptions R254). That the entry of a
request that is not granted is used up, and that the one after RTI is entered by the very next step, are the
model's choice (D26; log 15). -/
def Obligations.RequestHeldOffInIsr : Prop :=
  (∀ (s : State) (isr : Word) (rest : List (Option Word)), s.intSource = some isr :: rest →
    s.halted = false → s.inIsr = true →
    step s = step { s with intSource := none :: rest } ∧
    ∀ t, step s = .next t → t.srSave = s.srSave ∧ t.pcSave = s.pcSave) ∧
  (∀ (unused : BitVec 6) (s t : State) (isr : Word) (rest : List (Option Word)),
    s.intSource = some isr :: rest → s.halted = false → exec (.rti unused) s = .next t →
    ∃ u, step t = .next u ∧ u.pc = isr ∧ u.inIsr = true)

/-- RTI restores R14 and R15 from the latches and clears IN_ISR, which allows the next grant; every other
instruction leaves IN_ISR set, and while it is set no interrupt is entered (60_exceptions R259; D5; log 7). That a
request offered with IN_ISR clear is entered at this very boundary is the model's choice (D26; log 15). -/
def Obligations.OnlyRtiLeavesIsr : Prop :=
  (∀ unused s, s.inIsr = true → ∃ t, exec (.rti unused) s = .next t ∧
    readReg t .sr = srFixed Config.srUnusedBits s.srSave ∧ t.pc = s.pcSave ∧ t.inIsr = false) ∧
  (∀ i s t, exec i s = .next t → s.inIsr = true → t.inIsr = false → ∃ unused, i = .rti unused) ∧
  (∀ s t, s.inIsr = true → boundary s ≠ .enter t) ∧
  (∀ s isr rest, s.inIsr = false → s.halted = false → s.intSource = some isr :: rest →
    ∃ t, boundary s = .enter t)

/-- The latches are written only by interrupt entry and read only by RTI: an instruction other than INT leaves
them, a step that changes one has entered an interrupt, and no instruction but RTI can tell two states apart that
differ only in them (10_state R40; what entry writes there is IntEnters and HardwareInterruptEntry). -/
def Obligations.LatchesServeInterruptsOnly : Prop :=
  (∀ i s t, exec i s = .next t → (∀ o, i ≠ .int o) → t.srSave = s.srSave ∧ t.pcSave = s.pcSave) ∧
  (∀ s t, step s = .next t → t.srSave ≠ s.srSave ∨ t.pcSave ≠ s.pcSave → s.inIsr = false ∧ t.inIsr = true) ∧
  (∀ i s x y, (∀ unused, i ≠ .rti unused) →
    sameButLatches (exec i s) (exec i { s with srSave := x, pcSave := y }))

/-! ### Jumps, branches and calls -/

/-- ABRA and RBRA, in every form: the operand is evaluated whether or not the condition holds; if it holds R15
becomes the operand, or R15 plus the operand; nothing else changes (45_branch R227, R228, R231, R233; D14, D15,
D16; log 10, log 22). -/
def Obligations.BranchesComplete : Prop :=
  ∀ (o : Operand) (c : Cond) (s s1 : State) (a : Word), readOperand o s = .next (a, s1) →
    (conditionHolds c s1 →
      exec (.abra o c) s = .next { s1 with pc := a } ∧
      exec (.rbra o c) s = .next { s1 with pc := s1.pc + a }) ∧
    (¬ conditionHolds c s1 → exec (.abra o c) s = .next s1 ∧ exec (.rbra o c) s = .next s1)

/-- ASUB and RSUB, in every form: taken, they push R15 as the operand left it and jump; not taken, only the
operand was evaluated (45_branch R229, R230, R232, R233; D15, D16, D17). -/
def Obligations.CallsComplete : Prop :=
  ∀ (o : Operand) (c : Cond) (s s1 : State) (a : Word), readOperand o s = .next (a, s1) →
    (conditionHolds c s1 → accessible s1 (readReg s1 .sp - 1) = true →
      (∃ t, exec (.asub o c) s = .next t ∧ calledFrom s1 a t) ∧
      (∃ t, exec (.rsub o c) s = .next t ∧ calledFrom s1 (s1.pc + a) t)) ∧
    (¬ conditionHolds c s1 → exec (.asub o c) s = .next s1 ∧ exec (.rsub o c) s = .next s1)

/-- A jump, branch or call stops only where its operand or its push meets the I/O page without a device; it
raises no fault (45_branch R228, R229, R230; D4). -/
def Obligations.JumpsStopOnlyAtIoPage : Prop :=
  ∀ (i : Instr) (o : Operand) (c : Cond) (s : State), jumpOperand i = some (o, c) →
    (∃ t, exec i s = .next t) ∨
      s.device = none ∧ ∃ a, inIoPage a = true ∧ exec i s = .refused (.noIODevice a)

/-- A call and its return: after a taken ASUB or RSUB whose stack word is memory, `MOVE @R13++, R15` and
`ABRA @R13++, 1` come back to the instruction after the call with R13 as before; the MOVE keeps V and C, the
ABRA keeps all of R14 (45_branch R230, R241; D17). -/
def Obligations.CallThenReturn : Prop :=
  ∀ (o : Operand) (c : Cond) (s s1 : State) (a : Word) (call : Operand → Cond → Instr),
    call = .asub ∨ call = .rsub → readOperand o s = .next (a, s1) → conditionHolds c s1 →
    inIoPage (readReg s1 .sp - 1) = false →
    ∃ t u v, exec (call o c) s = .next t ∧
      exec (.move ⟨.sp, .indInc⟩ ⟨.pc, .reg⟩) t = .next u ∧
      exec (.abra ⟨.sp, .indInc⟩ ⟨false, 0⟩) t = .next v ∧
      u.pc = s1.pc ∧ readReg u .sp = readReg s1 .sp ∧
      readFlag u bitV = readFlag s1 bitV ∧ readFlag u bitC = readFlag s1 bitC ∧
      v.pc = s1.pc ∧ readReg v .sp = readReg s1 .sp ∧ readReg v .sr = readReg s1 .sr

/-! ### The machine -/

/-- A step runs the decoded instruction: at a boundary that runs, the word at R15 is fetched, R15 is advanced,
and the instruction it decodes to is executed; an undefined command stops it with its word (40_operands R130,
44_control R216; D20). A fetch from the I/O page is answered by the device, or has no step without one
(20_memory R69; D4; log 13, log 14). -/
def Obligations.StepRunsDecodedInstruction : Prop :=
  (∀ s s0 t w i, boundary s = .run s0 → fetch s0 = .next (w, t) → decode w = .instr i →
    i.wellFormed = true → step s = exec i t) ∧
  (∀ s s0 t w, boundary s = .run s0 → fetch s0 = .next (w, t) → decode w = .undefinedCommand w →
    step s = .fault (.undefinedCommand w)) ∧
  (∀ s, s.halted = false → s.intSource = [] → boundary s = .run s) ∧
  (∀ s rest, s.halted = false → s.intSource = none :: rest →
    boundary s = .run { s with intSource := rest }) ∧
  (∀ s, inIoPage s.pc = false → fetch s = .next (readWord s.mem s.pc, { s with pc := s.pc + 1 })) ∧
  (∀ s h, inIoPage s.pc = true → s.device = some h →
    ∃ w, fetch s = .next (w, { s with pc := s.pc + 1, device := some (.read s.pc :: h) })) ∧
  (∀ s, inIoPage s.pc = true → s.device = none → fetch s = .refused (.noIODevice s.pc))

/-- The machine raises no synchronous exception: a step faults only where it has fetched a reserved opcode or an
undefined command, with that word, an INT inside an interrupt, or an RTI outside one (60_exceptions R250; D19,
D20, D23, D24). That no word faults for its unused low bits rests on CTRL_LOW_BITS = ignored (D21; log 12). -/
def Obligations.StepFaultsOnlyAsNamed : Prop :=
  ∀ (s : State) (e : Fault), step s = .fault e →
    s.halted = false ∧ ∃ w u, fetch { s with intSource := s.intSource.tail } = .next (w, u) ∧
      ((e = .reservedOpcode w ∧ (0xD000 ≤ w.toNat ∧ w.toNat ≤ 0xDFFF) ∧ ∃ p, decode w = .instr (.reservedD p)) ∨
       (e = .undefinedCommand w ∧ (0xE140 ≤ w.toNat ∧ w.toNat ≤ 0xEFFF) ∧ decode w = .undefinedCommand w) ∨
       (e = .nestedInterrupt ∧ s.inIsr = true ∧ ∃ o, decode w = .instr (.int o)) ∨
       (e = .rtiOutsideIsr ∧ s.inIsr = false ∧ ∃ unused, decode w = .instr (.rti unused)))

/-- A step is refused only for an access to the I/O page, and only while no device is given
(20_memory R68, R69; D4; log 13). That no step is refused for a shift count above 15 is the choice
SHIFT_COUNT = iterative (42_shift_swap R170, D11; log 11). -/
def Obligations.StepRefusesOnlyIoPage : Prop :=
  ∀ (s : State) (e : Refusal), step s = .refused e →
    s.device = none ∧ ∃ a, inIoPage a = true ∧ e = .noIODevice a

/-- The word the host places is the one the very next step runs, on the state it was placed in: only the placed word,
R15, HALTED and the interrupt input differ (70_reset R300; the model's choice, log 4). -/
def Obligations.PlacedWordRunsNext : Prop :=
  ∀ (s : State) (w : Word) (i : Instr), decode w = .instr i →
    ∃ t, step (s.withFetchWord 16 w.toNat) = exec i t ∧
      t.pc = (if inIoPage s.pc then 0x0000#16 else s.pc) + 1 ∧ t.halted = false ∧
      t.mem = writeWord (if inIoPage s.pc then 0x0000#16 else s.pc) w s.mem ∧
      t.intSource = s.intSource.tail ∧ t.bank = s.bank ∧ t.hi = s.hi ∧ t.sr = s.sr ∧
      (∀ r, r ≠ .pc → readReg t r = readReg s r) ∧ t.inIsr = s.inIsr ∧ t.srSave = s.srSave ∧
      t.pcSave = s.pcSave ∧ t.device = s.device

/-- The values the spec gives reset: R15 = 0x0000, R14 = 0x0001, IN_ISR = 0, HALTED = 0 (10_state R45, 70_reset
R290; D27; log 3). -/
def Obligations.ResetState : Prop :=
  readReg State.reset .pc = 0x0000#16 ∧ readReg State.reset .sr = 0x0001#16 ∧
    State.reset.inIsr = false ∧ State.reset.halted = false

/-- The invariant holds at reset. It rests on the contents of the bank, of memory and of R14 that the model gives
reset (10_state R45; D27; log 1, log 2, log 3). -/
def Obligations.ResetIsWellFormed : Prop := State.reset.wf = true

/-- Every step keeps the invariant: memory and the register bank stay in canonical form, and the hard-wired
bits of R14, and while an interrupt is serviced of its latch, stay as the spec says they read (10_state R32,
R34, R40; D5; log 6). -/
def Obligations.StepKeepsWellFormed : Prop :=
  ∀ s t : State, s.wf = true → step s = .next t → t.wf = true

/-! ### Destinations -/

/-- What locating, reading and finishing a destination give and leave, mode by mode: its place, the update of its
address register before or after (modulo 65536, R14 with its hard-wired bits), the old value, and nothing else but
the device's history (40_operands R131, R133; D14, D30; log 7, log 9, log 23). -/
def Obligations.DestinationByMode : Prop :=
  ∀ (o : Operand) (s : State),
    (o.mode = .reg → locate o s = .reg o.reg ∧ locateState o s = s ∧ dstFinish o s = s) ∧
    (o.mode = .ind → locate o s = .mem (readReg s o.reg) ∧ locateState o s = s ∧ dstFinish o s = s) ∧
    (o.mode = .indInc → locate o s = .mem (readReg s o.reg) ∧ locateState o s = s ∧
      onlyRegChanged o.reg s (dstFinish o s) ∧
      readReg (dstFinish o s) o.reg = if o.reg = .sr then srFixed Config.srUnusedBits (readReg s .sr + 1)
        else readReg s o.reg + 1) ∧
    (o.mode = .decInd → locate o s = .mem (readReg (locateState o s) o.reg) ∧
      onlyRegChanged o.reg s (locateState o s) ∧ dstFinish o s = s ∧
      readReg (locateState o s) o.reg = if o.reg = .sr then srFixed Config.srUnusedBits (readReg s .sr - 1)
        else readReg s o.reg - 1) ∧
    (∀ r, dstRead (.reg r) s = .next (readReg s r, s)) ∧
    (∀ a, inIoPage a = false → dstRead (.mem a) s = .next (readWord s.mem a, s)) ∧
    (∀ a h, inIoPage a = true → s.device = some h →
      ∃ d, dstRead (.mem a) s = .next (d, { s with device := some (.read a :: h) }))

/-! ### The host -/

/-- The host's load: the words of its pairs are in memory, a later pair for an address winning, and nothing else is
touched; an image of words stands at consecutive addresses from its origin (70_reset R300). That a load in the I/O
page stores nothing and that an image goes on at 0x0000 after 0xFFFF is the model's choice (log 4). -/
def Obligations.LoadWritesItsPairs : Prop :=
  (∀ pairs s, { State.loadPairs pairs s with mem := s.mem } = s ∧
    (∀ before a v after, pairs = before ++ (a, v) :: after → inIoPage a = false → (∀ p ∈ after, p.1 ≠ a) →
      readWord (State.loadPairs pairs s).mem a = v) ∧
    (∀ cell, (∀ p ∈ pairs, inIoPage p.1 = false → cell ≠ 2 * p.1.toNat ∧ cell ≠ 2 * p.1.toNat + 1) →
      readByte (State.loadPairs pairs s).mem cell = readByte s.mem cell) ∧
    (s.wf = true → (State.loadPairs pairs s).wf = true)) ∧
  (∀ (origin : Word) (words : List Word) (s : State), { State.loadImage origin words s with mem := s.mem } = s ∧
    (words.length ≤ 65536 → ∀ k (hk : k < words.length), inIoPage (origin + BitVec.ofNat 16 k) = false →
      readWord (State.loadImage origin words s).mem (origin + BitVec.ofNat 16 k) = words[k]) ∧
    (∀ cell, (∀ k, k < words.length → inIoPage (origin + BitVec.ofNat 16 k) = false →
        cell ≠ 2 * (origin + BitVec.ofNat 16 k).toNat ∧ cell ≠ 2 * (origin + BitVec.ofNat 16 k).toNat + 1) →
      readByte (State.loadImage origin words s).mem cell = readByte s.mem cell))

/-- The host's reset of any machine, halted or not: R15, R14, IN_ISR and HALTED take the values of 10_state R45 and an
image loaded before it is still there, so that the next step runs its word at 0x0000 (10_state R45, 70_reset R290,
R300; D27; log 3). That memory outside an image, the device and the interrupt input stay is the model's choice
(log 26); that the reset state is well-formed rests on what the model gives the bank (log 1). -/
def Obligations.ResetKeepsTheImage : Prop :=
  ∀ s : State, readReg s.hostReset .pc = 0x0000#16 ∧ readReg s.hostReset .sr = 0x0001#16 ∧
    s.hostReset.inIsr = false ∧ s.hostReset.halted = false ∧ s.hostReset.mem = s.mem ∧
    s.hostReset.device = s.device ∧ s.hostReset.intSource = s.intSource ∧
    (Memory.wf s.mem = true → s.hostReset.wf = true) ∧
    ∀ i, s.intSource = [] → decode (readWord s.mem 0x0000#16) = .instr i →
      step s.hostReset = exec i { s.hostReset with pc := 0x0001 }

/-- The host's run takes the machine's steps and ends at the first halted state; without one it is still running, or
stopped where a step stopped; and more steps change nothing after the halt (70_reset R300, R301; D28; log 20,
log 26). -/
def Obligations.RunEndsAtFirstHalt : Prop :=
  (∀ bound c s t, Host.Core.run Sys2Proof.core bound s = .next t →
    ∃ c', State.run bound c s = if t.halted then .halted c' t else .running c' t) ∧
  (∀ bound c s e, Host.Core.run Sys2Proof.core bound s = .fault e → ∃ c', State.run bound c s = .fault c' e) ∧
  (∀ bound c s e, Host.Core.run Sys2Proof.core bound s = .refused e → ∃ c', State.run bound c s = .refused c' e) ∧
  (∀ bound c c' s t, State.run bound c s = .halted c' t →
    t.halted = true ∧ (∀ more, State.run (bound + more) c s = .halted c' t) ∧
    ∃ k, k ≤ bound ∧ Host.Core.run Sys2Proof.core k s = .next t ∧
      ∀ j, j < k → ∃ u, Host.Core.run Sys2Proof.core j s = .next u ∧ u.halted = false)

/-- The statistics against the machine: a step that counts no instruction makes no access; an instruction counts once,
with at most three reads and one write, no memory changes without a counted write, and no more accesses reach the
device than are counted (40_operands R141, 70_reset R300; D3, D14; log 26). -/
def Obligations.StatisticsBoundAccesses : Prop :=
  ∀ (s t : State) (c : Statistics), step s = .next t →
    (stepAccesses s = none → t.mem = s.mem ∧ t.device = s.device ∧ c.afterStep s = c) ∧
    ∀ w a, stepAccesses s = some (w, a) →
      (c.afterStep s).instructions = c.instructions + 1 ∧
      (c.afterStep s).memReads = c.memReads + a.memReads ∧ (c.afterStep s).memWrites = c.memWrites + a.memWrites ∧
      1 ≤ a.memReads ∧ a.memReads ≤ 3 ∧ a.memWrites ≤ 1 ∧ (a.memWrites = 0 → t.mem = s.mem) ∧
      ∀ h, s.device = some h → ∃ events, t.device = some (events ++ h) ∧
        (events.filter isRead).length ≤ a.memReads ∧ (events.filter fun e => !isRead e).length ≤ a.memWrites
end

