-- ==== Sys2Proof/Laws/Decode.lean ====
section
/-! SUPPORT. The fields of a word, and that each field's decoder and encoder agree. -/

namespace Sys2Proof

@[simp] theorem regOfNum_regNum (r : Reg) : regOfNum (regNum r) = r := by
  cases r with
  | lo i => revert i; decide
  | hi i => revert i; decide
  | sr => rfl
  | pc => rfl

@[simp] theorem modeOfBits_modeBits (m : Mode) : modeOfBits (modeBits m) = m := by cases m <;> rfl

@[simp] theorem regNum_regOfNum (n : BitVec 4) : regNum (regOfNum n) = n := by revert n; decide

@[simp] theorem modeBits_modeOfBits (m : BitVec 2) : modeBits (modeOfBits m) = m := by revert m; decide

/-- The upper part of two joined fields. -/
theorem extractLsb'_append_hi {n m : Nat} (a : BitVec n) (b : BitVec m) : (a ++ b).extractLsb' m n = a := by
  apply BitVec.eq_of_getLsbD_eq
  intro k hk
  simp [BitVec.getLsbD_append, hk]

/-- The lower part of two joined fields. -/
theorem extractLsb'_append_lo {n m : Nat} (a : BitVec n) (b : BitVec m) : (a ++ b).extractLsb' 0 m = b := by
  apply BitVec.eq_of_getLsbD_eq
  intro k hk
  simp [BitVec.getLsbD_append, hk]

theorem operandOfBits_append (n : BitVec 4) (m : BitVec 2) :
    operandOfBits (n ++ m) = ⟨regOfNum n, modeOfBits m⟩ := by
  simp only [operandOfBits, extractLsb'_append_hi, extractLsb'_append_lo]

@[simp] theorem operandOfBits_operandBits (o : Operand) : operandOfBits (operandBits o) = o := by
  simp [operandBits, operandOfBits_append]

@[simp] theorem operandBits_operandOfBits (b : BitVec 6) : operandBits (operandOfBits b) = b := by
  simp only [operandBits, operandOfBits, regNum_regOfNum, modeBits_modeOfBits]
  revert b
  decide

@[simp] theorem condOfBits_condBits (c : Cond) : condOfBits (condBits c) = c := by
  obtain ⟨n, k⟩ := c
  revert n k
  decide

@[simp] theorem condBits_condOfBits (b : BitVec 4) : condBits (condOfBits b) = b := by revert b; decide

/-- The fields of a word of format G (30_encoding R91). -/
theorem wordG_fields (op : BitVec 4) (src dst : Operand) :
    (wordG op src dst).extractLsb' 12 4 = op ∧ (wordG op src dst).extractLsb' 6 6 = operandBits src ∧
      (wordG op src dst).extractLsb' 0 6 = operandBits dst := by
  refine ⟨?_, ?_, ?_⟩ <;>
  · apply BitVec.eq_of_getLsbD_eq
    intro k hk
    simp only [wordG, BitVec.getLsbD_extractLsb', BitVec.getLsbD_append]
    interval_cases k <;> simp

/-- The fields of a word of format C (30_encoding R92). -/
theorem wordC_fields (command low : BitVec 6) :
    (wordC command low).extractLsb' 12 4 = 14#4 ∧ (wordC command low).extractLsb' 6 6 = command ∧
      (wordC command low).extractLsb' 0 6 = low := by
  refine ⟨?_, ?_, ?_⟩ <;>
  · apply BitVec.eq_of_getLsbD_eq
    intro k hk
    simp only [wordC, BitVec.getLsbD_extractLsb', BitVec.getLsbD_append]
    interval_cases k <;> simp

/-- The fields of a word of format B (30_encoding R93). -/
theorem wordB_fields (bmode : BitVec 2) (target : Operand) (cond : Cond) :
    (wordB bmode target cond).extractLsb' 12 4 = 15#4 ∧
      (wordB bmode target cond).extractLsb' 6 6 = operandBits target ∧
      (wordB bmode target cond).extractLsb' 4 2 = bmode ∧
      (wordB bmode target cond).extractLsb' 0 4 = condBits cond := by
  refine ⟨?_, ?_, ?_, ?_⟩ <;>
  · apply BitVec.eq_of_getLsbD_eq
    intro k hk
    simp only [wordB, BitVec.getLsbD_extractLsb', BitVec.getLsbD_append]
    interval_cases k <;> simp

end Sys2Proof
end

