-- ==== Sys2Proof/Laws/Flags.lean ====
section
/-! SUPPORT. The laws of the status register's fields and of the flag computations. -/

namespace Sys2Proof.Machine

@[simp] theorem Config_srUnusedBits : Config.srUnusedBits = .zero := rfl
@[simp] theorem Config_srDstOrder : Config.srDstOrder = .writeWins := rfl
@[simp] theorem Config_untakenBranchOperand : Config.untakenBranchOperand = .evaluate := rfl
@[simp] theorem Config_shiftCount : Config.shiftCount = .iterative := rfl
@[simp] theorem Config_ctrlLowBits : Config.ctrlLowBits = .ignored := rfl

/-- What every bit of R14 reads as: bit 0 is 1, bits 7 and 6 are 0, the others are stored. -/
theorem getLsbD_srFixed (v : Word) (k : Nat) :
    (srFixed .zero v).getLsbD k = (decide (k = 0) || (decide (k ≠ 6 ∧ k ≠ 7) && v.getLsbD k)) := by
  by_cases hk : k < 16
  · interval_cases k <;> simp [srFixed]
  · simp [srFixed, BitVec.getLsbD_of_ge _ _ (Nat.le_of_not_lt hk)]; omega

theorem srFixed_idem (p : SrUnusedBits) (v : Word) : srFixed p (srFixed p v) = srFixed p v := by
  cases p
  · apply BitVec.eq_of_getLsbD_eq
    intro k _
    simp only [getLsbD_srFixed]
    grind
  · simp [srFixed, BitVec.or_assoc]

@[simp] theorem rbankOf_srFixed (p : SrUnusedBits) (v : Word) : rbankOf (srFixed p v) = rbankOf v := by
  apply BitVec.eq_of_getLsbD_eq
  intro k hk
  cases p <;> interval_cases k <;> simp [rbankOf, srFixed]

theorem getLsbD_withRbank (page : BitVec 8) (v : Word) (k : Nat) :
    (withRbank page v).getLsbD k = if k < 8 then v.getLsbD k else page.getLsbD (k - 8) := by
  simp only [withRbank, BitVec.getLsbD_append, BitVec.getLsbD_extractLsb']
  split <;> simp [*]

@[simp] theorem rbankOf_withRbank (page : BitVec 8) (v : Word) : rbankOf (withRbank page v) = page := by
  apply BitVec.eq_of_getLsbD_eq
  intro k hk
  have : ¬ (8 + k < 8) := by omega
  simp [rbankOf, getLsbD_withRbank, hk]

theorem srFixed_withRbank (page : BitVec 8) (v : Word) :
    srFixed .zero (withRbank page v) = withRbank page (srFixed .zero v) := by
  apply BitVec.eq_of_getLsbD_eq
  intro k _
  simp only [getLsbD_srFixed, getLsbD_withRbank]
  grind

/-- `SR.f <- b` writes one bit and leaves the others (00_scope R11). -/
theorem getLsbD_writeBit (bit : Nat) (value : Option Bool) (sr : Word) (k : Nat) (hb : bit < 16) :
    (writeBit bit value sr).getLsbD k = if k = bit then value.getD (sr.getLsbD k) else sr.getLsbD k := by
  by_cases hk : k < 16
  · interval_cases bit <;> interval_cases k <;> rcases value with _ | _ | _ <;> simp [writeBit]
  · have h := fun v : Word => BitVec.getLsbD_of_ge v k (Nat.le_of_not_lt hk)
    have : k ≠ bit := by omega
    simp [h, this]

@[simp] theorem rbankOf_apply (f : FlagWrites) (sr : Word) : rbankOf (f.apply sr) = rbankOf sr := by
  apply BitVec.eq_of_getLsbD_eq
  intro k hk
  simp only [rbankOf, BitVec.getLsbD_extractLsb', FlagWrites.apply, getLsbD_writeBit, bitX, bitC, bitZ,
    bitN, bitV, Nat.reduceLT]
  grind

/-- The flag an instruction's writes leave at a bit of R14: the one written there, or the old bit. -/
theorem getLsbD_apply (f : FlagWrites) (sr : Word) (k : Nat) :
    (f.apply sr).getLsbD k =
      if k = bitV then f.v.getD (sr.getLsbD k) else if k = bitN then f.n.getD (sr.getLsbD k)
      else if k = bitZ then f.z.getD (sr.getLsbD k) else if k = bitC then f.c.getD (sr.getLsbD k)
      else if k = bitX then f.x.getD (sr.getLsbD k) else sr.getLsbD k := by
  simp only [FlagWrites.apply, getLsbD_writeBit, bitX, bitC, bitZ, bitN, bitV, Nat.reduceLT]
  grind

theorem srFixed_apply (f : FlagWrites) (sr : Word) :
    srFixed .zero (f.apply sr) = f.apply (srFixed .zero sr) := by
  apply BitVec.eq_of_getLsbD_eq
  intro k hk
  simp only [getLsbD_srFixed, getLsbD_apply, bitX, bitC, bitZ, bitN, bitV]
  interval_cases k <;> simp

theorem repeatPlaces_add (place : Word × Bool → Word × Bool) (m n : Nat) (s : Word × Bool) :
    repeatPlaces place (m + n) s = repeatPlaces place n (repeatPlaces place m s) := by
  induction m generalizing s with
  | zero => simp [repeatPlaces]
  | succ m ih => rw [Nat.succ_add]; exact ih _

/-- A place added at the end. -/
theorem repeatPlaces_succ (place : Word × Bool → Word × Bool) (n : Nat) (s : Word × Bool) :
    repeatPlaces place (n + 1) s = place (repeatPlaces place n s) := repeatPlaces_add place n 1 s

theorem repeatPlaces_fixed (place : Word × Bool → Word × Bool) (s : Word × Bool) (h : place s = s) (n : Nat) :
    repeatPlaces place n s = s := by
  induction n with
  | zero => rfl
  | succ n ih => rw [repeatPlaces, h, ih]

theorem repeatPlaces_capped (place : Word × Bool → Word × Bool) (s : Word × Bool)
    (h : place (repeatPlaces place 17 s) = repeatPlaces place 17 s) (n : Nat) :
    repeatPlaces place (cappedPlaces n) s = repeatPlaces place n s := by
  unfold cappedPlaces
  by_cases hn : n ≤ 17
  · rw [Nat.min_eq_left hn]
  · obtain ⟨m, rfl⟩ : ∃ m, n = 17 + m := ⟨n - 17, by omega⟩
    rw [Nat.min_eq_right (by omega), repeatPlaces_add, repeatPlaces_fixed place _ h]

/-- Bit `k` of the word and the bit that left, after `n` places of SHL. -/
theorem repeatPlaces_shl (fill : Bool) (n : Nat) (d : Word) (c : Bool) :
    (∀ k, k < 16 → (repeatPlaces (shlPlace fill) n (d, c)).1.getLsbD k =
      if k < n then fill else d.getLsbD (k - n)) ∧
    (repeatPlaces (shlPlace fill) n (d, c)).2 =
      if n = 0 then c else if n ≤ 16 then d.getLsbD (16 - n) else fill := by
  induction n with
  | zero => simp [repeatPlaces]
  | succ n ih =>
    obtain ⟨h1, h2⟩ := ih
    rw [repeatPlaces_succ]
    refine ⟨?_, ?_⟩
    · intro k hk
      simp only [shlPlace, BitVec.getLsbD_or, BitVec.getLsbD_shiftLeft, BitVec.getLsbD_setWidth]
      by_cases hk0 : k = 0
      · subst hk0; simp
      · have hk1 : ¬ (k < 1) := by omega
        have : (BitVec.ofBool fill).getLsbD k = false := BitVec.getLsbD_of_ge _ _ (by omega)
        rw [h1 (k - 1) (by omega), this]
        simp only [hk, hk1, decide_true, decide_false, Bool.not_false, Bool.true_and, Bool.and_false,
          Bool.or_false]
        have : (k - 1 < n) = (k < n + 1) := by simp; omega
        have h3 : k - 1 - n = k - (n + 1) := by omega
        simp only [this, h3]
    · simp only [shlPlace, BitVec.msb_eq_getLsbD_last]
      rw [h1 15 (by omega)]
      have : 15 - n = 16 - (n + 1) := by omega
      grind

/-- Bit `k` of the word and the bit that left, after `n` places of SHR. -/
theorem repeatPlaces_shr (fill : Bool) (n : Nat) (d : Word) (x : Bool) :
    (∀ k, k < 16 → (repeatPlaces (shrPlace fill) n (d, x)).1.getLsbD k =
      if k + n < 16 then d.getLsbD (k + n) else fill) ∧
    (repeatPlaces (shrPlace fill) n (d, x)).2 =
      if n = 0 then x else if n ≤ 16 then d.getLsbD (n - 1) else fill := by
  induction n with
  | zero => simp [repeatPlaces]; intro k hk; simp [hk]
  | succ n ih =>
    obtain ⟨h1, h2⟩ := ih
    rw [repeatPlaces_succ]
    refine ⟨?_, ?_⟩
    · intro k hk
      simp only [shrPlace, BitVec.getLsbD_or, BitVec.getLsbD_ushiftRight, BitVec.getLsbD_shiftLeft,
        BitVec.getLsbD_setWidth]
      by_cases hk1 : k = 15
      · subst hk1
        rw [BitVec.getLsbD_of_ge _ (1 + 15) (by omega)]
        have : ¬ (15 + (n + 1) < 16) := by omega
        simp [this]
      · have h15 : k < 15 := by omega
        rw [h1 (1 + k) (by omega)]
        have : 1 + k + n = k + (n + 1) := by omega
        simp [h15, this]
    · simp only [shrPlace]
      rw [h1 0 (by omega)]
      grind

/-- Running out a larger count of SHL changes nothing: the cap is the loop of the rule (R171). -/
theorem repeatPlaces_shl_cap (fill : Bool) (n : Nat) (s : Word × Bool) :
    repeatPlaces (shlPlace fill) (cappedPlaces n) s = repeatPlaces (shlPlace fill) n s := by
  apply repeatPlaces_capped
  obtain ⟨d, c⟩ := s
  rw [← repeatPlaces_succ (shlPlace fill) 17]
  have a := repeatPlaces_shl fill 17 d c
  have b := repeatPlaces_shl fill 18 d c
  refine Prod.ext (BitVec.eq_of_getLsbD_eq fun k hk => ?_) ?_
  · rw [a.1 k hk, b.1 k hk]; grind
  · rw [a.2, b.2]; simp

/-- Running out a larger count of SHR changes nothing: the cap is the loop of the rule (R172). -/
theorem repeatPlaces_shr_cap (fill : Bool) (n : Nat) (s : Word × Bool) :
    repeatPlaces (shrPlace fill) (cappedPlaces n) s = repeatPlaces (shrPlace fill) n s := by
  apply repeatPlaces_capped
  obtain ⟨d, x⟩ := s
  rw [← repeatPlaces_succ (shrPlace fill) 17]
  have a := repeatPlaces_shr fill 17 d x
  have b := repeatPlaces_shr fill 18 d x
  refine Prod.ext (BitVec.eq_of_getLsbD_eq fun k hk => ?_) ?_
  · rw [a.1 k hk, b.1 k hk]; grind
  · rw [a.2, b.2]; simp

@[simp] theorem shiftPlaces_iterative (count : Word) :
    shiftPlaces .iterative count = some (cappedPlaces count.toNat) := rfl

/-- SHL under the model's SHIFT_COUNT is the loop of the rule, run out in full (R171). -/
theorem shlOut_eq (count d : Word) (oldX oldC : Bool) :
    shlOut (cappedPlaces count.toNat) d oldX oldC = shlOut count.toNat d oldX oldC := by
  simp [shlOut, repeatPlaces_shl_cap]

/-- SHR under the model's SHIFT_COUNT is the loop of the rule, run out in full (R172). -/
theorem shrOut_eq (count d : Word) (oldC oldX : Bool) :
    shrOut (cappedPlaces count.toNat) d oldC oldX = shrOut count.toNat d oldC oldX := by
  simp [shrOut, repeatPlaces_shr_cap]

end Sys2Proof.Machine
end

