-- ==== Sys2Proof/Laws/Sparse.lean ====
section
/-! SUPPORT. The laws of sparse stores: read after write, and the canonical form. -/

namespace Sys2Proof.Machine

@[simp] theorem Sparse.get_nil {w : Nat} (key : Nat) : Sparse.get key ([] : Sparse w) = 0#w := rfl

theorem Sparse.get_erase {w : Nat} (key other : Nat) (m : Sparse w) :
    Sparse.get other (Sparse.erase key m) = if other = key then 0#w else Sparse.get other m := by
  induction m with
  | nil => simp [Sparse.erase]
  | cons e m ih =>
    obtain ⟨k, v⟩ := e
    simp only [Sparse.erase] at ih
    by_cases hk : k = key
    · subst hk
      by_cases ho : other = k <;> simp_all [Sparse.erase, Sparse.get]
      grind
    · simp only [Sparse.erase, List.filter_cons, Sparse.get]
      grind [Sparse.get]

theorem Sparse.get_insert {w : Nat} (key other : Nat) (value : BitVec w) (m : Sparse w)
    (h : ∀ e ∈ m, e.1 ≠ key) :
    Sparse.get other (Sparse.insert key value m) = if other = key then value else Sparse.get other m := by
  induction m with
  | nil => simp only [Sparse.insert, Sparse.get]; grind
  | cons e m ih =>
    obtain ⟨k, v⟩ := e
    have hk : k ≠ key := h (k, v) (by simp)
    have ih := ih (fun e he => h e (by simp [he]))
    simp only [Sparse.insert]
    split <;> simp only [Sparse.get, ih] <;> grind

theorem Sparse.erase_keys {w : Nat} (key : Nat) (m : Sparse w) : ∀ e ∈ Sparse.erase key m, e.1 ≠ key := by
  simp [Sparse.erase]

/-- A read after a write gives the value written, and every other key reads as before. -/
theorem Sparse.get_set {w : Nat} (key other : Nat) (value : BitVec w) (m : Sparse w) :
    Sparse.get other (Sparse.set key value m) = if other = key then value else Sparse.get other m := by
  unfold Sparse.set
  split
  · rename_i h
    rw [Sparse.get_erase, h]
  · rw [Sparse.get_insert _ _ _ _ (Sparse.erase_keys key m), Sparse.get_erase]
    grind

@[simp] theorem Sparse.get_set_same {w : Nat} (key : Nat) (value : BitVec w) (m : Sparse w) :
    Sparse.get key (Sparse.set key value m) = value := by simp [Sparse.get_set]

theorem Sparse.get_set_other {w : Nat} (key other : Nat) (value : BitVec w) (m : Sparse w)
    (h : other ≠ key) : Sparse.get other (Sparse.set key value m) = Sparse.get other m := by
  simp [Sparse.get_set, h]

@[simp] theorem Sparse.wf_nil {w : Nat} (bound : Nat) : Sparse.wf bound ([] : Sparse w) = true := rfl

theorem Sparse.wf_cons {w : Nat} (bound k : Nat) (v : BitVec w) (m : Sparse w) :
    Sparse.wf bound ((k, v) :: m) = true ↔
      (∀ e ∈ m, k < e.1) ∧ v ≠ 0#w ∧ k < bound ∧ Sparse.wf bound m = true := by
  simp only [Sparse.wf, List.map_cons, List.pairwise_cons, List.mem_map, List.all_cons, Bool.and_eq_true,
    decide_eq_true_eq, bne_iff_ne]
  grind

theorem Sparse.erase_wf {w : Nat} (bound key : Nat) (m : Sparse w) (h : Sparse.wf bound m = true) :
    Sparse.wf bound (Sparse.erase key m) = true := by
  induction m with
  | nil => exact h
  | cons e m ih =>
    obtain ⟨k, v⟩ := e
    rw [Sparse.wf_cons] at h
    obtain ⟨h1, h2, h3, h4⟩ := h
    by_cases hk : k = key
    · simpa [Sparse.erase, hk] using ih h4
    · have : Sparse.erase key ((k, v) :: m) = (k, v) :: Sparse.erase key m := by
        simp [Sparse.erase, hk]
      rw [this, Sparse.wf_cons]
      exact ⟨fun e he => h1 e (List.mem_of_mem_filter he), h2, h3, ih h4⟩

theorem Sparse.mem_insert {w : Nat} (key : Nat) (value : BitVec w) (m : Sparse w) (e : Nat × BitVec w)
    (h : e ∈ Sparse.insert key value m) : e = (key, value) ∨ e ∈ m := by
  induction m with
  | nil => simpa [Sparse.insert] using h
  | cons a m ih =>
    obtain ⟨k, v⟩ := a
    simp only [Sparse.insert] at h
    split at h <;> grind

theorem Sparse.insert_wf {w : Nat} (bound key : Nat) (value : BitVec w) (m : Sparse w)
    (h : Sparse.wf bound m = true) (hk : ∀ e ∈ m, e.1 ≠ key) (hv : value ≠ 0#w) (hb : key < bound) :
    Sparse.wf bound (Sparse.insert key value m) = true := by
  induction m with
  | nil => simp [Sparse.insert, Sparse.wf_cons, hv, hb]
  | cons e m ih =>
    obtain ⟨k, v⟩ := e
    have hne : k ≠ key := hk (k, v) (by simp)
    have h' := (Sparse.wf_cons ..).1 h
    obtain ⟨h1, h2, h3, h4⟩ := h'
    simp only [Sparse.insert]
    split
    · rw [Sparse.wf_cons]
      refine ⟨?_, hv, hb, h⟩
      intro e he
      rcases List.mem_cons.1 he with rfl | he
      · assumption
      · have := h1 e he; omega
    · rw [Sparse.wf_cons]
      refine ⟨?_, h2, h3, ih h4 (fun e he => hk e (by simp [he]))⟩
      intro e he
      rcases Sparse.mem_insert _ _ _ _ he with rfl | he
      · simp only; omega
      · exact h1 e he

/-- Every write keeps the canonical form. -/
theorem Sparse.set_wf {w : Nat} (bound key : Nat) (value : BitVec w) (m : Sparse w)
    (h : Sparse.wf bound m = true) (hb : key < bound) : Sparse.wf bound (Sparse.set key value m) = true := by
  unfold Sparse.set
  split
  · exact Sparse.erase_wf _ _ _ h
  · exact Sparse.insert_wf _ _ _ _ (Sparse.erase_wf _ _ _ h) (Sparse.erase_keys key m) ‹_› hb

end Sys2Proof.Machine
end

