-- ==== Sys2Proof/Laws/State.lean ====
section
/-! SUPPORT. One lemma per field per update, and the read-after-write laws of the registers. -/

namespace Sys2Proof.Machine

@[simp] theorem writeSr_bank (v : Word) (s : State) : (writeSr v s).bank = s.bank := rfl
@[simp] theorem writeSr_hi (v : Word) (s : State) : (writeSr v s).hi = s.hi := rfl
@[simp] theorem writeSr_sr (v : Word) (s : State) : (writeSr v s).sr = srFixed Config.srUnusedBits v := rfl
@[simp] theorem writeSr_pc (v : Word) (s : State) : (writeSr v s).pc = s.pc := rfl
@[simp] theorem writeSr_srSave (v : Word) (s : State) : (writeSr v s).srSave = s.srSave := rfl
@[simp] theorem writeSr_pcSave (v : Word) (s : State) : (writeSr v s).pcSave = s.pcSave := rfl
@[simp] theorem writeSr_inIsr (v : Word) (s : State) : (writeSr v s).inIsr = s.inIsr := rfl
@[simp] theorem writeSr_halted (v : Word) (s : State) : (writeSr v s).halted = s.halted := rfl
@[simp] theorem writeSr_mem (v : Word) (s : State) : (writeSr v s).mem = s.mem := rfl
@[simp] theorem writeSr_intSource (v : Word) (s : State) : (writeSr v s).intSource = s.intSource := rfl
@[simp] theorem writeSr_device (v : Word) (s : State) : (writeSr v s).device = s.device := rfl

@[simp] theorem writeFlags_bank (f : FlagWrites) (s : State) : (writeFlags f s).bank = s.bank := rfl
@[simp] theorem writeFlags_hi (f : FlagWrites) (s : State) : (writeFlags f s).hi = s.hi := rfl
@[simp] theorem writeFlags_sr (f : FlagWrites) (s : State) : (writeFlags f s).sr = f.apply s.sr := rfl
@[simp] theorem writeFlags_pc (f : FlagWrites) (s : State) : (writeFlags f s).pc = s.pc := rfl
@[simp] theorem writeFlags_srSave (f : FlagWrites) (s : State) : (writeFlags f s).srSave = s.srSave := rfl
@[simp] theorem writeFlags_pcSave (f : FlagWrites) (s : State) : (writeFlags f s).pcSave = s.pcSave := rfl
@[simp] theorem writeFlags_inIsr (f : FlagWrites) (s : State) : (writeFlags f s).inIsr = s.inIsr := rfl
@[simp] theorem writeFlags_halted (f : FlagWrites) (s : State) : (writeFlags f s).halted = s.halted := rfl
@[simp] theorem writeFlags_mem (f : FlagWrites) (s : State) : (writeFlags f s).mem = s.mem := rfl
@[simp] theorem writeFlags_intSource (f : FlagWrites) (s : State) : (writeFlags f s).intSource = s.intSource := rfl
@[simp] theorem writeFlags_device (f : FlagWrites) (s : State) : (writeFlags f s).device = s.device := rfl

@[simp] theorem takeInterrupt_bank (a : Word) (s : State) : (takeInterrupt a s).bank = s.bank := rfl
@[simp] theorem takeInterrupt_hi (a : Word) (s : State) : (takeInterrupt a s).hi = s.hi := rfl
@[simp] theorem takeInterrupt_sr (a : Word) (s : State) : (takeInterrupt a s).sr = s.sr := rfl
@[simp] theorem takeInterrupt_pc (a : Word) (s : State) : (takeInterrupt a s).pc = a := rfl
@[simp] theorem takeInterrupt_srSave (a : Word) (s : State) : (takeInterrupt a s).srSave = readSr s := rfl
@[simp] theorem takeInterrupt_pcSave (a : Word) (s : State) : (takeInterrupt a s).pcSave = s.pc := rfl
@[simp] theorem takeInterrupt_inIsr (a : Word) (s : State) : (takeInterrupt a s).inIsr = true := rfl
@[simp] theorem takeInterrupt_halted (a : Word) (s : State) : (takeInterrupt a s).halted = s.halted := rfl
@[simp] theorem takeInterrupt_mem (a : Word) (s : State) : (takeInterrupt a s).mem = s.mem := rfl
@[simp] theorem takeInterrupt_intSource (a : Word) (s : State) : (takeInterrupt a s).intSource = s.intSource := rfl
@[simp] theorem takeInterrupt_device (a : Word) (s : State) : (takeInterrupt a s).device = s.device := rfl

@[simp] theorem returnFromInterrupt_bank (s : State) : (returnFromInterrupt s).bank = s.bank := rfl
@[simp] theorem returnFromInterrupt_hi (s : State) : (returnFromInterrupt s).hi = s.hi := rfl
@[simp] theorem returnFromInterrupt_sr (s : State) : (returnFromInterrupt s).sr = srFixed Config.srUnusedBits s.srSave := rfl
@[simp] theorem returnFromInterrupt_pc (s : State) : (returnFromInterrupt s).pc = s.pcSave := rfl
@[simp] theorem returnFromInterrupt_srSave (s : State) : (returnFromInterrupt s).srSave = s.srSave := rfl
@[simp] theorem returnFromInterrupt_pcSave (s : State) : (returnFromInterrupt s).pcSave = s.pcSave := rfl
@[simp] theorem returnFromInterrupt_inIsr (s : State) : (returnFromInterrupt s).inIsr = false := rfl
@[simp] theorem returnFromInterrupt_halted (s : State) : (returnFromInterrupt s).halted = s.halted := rfl
@[simp] theorem returnFromInterrupt_mem (s : State) : (returnFromInterrupt s).mem = s.mem := rfl
@[simp] theorem returnFromInterrupt_intSource (s : State) : (returnFromInterrupt s).intSource = s.intSource := rfl
@[simp] theorem returnFromInterrupt_device (s : State) : (returnFromInterrupt s).device = s.device := rfl

@[simp] theorem jumpTo_bank (a : Word) (s : State) : (jumpTo a s).bank = s.bank := rfl
@[simp] theorem jumpTo_hi (a : Word) (s : State) : (jumpTo a s).hi = s.hi := rfl
@[simp] theorem jumpTo_sr (a : Word) (s : State) : (jumpTo a s).sr = s.sr := rfl
@[simp] theorem jumpTo_pc (a : Word) (s : State) : (jumpTo a s).pc = a := rfl
@[simp] theorem jumpTo_srSave (a : Word) (s : State) : (jumpTo a s).srSave = s.srSave := rfl
@[simp] theorem jumpTo_pcSave (a : Word) (s : State) : (jumpTo a s).pcSave = s.pcSave := rfl
@[simp] theorem jumpTo_inIsr (a : Word) (s : State) : (jumpTo a s).inIsr = s.inIsr := rfl
@[simp] theorem jumpTo_halted (a : Word) (s : State) : (jumpTo a s).halted = s.halted := rfl
@[simp] theorem jumpTo_mem (a : Word) (s : State) : (jumpTo a s).mem = s.mem := rfl
@[simp] theorem jumpTo_intSource (a : Word) (s : State) : (jumpTo a s).intSource = s.intSource := rfl
@[simp] theorem jumpTo_device (a : Word) (s : State) : (jumpTo a s).device = s.device := rfl

@[simp] theorem writeReg_lo_bank (i : Fin 8) (v : Word) (s : State) : (writeReg (.lo i) v s).bank = Sparse.set (bankKey (currentPage s) i) v s.bank := rfl
@[simp] theorem writeReg_lo_hi (i : Fin 8) (v : Word) (s : State) : (writeReg (.lo i) v s).hi = s.hi := rfl
@[simp] theorem writeReg_lo_sr (i : Fin 8) (v : Word) (s : State) : (writeReg (.lo i) v s).sr = s.sr := rfl
@[simp] theorem writeReg_lo_pc (i : Fin 8) (v : Word) (s : State) : (writeReg (.lo i) v s).pc = s.pc := rfl
@[simp] theorem writeReg_lo_srSave (i : Fin 8) (v : Word) (s : State) : (writeReg (.lo i) v s).srSave = s.srSave := rfl
@[simp] theorem writeReg_lo_pcSave (i : Fin 8) (v : Word) (s : State) : (writeReg (.lo i) v s).pcSave = s.pcSave := rfl
@[simp] theorem writeReg_lo_inIsr (i : Fin 8) (v : Word) (s : State) : (writeReg (.lo i) v s).inIsr = s.inIsr := rfl
@[simp] theorem writeReg_lo_halted (i : Fin 8) (v : Word) (s : State) : (writeReg (.lo i) v s).halted = s.halted := rfl
@[simp] theorem writeReg_lo_mem (i : Fin 8) (v : Word) (s : State) : (writeReg (.lo i) v s).mem = s.mem := rfl
@[simp] theorem writeReg_lo_intSource (i : Fin 8) (v : Word) (s : State) : (writeReg (.lo i) v s).intSource = s.intSource := rfl
@[simp] theorem writeReg_lo_device (i : Fin 8) (v : Word) (s : State) : (writeReg (.lo i) v s).device = s.device := rfl

@[simp] theorem writeReg_hi_bank (i : Fin 6) (v : Word) (s : State) : (writeReg (.hi i) v s).bank = s.bank := rfl
@[simp] theorem writeReg_hi_hi (i : Fin 6) (v : Word) (s : State) : (writeReg (.hi i) v s).hi = s.hi.set i.val v := rfl
@[simp] theorem writeReg_hi_sr (i : Fin 6) (v : Word) (s : State) : (writeReg (.hi i) v s).sr = s.sr := rfl
@[simp] theorem writeReg_hi_pc (i : Fin 6) (v : Word) (s : State) : (writeReg (.hi i) v s).pc = s.pc := rfl
@[simp] theorem writeReg_hi_srSave (i : Fin 6) (v : Word) (s : State) : (writeReg (.hi i) v s).srSave = s.srSave := rfl
@[simp] theorem writeReg_hi_pcSave (i : Fin 6) (v : Word) (s : State) : (writeReg (.hi i) v s).pcSave = s.pcSave := rfl
@[simp] theorem writeReg_hi_inIsr (i : Fin 6) (v : Word) (s : State) : (writeReg (.hi i) v s).inIsr = s.inIsr := rfl
@[simp] theorem writeReg_hi_halted (i : Fin 6) (v : Word) (s : State) : (writeReg (.hi i) v s).halted = s.halted := rfl
@[simp] theorem writeReg_hi_mem (i : Fin 6) (v : Word) (s : State) : (writeReg (.hi i) v s).mem = s.mem := rfl
@[simp] theorem writeReg_hi_intSource (i : Fin 6) (v : Word) (s : State) : (writeReg (.hi i) v s).intSource = s.intSource := rfl
@[simp] theorem writeReg_hi_device (i : Fin 6) (v : Word) (s : State) : (writeReg (.hi i) v s).device = s.device := rfl

@[simp] theorem writeReg_sr_bank (v : Word) (s : State) : (writeReg .sr v s).bank = s.bank := rfl
@[simp] theorem writeReg_sr_hi (v : Word) (s : State) : (writeReg .sr v s).hi = s.hi := rfl
@[simp] theorem writeReg_sr_sr (v : Word) (s : State) : (writeReg .sr v s).sr = srFixed Config.srUnusedBits v := rfl
@[simp] theorem writeReg_sr_pc (v : Word) (s : State) : (writeReg .sr v s).pc = s.pc := rfl
@[simp] theorem writeReg_sr_srSave (v : Word) (s : State) : (writeReg .sr v s).srSave = s.srSave := rfl
@[simp] theorem writeReg_sr_pcSave (v : Word) (s : State) : (writeReg .sr v s).pcSave = s.pcSave := rfl
@[simp] theorem writeReg_sr_inIsr (v : Word) (s : State) : (writeReg .sr v s).inIsr = s.inIsr := rfl
@[simp] theorem writeReg_sr_halted (v : Word) (s : State) : (writeReg .sr v s).halted = s.halted := rfl
@[simp] theorem writeReg_sr_mem (v : Word) (s : State) : (writeReg .sr v s).mem = s.mem := rfl
@[simp] theorem writeReg_sr_intSource (v : Word) (s : State) : (writeReg .sr v s).intSource = s.intSource := rfl
@[simp] theorem writeReg_sr_device (v : Word) (s : State) : (writeReg .sr v s).device = s.device := rfl

@[simp] theorem writeReg_pc_bank (v : Word) (s : State) : (writeReg .pc v s).bank = s.bank := rfl
@[simp] theorem writeReg_pc_hi (v : Word) (s : State) : (writeReg .pc v s).hi = s.hi := rfl
@[simp] theorem writeReg_pc_sr (v : Word) (s : State) : (writeReg .pc v s).sr = s.sr := rfl
@[simp] theorem writeReg_pc_pc (v : Word) (s : State) : (writeReg .pc v s).pc = v := rfl
@[simp] theorem writeReg_pc_srSave (v : Word) (s : State) : (writeReg .pc v s).srSave = s.srSave := rfl
@[simp] theorem writeReg_pc_pcSave (v : Word) (s : State) : (writeReg .pc v s).pcSave = s.pcSave := rfl
@[simp] theorem writeReg_pc_inIsr (v : Word) (s : State) : (writeReg .pc v s).inIsr = s.inIsr := rfl
@[simp] theorem writeReg_pc_halted (v : Word) (s : State) : (writeReg .pc v s).halted = s.halted := rfl
@[simp] theorem writeReg_pc_mem (v : Word) (s : State) : (writeReg .pc v s).mem = s.mem := rfl
@[simp] theorem writeReg_pc_intSource (v : Word) (s : State) : (writeReg .pc v s).intSource = s.intSource := rfl
@[simp] theorem writeReg_pc_device (v : Word) (s : State) : (writeReg .pc v s).device = s.device := rfl

@[simp] theorem writeReg_srSave (r : Reg) (v : Word) (s : State) : (writeReg r v s).srSave = s.srSave := by cases r <;> rfl
@[simp] theorem writeReg_pcSave (r : Reg) (v : Word) (s : State) : (writeReg r v s).pcSave = s.pcSave := by cases r <;> rfl
@[simp] theorem writeReg_inIsr (r : Reg) (v : Word) (s : State) : (writeReg r v s).inIsr = s.inIsr := by cases r <;> rfl
@[simp] theorem writeReg_halted (r : Reg) (v : Word) (s : State) : (writeReg r v s).halted = s.halted := by cases r <;> rfl
@[simp] theorem writeReg_mem (r : Reg) (v : Word) (s : State) : (writeReg r v s).mem = s.mem := by cases r <;> rfl
@[simp] theorem writeReg_intSource (r : Reg) (v : Word) (s : State) : (writeReg r v s).intSource = s.intSource := by cases r <;> rfl
@[simp] theorem writeReg_device (r : Reg) (v : Word) (s : State) : (writeReg r v s).device = s.device := by cases r <;> rfl

@[simp] theorem locateState_srSave (o : Operand) (s : State) : (locateState o s).srSave = s.srSave := by
  unfold locateState; split <;> simp
@[simp] theorem locateState_pcSave (o : Operand) (s : State) : (locateState o s).pcSave = s.pcSave := by
  unfold locateState; split <;> simp
@[simp] theorem locateState_inIsr (o : Operand) (s : State) : (locateState o s).inIsr = s.inIsr := by
  unfold locateState; split <;> simp
@[simp] theorem locateState_halted (o : Operand) (s : State) : (locateState o s).halted = s.halted := by
  unfold locateState; split <;> simp
@[simp] theorem locateState_mem (o : Operand) (s : State) : (locateState o s).mem = s.mem := by
  unfold locateState; split <;> simp
@[simp] theorem locateState_intSource (o : Operand) (s : State) : (locateState o s).intSource = s.intSource := by
  unfold locateState; split <;> simp
@[simp] theorem locateState_device (o : Operand) (s : State) : (locateState o s).device = s.device := by
  unfold locateState; split <;> simp

@[simp] theorem dstFinish_srSave (o : Operand) (s : State) : (dstFinish o s).srSave = s.srSave := by
  unfold dstFinish; split <;> simp
@[simp] theorem dstFinish_pcSave (o : Operand) (s : State) : (dstFinish o s).pcSave = s.pcSave := by
  unfold dstFinish; split <;> simp
@[simp] theorem dstFinish_inIsr (o : Operand) (s : State) : (dstFinish o s).inIsr = s.inIsr := by
  unfold dstFinish; split <;> simp
@[simp] theorem dstFinish_halted (o : Operand) (s : State) : (dstFinish o s).halted = s.halted := by
  unfold dstFinish; split <;> simp
@[simp] theorem dstFinish_mem (o : Operand) (s : State) : (dstFinish o s).mem = s.mem := by
  unfold dstFinish; split <;> simp
@[simp] theorem dstFinish_intSource (o : Operand) (s : State) : (dstFinish o s).intSource = s.intSource := by
  unfold dstFinish; split <;> simp
@[simp] theorem dstFinish_device (o : Operand) (s : State) : (dstFinish o s).device = s.device := by
  unfold dstFinish; split <;> simp

@[simp] theorem readReg_pc (s : State) : readReg s .pc = s.pc := rfl
@[simp] theorem readReg_hi (s : State) (i : Fin 6) : readReg s (.hi i) = s.hi[i.val] := rfl
@[simp] theorem readReg_lo (s : State) (i : Fin 8) : readReg s (.lo i) = readBank s (currentPage s) i := rfl
@[simp] theorem readReg_sr (s : State) : readReg s .sr = readSr s := rfl

theorem bankKey_inj (p q : BitVec 8) (i j : Fin 8) : bankKey p i = bankKey q j ↔ p = q ∧ i = j := by
  unfold bankKey
  constructor
  · intro h
    exact ⟨BitVec.eq_of_toNat_eq (by omega), Fin.ext (by omega)⟩
  · rintro ⟨rfl, rfl⟩; rfl

theorem bankKey_lt (p : BitVec 8) (i : Fin 8) : bankKey p i < bankRegisters := by
  have := p.isLt
  unfold bankKey bankRegisters
  omega

/-- A write to a register of the window reaches the current page and no other register of the bank
(10_state R21, R24). -/
theorem readBank_writeReg_lo (s : State) (i j : Fin 8) (v : Word) (p : BitVec 8) :
    readBank (writeReg (.lo i) v s) p j = if p = currentPage s ∧ j = i then v else readBank s p j := by
  simp [readBank, Sparse.get_set, bankKey_inj]

theorem readBank_writeReg_other (s : State) (r : Reg) (v : Word) (p : BitVec 8) (j : Fin 8)
    (h : r ≠ .lo j) : readBank (writeReg r v s) p j = readBank s p j := by
  cases r with
  | lo i =>
    rw [readBank_writeReg_lo, if_neg]
    rintro ⟨_, rfl⟩
    exact h rfl
  | hi i => rfl
  | sr => rfl
  | pc => rfl

theorem hi_writeReg_other (s : State) (r : Reg) (v : Word) (i : Fin 6) (h : r ≠ .hi i) :
    (writeReg r v s).hi[i.val] = s.hi[i.val] := by
  cases r with
  | hi j =>
    have : j.val ≠ i.val := fun e => h (congrArg Reg.hi (Fin.ext e))
    simp [this]
  | lo i => rfl
  | sr => rfl
  | pc => rfl

theorem sr_writeReg_other (s : State) (r : Reg) (v : Word) (h : r ≠ .sr) : (writeReg r v s).sr = s.sr := by
  cases r <;> first | rfl | exact absurd rfl h

theorem pc_writeReg_other (s : State) (r : Reg) (v : Word) (h : r ≠ .pc) : (writeReg r v s).pc = s.pc := by
  cases r <;> first | rfl | exact absurd rfl h

/-- Reading the register just written (10_state R23, R24, R33). -/
theorem readReg_writeReg_same (s : State) (r : Reg) (v : Word) :
    readReg (writeReg r v s) r = if r = .sr then srFixed Config.srUnusedBits v else v := by
  cases r with
  | lo i =>
    have : currentPage (writeReg (.lo i) v s) = currentPage s := rfl
    simp [this, readBank_writeReg_lo]
  | hi i => simp
  | sr => simp only [readReg_sr, readSr, writeReg_sr_sr, srFixed_idem, if_true]
  | pc => simp

/-- Reading another register, when the window has not moved (10_state R24). -/
theorem readReg_writeReg_other (s : State) (r q : Reg) (v : Word) (h : q ≠ r) (hr : r ≠ .sr) :
    readReg (writeReg r v s) q = readReg s q := by
  have hsr := sr_writeReg_other s r v hr
  have hp : currentPage (writeReg r v s) = currentPage s := by simp only [currentPage, hsr]
  cases q with
  | lo i => simp only [readReg_lo, hp, readBank_writeReg_other s r v _ i h.symm]
  | hi i => exact hi_writeReg_other s r v i h.symm
  | sr => simp only [readReg_sr, readSr, hsr]
  | pc => exact pc_writeReg_other s r v h.symm

@[simp] theorem currentPage_writeFlags (f : FlagWrites) (s : State) :
    currentPage (writeFlags f s) = currentPage s := by simp [currentPage]

/-- Writing flags changes no register but R14. -/
theorem readReg_writeFlags (f : FlagWrites) (s : State) (r : Reg) (h : r ≠ .sr) :
    readReg (writeFlags f s) r = readReg s r := by
  cases r with
  | lo i => simp only [readReg_lo, currentPage_writeFlags]; rfl
  | hi i => rfl
  | sr => exact absurd rfl h
  | pc => rfl

/-- The flags read after an instruction's flag writes (10_state R35). -/
theorem readFlag_writeFlags (f : FlagWrites) (s : State) (k : Nat) :
    readFlag (writeFlags f s) k = (f.apply (readSr s)).getLsbD k := by
  simp only [readFlag, readSr, writeFlags_sr, Config_srUnusedBits, srFixed_apply]

end Sys2Proof.Machine
end

