-- ==== Sys2Proof/Laws/Ops.lean ====
section
/-! SUPPORT. For each shared operation over memory, the stack and interrupts, what it can do; and that
each keeps the invariant. -/

namespace Sys2Proof.Machine

@[simp] theorem andThen_next {α β : Type} (a : α) (f : α → Res β) : andThen (.next a) f = f a := rfl
@[simp] theorem andThen_fault {α β : Type} (e : Fault) (f : α → Res β) : andThen (.fault e) f = .fault e := rfl
@[simp] theorem andThen_refused {α β : Type} (e : Refusal) (f : α → Res β) :
    andThen (.refused e) f = .refused e := rfl

/-- A sequence that answers a next state: both parts did. -/
theorem andThen_eq_next {α β : Type} (r : Res α) (f : α → Res β) (b : β) :
    andThen r f = .next b ↔ ∃ a, r = .next a ∧ f a = .next b := by
  cases r <;> simp

theorem andThen_eq_fault {α β : Type} (r : Res α) (f : α → Res β) (e : Fault) :
    andThen r f = .fault e ↔ r = .fault e ∨ ∃ a, r = .next a ∧ f a = .fault e := by
  cases r <;> simp

theorem andThen_eq_refused {α β : Type} (r : Res α) (f : α → Res β) (e : Refusal) :
    andThen r f = .refused e ↔ r = .refused e ∨ ∃ a, r = .next a ∧ f a = .refused e := by
  cases r <;> simp

theorem inIoPage_eq_false (a : Word) : inIoPage a = false ↔ a.toNat < 0xFF00 := by simp [inIoPage]

/-- Every byte after a store of a word: the two cells of the word hold it, all others are unchanged
(20_memory R64, R66). -/
theorem readByte_writeWord (a v : Word) (m : Memory) (c : Nat) :
    readByte (writeWord a v m) c =
      if c = 2 * a.toNat + 1 then v.extractLsb' 8 8 else if c = 2 * a.toNat then v.extractLsb' 0 8
      else readByte m c := by
  simp only [readByte, writeWord, Sparse.get_set]

theorem readWord_writeWord_same (a v : Word) (m : Memory) : readWord (writeWord a v m) a = v := by
  have h : 2 * a.toNat ≠ 2 * a.toNat + 1 := by omega
  simp only [readWord, readByte_writeWord, if_true, if_neg h]
  apply BitVec.eq_of_getLsbD_eq
  intro k hk
  simp only [BitVec.getLsbD_append, BitVec.getLsbD_extractLsb']
  split
  · simp [*]
  · have : 8 + (k - 8) = k := by omega
    have h8 : k - 8 < 8 := by omega
    simp [this, h8]

theorem readWord_writeWord_other (a b v : Word) (m : Memory) (h : b ≠ a) :
    readWord (writeWord a v m) b = readWord m b := by
  have hn : b.toNat ≠ a.toNat := fun e => h (BitVec.eq_of_toNat_eq e)
  have h1 : 2 * b.toNat + 1 ≠ 2 * a.toNat + 1 := by omega
  have h2 : 2 * b.toNat + 1 ≠ 2 * a.toNat := by omega
  have h3 : 2 * b.toNat ≠ 2 * a.toNat + 1 := by omega
  have h4 : 2 * b.toNat ≠ 2 * a.toNat := by omega
  simp only [readWord, readByte_writeWord, h1, h2, h3, h4, if_false]

/-- Every store to memory keeps the canonical form. -/
theorem writeWord_wf (a v : Word) (m : Memory) (h : Memory.wf m = true) (ha : inIoPage a = false) :
    Memory.wf (writeWord a v m) = true := by
  have := (inIoPage_eq_false a).1 ha
  unfold Memory.wf writeWord memoryCells at *
  exact Sparse.set_wf _ _ _ _ (Sparse.set_wf _ _ _ _ h (by omega)) (by omega)

/-- The memory of the machine after reset is in canonical form. -/
theorem reset_memory_wf : Memory.wf State.reset.mem = true := rfl

/-- All that `MemRead` can do. -/
theorem memRead_eq_next (a : Word) (s : State) (r : Word × State) :
    memRead a s = .next r ↔
      (inIoPage a = false ∧ r = (readWord s.mem a, s)) ∨
      (inIoPage a = true ∧ ∃ h, s.device = some h ∧
        r = (Config.ioAnswer h a, { s with device := some (.read a :: h) })) := by
  unfold memRead
  cases inIoPage a <;> rcases hd : s.device with _ | h <;> simp [eq_comm]

theorem memRead_ne_fault (a : Word) (s : State) (e : Fault) : memRead a s ≠ .fault e := by
  unfold memRead; split <;> [split; skip] <;> simp

theorem memRead_eq_refused (a : Word) (s : State) (e : Refusal) :
    memRead a s = .refused e ↔ inIoPage a = true ∧ s.device = none ∧ e = .noIODevice a := by
  unfold memRead
  cases inIoPage a <;> rcases hd : s.device with _ | h <;> simp [eq_comm]

/-- All that `MemWrite` can do. -/
theorem memWrite_eq_next (a v : Word) (s t : State) :
    memWrite a v s = .next t ↔
      (inIoPage a = false ∧ t = { s with mem := writeWord a v s.mem }) ∨
      (inIoPage a = true ∧ ∃ h, s.device = some h ∧ t = { s with device := some (.write a v :: h) }) := by
  unfold memWrite
  cases inIoPage a <;> rcases hd : s.device with _ | h <;> simp [eq_comm]

theorem memWrite_ne_fault (a v : Word) (s : State) (e : Fault) : memWrite a v s ≠ .fault e := by
  unfold memWrite; split <;> [split; skip] <;> simp

theorem memWrite_eq_refused (a v : Word) (s : State) (e : Refusal) :
    memWrite a v s = .refused e ↔ inIoPage a = true ∧ s.device = none ∧ e = .noIODevice a := by
  unfold memWrite
  cases inIoPage a <;> rcases hd : s.device with _ | h <;> simp [eq_comm]

/-- A read has a step exactly at an accessible address. -/
theorem memRead_total (a : Word) (s : State) : accessible s a = true ↔ ∃ r, memRead a s = .next r := by
  unfold accessible memRead
  cases inIoPage a <;> rcases hd : s.device with _ | h <;> simp

theorem memWrite_total (a v : Word) (s : State) : accessible s a = true ↔ ∃ t, memWrite a v s = .next t := by
  unfold accessible memWrite
  cases inIoPage a <;> rcases hd : s.device with _ | h <;> simp

/-- What a read leaves: everything but the device's history. -/
theorem memRead_state (a : Word) (s : State) (r : Word × State) (h : memRead a s = .next r) :
    r.2 = { s with device := r.2.device } ∧ r.2.device.isSome = s.device.isSome := by
  rcases (memRead_eq_next a s r).1 h with ⟨_, rfl⟩ | ⟨_, h', hd, rfl⟩ <;> simp [*]

/-- What a write leaves: everything but memory and the device's history. -/
theorem memWrite_state (a v : Word) (s t : State) (h : memWrite a v s = .next t) :
    t = { s with mem := t.mem, device := t.device } ∧ t.device.isSome = s.device.isSome := by
  rcases (memWrite_eq_next a v s t).1 h with ⟨_, rfl⟩ | ⟨_, h', hd, rfl⟩ <;> simp [*]

theorem wf_iff (s : State) :
    s.wf = true ↔ Memory.wf s.mem = true ∧ Bank.wf s.bank = true ∧
      srFixed .zero s.sr = s.sr ∧ (s.inIsr = true → srFixed .zero s.srSave = s.srSave) := by
  cases h : s.inIsr <;> simp [State.wf, and_assoc, h]

theorem memRead_wf (a : Word) (s : State) (r : Word × State) (h : memRead a s = .next r) :
    r.2.wf = s.wf := by
  rw [(memRead_state a s r h).1]; rfl

theorem memWrite_wf (a v : Word) (s t : State) (h : memWrite a v s = .next t) (hw : s.wf = true) :
    t.wf = true := by
  rcases (memWrite_eq_next a v s t).1 h with ⟨ha, rfl⟩ | ⟨_, h', hd, rfl⟩
  · rw [wf_iff] at *
    exact ⟨writeWord_wf a v _ hw.1 ha, hw.2⟩
  · exact hw

theorem writeReg_wf (r : Reg) (v : Word) (s : State) (hw : s.wf = true) : (writeReg r v s).wf = true := by
  rw [wf_iff] at *
  cases r with
  | lo i => exact ⟨hw.1, Sparse.set_wf _ _ _ _ hw.2.1 (bankKey_lt _ _), hw.2.2⟩
  | hi i => exact hw
  | sr => exact ⟨hw.1, hw.2.1, srFixed_idem _ _, hw.2.2.2⟩
  | pc => exact hw

theorem writeFlags_wf (f : FlagWrites) (s : State) (hw : s.wf = true) : (writeFlags f s).wf = true := by
  rw [wf_iff] at *
  refine ⟨hw.1, hw.2.1, ?_, hw.2.2.2⟩
  rw [writeFlags_sr, srFixed_apply, hw.2.2.1]

theorem takeInterrupt_wf (a : Word) (s : State) (hw : s.wf = true) : (takeInterrupt a s).wf = true := by
  rw [wf_iff] at *
  exact ⟨hw.1, hw.2.1, hw.2.2.1, fun _ => srFixed_idem _ _⟩

theorem returnFromInterrupt_wf (s : State) (hw : s.wf = true) : (returnFromInterrupt s).wf = true := by
  rw [wf_iff] at *
  exact ⟨hw.1, hw.2.1, srFixed_idem _ _, fun h => absurd h (by simp)⟩

/-- A register write changes that register and nothing else (10_state R24, R25). -/
theorem onlyRegChanged_writeReg (r : Reg) (v : Word) (s : State) : onlyRegChanged r s (writeReg r v s) := by
  refine ⟨fun k hk => hi_writeReg_other _ _ _ _ hk, fun p k hk => ?_, fun hk => pc_writeReg_other _ _ _ hk,
    fun hk => sr_writeReg_other _ _ _ hk, by simp, by simp, by simp [sameHidden]⟩
  by_cases hr : r = .lo k
  · subst hr
    rw [readBank_writeReg_lo, if_neg]
    rintro ⟨e, _⟩
    exact hk.elim (fun h => h rfl) (fun h => h e)
  · exact readBank_writeReg_other _ _ _ _ _ hr

/-- `Push` is a decrement of R13 and a write at the new R13 (45_branch R230). -/
theorem push_eq (v : Word) (s : State) :
    push v s = memWrite (readReg s .sp - 1) v (writeReg .sp (readReg s .sp - 1) s) := by
  have h := readReg_writeReg_same s .sp (readReg s .sp - 1)
  rw [if_neg (by decide)] at h
  simp only [push, h]

theorem push_wf (v : Word) (s t : State) (h : push v s = .next t) (hw : s.wf = true) : t.wf = true := by
  rw [push_eq] at h
  exact memWrite_wf _ _ _ _ h (writeReg_wf _ _ _ hw)

end Sys2Proof.Machine
end

