-- ==== Sys2Proof/Laws/Step.lean ====
section
/-! SUPPORT. What an instruction boundary, a fetch and a step can do. -/

namespace Sys2Proof.Machine

/-- All that an instruction boundary can be (60_exceptions R255, R256, R257). -/
theorem boundary_cases (s : State) :
    (s.halted = true ∧ boundary s = .stuck) ∨
    (s.halted = false ∧ s.inIsr = false ∧ ∃ isr rest, s.intSource = some isr :: rest ∧
      boundary s = .enter (takeInterrupt isr { s with intSource := rest })) ∨
    (s.halted = false ∧ boundary s = .run { s with intSource := s.intSource.tail }) := by
  unfold boundary
  cases hh : s.halted
  · right
    rcases hI : s.intSource with _ | ⟨_ | isr, rest⟩
    · right
      simp only [Bool.false_eq_true, if_false, List.tail_nil, true_and]
      congr 1
      rw [← hI, ← hh]
    · exact .inr ⟨rfl, rfl⟩
    · cases hs : s.inIsr
      · exact .inl ⟨rfl, rfl, isr, rest, rfl, rfl⟩
      · exact .inr ⟨rfl, rfl⟩
  · exact .inl ⟨rfl, rfl⟩

/-- What a fetch leaves: the pc advanced by one word, and at most a read in the device's history
(40_operands R130). -/
theorem fetch_eq_next {s t : State} {w : Word} (h : fetch s = .next (w, t)) :
    t = { s with pc := s.pc + 1, device := t.device } ∧ t.device.isSome = s.device.isSome := by
  obtain ⟨⟨v, u⟩, h1, h2⟩ := (andThen_eq_next ..).1 h
  have := memRead_state _ _ _ h1
  simp only [Host.Outcome.next.injEq, Prod.mk.injEq] at h2 this
  obtain ⟨rfl, rfl⟩ := h2
  simp only at *
  exact ⟨by rw [this.1], this.2⟩

/-- All that a step can do when it gives a next state. -/
theorem step_cases (s t : State) (h : step s = .next t) :
    (s.halted = true ∧ t = s) ∨
    (s.halted = false ∧ s.inIsr = false ∧ ∃ isr rest, s.intSource = some isr :: rest ∧
      t = takeInterrupt isr { s with intSource := rest }) ∨
    (s.halted = false ∧ ∃ w u i, fetch { s with intSource := s.intSource.tail } = .next (w, u) ∧
      decode w = .instr i ∧ exec i u = .next t) := by
  unfold step at h
  rcases boundary_cases s with ⟨h1, h2⟩ | ⟨h1, h3, isr, rest, h2, h4⟩ | ⟨h1, h2⟩
  · rw [h2] at h
    cases h
    exact .inl ⟨h1, rfl⟩
  · rw [h4] at h
    cases h
    exact .inr (.inl ⟨h1, h3, isr, rest, h2, rfl⟩)
  · rw [h2] at h
    obtain ⟨⟨w, u⟩, h3, h4⟩ := (andThen_eq_next ..).1 h
    simp only [runDecoded] at h4
    split at h4
    · exact .inr (.inr ⟨h1, w, u, _, h3, ‹_›, h4⟩)
    · cases h4
    · cases h4

end Sys2Proof.Machine
end

