-- ==== Sys2Proof/Machine/Disassembler.lean ====
section
/-! DEFINITION. The disassembler's rendering of memory, which the host reads (spec 70_reset R300, 30_encoding R108,
R109, R111, R113). Where its spelling is a choice of the model, log 26 says so. -/

namespace Sys2Proof.Machine

/-- A hexadecimal digit, in capitals. -/
def hexDigit (d : Nat) : Char := Char.ofNat (if d < 10 then 48 + d else 55 + d)

/-- A word in four hexadecimal digits. -/
def hexWord (w : Word) : String :=
  String.ofList [hexDigit (w.extractLsb' 12 4).toNat, hexDigit (w.extractLsb' 8 4).toNat,
    hexDigit (w.extractLsb' 4 4).toNat, hexDigit (w.extractLsb' 0 4).toNat]

/-- A register, with two decimal digits (R113). -/
def regText (r : Reg) : String :=
  let n := (regNum r).toNat
  "R" ++ String.ofList [hexDigit (n / 10), hexDigit (n % 10)]

/-- An operand (R109): the constant it reads, when the next word in memory is one (R110), or register and mode.
`rest` are the constants that are left. -/
def operandText (o : Operand) (constants : List Word) : String × List Word :=
  match o.mode with
  | .reg => (regText o.reg, constants)
  | .ind => ("@" ++ regText o.reg, constants)
  | .decInd => ("@--" ++ regText o.reg, constants)
  | .indInc =>
    match constants with
    | c :: rest =>
      if o.reg = .pc then ("0x" ++ hexWord c, rest) else ("@" ++ regText o.reg ++ "++", constants)
    | [] => ("@" ++ regText o.reg ++ "++", [])

/-- A condition (R111). Bits 6 and 7 have no spelling in the source: they are written by number (DESIGN CHOICE,
log 26). -/
def condText (c : Cond) : String :=
  (if c.negate then "!" else "") ++
    match c.select.val with
    | 0 => "1"
    | 1 => "X"
    | 2 => "C"
    | 3 => "Z"
    | 4 => "N"
    | 5 => "V"
    | 6 => "6"
    | _ => "7"

/-- A two-operand instruction, the source's constant first in memory (R108, R110). -/
def twoOperandText (mnemonic : String) (src dst : Operand) (constants : List Word) : String :=
  let a := operandText src constants
  mnemonic ++ " " ++ a.1 ++ ", " ++ (operandText dst a.2).1

/-- A jump, branch or call (R108, R113). -/
def jumpText (mnemonic : String) (o : Operand) (c : Cond) (constants : List Word) : String :=
  mnemonic ++ " " ++ (operandText o constants).1 ++ ", " ++ condText c

/-- Mnemonic and operands of an instruction (R108, R113). The reserved opcode has no mnemonic (R103). -/
def instrText (i : Instr) (constants : List Word) : String :=
  match i with
  | .move src dst => twoOperandText "MOVE" src dst constants
  | .add src dst => twoOperandText "ADD" src dst constants
  | .addc src dst => twoOperandText "ADDC" src dst constants
  | .sub src dst => twoOperandText "SUB" src dst constants
  | .subc src dst => twoOperandText "SUBC" src dst constants
  | .shl src dst => twoOperandText "SHL" src dst constants
  | .shr src dst => twoOperandText "SHR" src dst constants
  | .swap src dst => twoOperandText "SWAP" src dst constants
  | .not src dst => twoOperandText "NOT" src dst constants
  | .and src dst => twoOperandText "AND" src dst constants
  | .or src dst => twoOperandText "OR" src dst constants
  | .xor src dst => twoOperandText "XOR" src dst constants
  | .cmp src dst => twoOperandText "CMP" src dst constants
  | .reservedD _ => ""
  | .halt _ => "HALT"
  | .rti _ => "RTI"
  | .int o => "INT " ++ (operandText o constants).1
  | .incrb _ => "INCRB"
  | .decrb _ => "DECRB"
  | .abra o c => jumpText "ABRA" o c constants
  | .asub o c => jumpText "ASUB" o c constants
  | .rbra o c => jumpText "RBRA" o c constants
  | .rsub o c => jumpText "RSUB" o c constants

/-- How many constants follow an instruction in memory: its operands `@R15++` (R102, R110). -/
def constantsAfter (i : Instr) : Nat :=
  let one (o : Operand) : Nat := if o = ⟨.pc, .indInc⟩ then 1 else 0
  match i with
  | .move src dst => one src + one dst
  | .add src dst => one src + one dst
  | .addc src dst => one src + one dst
  | .sub src dst => one src + one dst
  | .subc src dst => one src + one dst
  | .shl src dst => one src + one dst
  | .shr src dst => one src + one dst
  | .swap src dst => one src + one dst
  | .not src dst => one src + one dst
  | .and src dst => one src + one dst
  | .or src dst => one src + one dst
  | .xor src dst => one src + one dst
  | .cmp src dst => one src + one dst
  | .reservedD _ => 0
  | .halt _ => 0
  | .rti _ => 0
  | .int o => one o
  | .incrb _ => 0
  | .decrb _ => 0
  | .abra o _ => one o
  | .asub o _ => one o
  | .rbra o _ => one o
  | .rsub o _ => one o

/-- The words of memory from `a`, at most `count` of them and none of the I/O page. -/
def memoryWords (s : State) : (count : Nat) → Word → List Word
  | 0, _ => []
  | n + 1, a =>
    match s.readMemory a with
    | some w => w :: memoryWords s n (a + 1)
    | none => []

/-- How a word that is not a constant is rendered, and how many constants follow it. A word that is no instruction
is printed as the word alone (DESIGN CHOICE, log 26). -/
def renderWord (s : State) (a w : Word) : String × Nat :=
  match decode w with
  | .instr i => (instrText i (memoryWords s (constantsAfter i) (a + 1)), constantsAfter i)
  | .undefinedCommand _ => ("", 0)
  | .controlLowBits _ => ("", 0)

/-- A line: address, colon, word, and the instruction if there is one (R113). -/
def lineText (a w : Word) (instruction : String) : String :=
  hexWord a ++ ": " ++ hexWord w ++ (if instruction = "" then "" else " " ++ instruction)

/-- The lines for `count` words from `a`, of which the first `constants` belong to an instruction above and stand
on lines of their own (R113). The I/O page has no lines. -/
def listingFrom (s : State) : (count : Nat) → (constants : Nat) → Word → List String
  | 0, _, _ => []
  | n + 1, constants, a =>
    match s.readMemory a, constants with
    | none, _ => []
    | some w, k + 1 => lineText a w "" :: listingFrom s n k (a + 1)
    | some w, 0 => lineText a w (renderWord s a w).1 :: listingFrom s n (renderWord s a w).2 (a + 1)

/-- The host reads `count` words of memory from `a` with the disassembler's rendering (70_reset R300). -/
def State.listing (a : Word) (count : Nat) (s : State) : List String := listingFrom s count 0 a

end Sys2Proof.Machine
end

