-- ==== Sys2Proof/Laws/Host.lean ====
section
/-! SUPPORT. What the host's actions can do: one lemma for each field and update, the memory after a load, and the
equations of a run. -/

namespace Sys2Proof.Machine

@[simp] theorem attachDevice_bank (s : State) : (s.attachDevice).bank = s.bank := rfl
@[simp] theorem attachDevice_hi (s : State) : (s.attachDevice).hi = s.hi := rfl
@[simp] theorem attachDevice_sr (s : State) : (s.attachDevice).sr = s.sr := rfl
@[simp] theorem attachDevice_pc (s : State) : (s.attachDevice).pc = s.pc := rfl
@[simp] theorem attachDevice_srSave (s : State) : (s.attachDevice).srSave = s.srSave := rfl
@[simp] theorem attachDevice_pcSave (s : State) : (s.attachDevice).pcSave = s.pcSave := rfl
@[simp] theorem attachDevice_inIsr (s : State) : (s.attachDevice).inIsr = s.inIsr := rfl
@[simp] theorem attachDevice_halted (s : State) : (s.attachDevice).halted = s.halted := rfl
@[simp] theorem attachDevice_mem (s : State) : (s.attachDevice).mem = s.mem := rfl
@[simp] theorem attachDevice_intSource (s : State) : (s.attachDevice).intSource = s.intSource := rfl
@[simp] theorem attachDevice_device (s : State) : (s.attachDevice).device = some [] := rfl

@[simp] theorem hostReset_bank (s : State) : s.hostReset.bank = [] := rfl
@[simp] theorem hostReset_hi (s : State) : s.hostReset.hi = Vector.replicate 6 0x0000#16 := rfl
@[simp] theorem hostReset_sr (s : State) : s.hostReset.sr = Config.resetSr := rfl
@[simp] theorem hostReset_pc (s : State) : s.hostReset.pc = Config.resetPc := rfl
@[simp] theorem hostReset_srSave (s : State) : s.hostReset.srSave = 0x0000#16 := rfl
@[simp] theorem hostReset_pcSave (s : State) : s.hostReset.pcSave = 0x0000#16 := rfl
@[simp] theorem hostReset_inIsr (s : State) : s.hostReset.inIsr = false := rfl
@[simp] theorem hostReset_halted (s : State) : s.hostReset.halted = false := rfl
@[simp] theorem hostReset_mem (s : State) : s.hostReset.mem = s.mem := rfl
@[simp] theorem hostReset_intSource (s : State) : s.hostReset.intSource = s.intSource := rfl
@[simp] theorem hostReset_device (s : State) : s.hostReset.device = s.device := rfl

@[simp] theorem storeHostWord_bank (a v : Word) (s : State) : (storeHostWord a v s).bank = s.bank := by
  unfold storeHostWord; split <;> rfl
@[simp] theorem storeHostWord_hi (a v : Word) (s : State) : (storeHostWord a v s).hi = s.hi := by
  unfold storeHostWord; split <;> rfl
@[simp] theorem storeHostWord_sr (a v : Word) (s : State) : (storeHostWord a v s).sr = s.sr := by
  unfold storeHostWord; split <;> rfl
@[simp] theorem storeHostWord_pc (a v : Word) (s : State) : (storeHostWord a v s).pc = s.pc := by
  unfold storeHostWord; split <;> rfl
@[simp] theorem storeHostWord_srSave (a v : Word) (s : State) : (storeHostWord a v s).srSave = s.srSave := by
  unfold storeHostWord; split <;> rfl
@[simp] theorem storeHostWord_pcSave (a v : Word) (s : State) : (storeHostWord a v s).pcSave = s.pcSave := by
  unfold storeHostWord; split <;> rfl
@[simp] theorem storeHostWord_inIsr (a v : Word) (s : State) : (storeHostWord a v s).inIsr = s.inIsr := by
  unfold storeHostWord; split <;> rfl
@[simp] theorem storeHostWord_halted (a v : Word) (s : State) : (storeHostWord a v s).halted = s.halted := by
  unfold storeHostWord; split <;> rfl
@[simp] theorem storeHostWord_intSource (a v : Word) (s : State) : (storeHostWord a v s).intSource = s.intSource := by
  unfold storeHostWord; split <;> rfl
@[simp] theorem storeHostWord_device (a v : Word) (s : State) : (storeHostWord a v s).device = s.device := by
  unfold storeHostWord; split <;> rfl

/-- The memory after the load of a word (70_reset R300). -/
theorem storeHostWord_mem (a v : Word) (s : State) :
    (storeHostWord a v s).mem = if inIoPage a then s.mem else writeWord a v s.mem := by
  unfold storeHostWord; split <;> rfl

theorem storeHostWord_wf (a v : Word) (s : State) (hw : s.wf = true) : (storeHostWord a v s).wf = true := by
  unfold storeHostWord
  split
  · exact hw
  · rename_i h
    rw [wf_iff] at hw ⊢
    exact ⟨writeWord_wf a v _ hw.1 (by simpa using h), hw.2⟩

@[simp] theorem loadPairs_nil (s : State) : State.loadPairs [] s = s := rfl
@[simp] theorem loadPairs_cons (p : Word × Word) (rest : List (Word × Word)) (s : State) :
    State.loadPairs (p :: rest) s = State.loadPairs rest (storeHostWord p.1 p.2 s) := rfl

/-- Loading one list after another is loading them together. -/
theorem loadPairs_append (xs ys : List (Word × Word)) (s : State) :
    State.loadPairs (xs ++ ys) s = State.loadPairs ys (State.loadPairs xs s) := by
  induction xs generalizing s with
  | nil => rfl
  | cons p xs ih => simp [ih]

@[simp] theorem imagePairs_length (origin : Word) (words : List Word) :
    (imagePairs origin words).length = words.length := by
  induction words generalizing origin with
  | nil => rfl
  | cons v rest ih => simp [imagePairs, ih]

/-- The equation of a run (70_reset R300, R301). -/
theorem run_eq (bound : Nat) (c : Statistics) (s : State) :
    s.run bound c =
      if s.halted then .halted c s
      else
        match bound with
        | 0 => .running c s
        | k + 1 =>
          match step s with
          | .next t => t.run k (c.afterStep s)
          | .fault e => .fault c e
          | .refused e => .refused c e := by
  cases bound <;> rfl

/-- A halted machine's run has ended (70_reset R301). -/
theorem run_of_halted (bound : Nat) (c : Statistics) (s : State) (h : s.halted = true) :
    s.run bound c = .halted c s := by
  rw [run_eq, if_pos h]

/-- A run of a machine that is not halted takes one step (70_reset R300). -/
theorem run_succ (k : Nat) (c : Statistics) (s t : State) (h : s.halted = false) (ht : step s = .next t) :
    s.run (k + 1) c = t.run k (c.afterStep s) := by
  rw [run_eq, if_neg (by simp [h])]
  simp only [ht]

end Sys2Proof.Machine
end

