-- ==== Sys2Proof/Laws/Operands.lean ====
section
/-! SUPPORT. What operand evaluation and the three shapes of a two-operand instruction can do. -/

namespace Sys2Proof.Machine

/-- An operand that is only read is located, read and finished, as a destination is
(40_operands R132, R133). -/
theorem readOperand_eq (o : Operand) (s : State) :
    readOperand o s =
      andThen (dstRead (locate o s) (locateState o s)) fun r => .next (r.1, dstFinish o r.2) := by
  obtain ⟨r, m⟩ := o
  cases m
  · rfl
  · simp only [readOperand, locate, dstRead, locateState, dstFinish]
    cases memRead (readReg s r) s <;> rfl
  · rfl
  · simp only [readOperand, locate, dstRead, locateState, dstFinish]
    cases memRead (readReg (writeReg r (readReg s r - 1) s) r) (writeReg r (readReg s r - 1) s) <;> rfl

theorem readOperand_eq_next (o : Operand) (s : State) (r : Word × State) :
    readOperand o s = .next r ↔
      ∃ v u, dstRead (locate o s) (locateState o s) = .next (v, u) ∧ r = (v, dstFinish o u) := by
  rw [readOperand_eq, andThen_eq_next]
  constructor
  · rintro ⟨⟨v, u⟩, h, he⟩
    exact ⟨v, u, h, by simpa [eq_comm] using he⟩
  · rintro ⟨v, u, h, rfl⟩
    exact ⟨(v, u), h, rfl⟩

/-- All that reading a location can do. -/
theorem dstRead_eq_next (l : Loc) (s : State) (r : Word × State) :
    dstRead l s = .next r ↔
      (∃ q, l = .reg q ∧ r = (readReg s q, s)) ∨ (∃ a, l = .mem a ∧ memRead a s = .next r) := by
  cases l <;> simp [dstRead, eq_comm]

/-- What reading a location leaves: everything but the device's history. -/
theorem dstRead_state (l : Loc) (s : State) (r : Word × State) (h : dstRead l s = .next r) :
    r.2 = { s with device := r.2.device } ∧ r.2.device.isSome = s.device.isSome := by
  rcases (dstRead_eq_next l s r).1 h with ⟨q, _, rfl⟩ | ⟨a, _, h⟩
  · exact ⟨rfl, rfl⟩
  · exact memRead_state a s r h

theorem dstRead_ne_fault (l : Loc) (s : State) (e : Fault) : dstRead l s ≠ .fault e := by
  cases l with
  | reg r => simp [dstRead]
  | mem a => exact memRead_ne_fault a s e

theorem dstWrite_ne_fault (l : Loc) (v : Word) (s : State) (e : Fault) : dstWrite l v s ≠ .fault e := by
  cases l with
  | reg r => simp [dstWrite]
  | mem a => exact memWrite_ne_fault a v s e

theorem readOperand_ne_fault (o : Operand) (s : State) (e : Fault) : readOperand o s ≠ .fault e := by
  rw [readOperand_eq, Ne, andThen_eq_fault]
  rintro (h | ⟨a, _, h⟩)
  · exact dstRead_ne_fault _ _ _ h
  · simp at h

/-- A location's access stops only in the I/O page without a device. -/
theorem dstRead_eq_refused (l : Loc) (s : State) (e : Refusal) :
    dstRead l s = .refused e ↔ ∃ a, l = .mem a ∧ inIoPage a = true ∧ s.device = none ∧ e = .noIODevice a := by
  cases l <;> simp [dstRead, memRead_eq_refused]

theorem dstWrite_eq_refused (l : Loc) (v : Word) (s : State) (e : Refusal) :
    dstWrite l v s = .refused e ↔
      ∃ a, l = .mem a ∧ inIoPage a = true ∧ s.device = none ∧ e = .noIODevice a := by
  cases l <;> simp [dstWrite, memWrite_eq_refused]

theorem readOperand_eq_refused (o : Operand) (s : State) (e : Refusal) :
    readOperand o s = .refused e ↔
      ∃ a, locate o s = .mem a ∧ inIoPage a = true ∧ s.device = none ∧ e = .noIODevice a := by
  rw [readOperand_eq, andThen_eq_refused, dstRead_eq_refused]
  simp

/-- The location of an operand has a step exactly when the operand is readable. -/
theorem readable_iff_dstRead (o : Operand) (s : State) :
    readable o s = true ↔ ∃ r, dstRead (locate o s) (locateState o s) = .next r := by
  unfold readable
  cases h : locate o s with
  | reg q => simp [dstRead]
  | mem a =>
    have : accessible (locateState o s) a = accessible s a := by simp [accessible]
    simp only [dstRead, ← this]
    exact memRead_total _ _

theorem operandsReady_iff (src dst : Operand) (s : State) :
    operandsReady src dst s = true ↔ ∃ r, readOperand src s = .next r ∧ readable dst r.2 = true := by
  unfold operandsReady
  cases readOperand src s <;> simp

/-- A destination has a step for its write exactly when it has one for its read. -/
theorem dstWrite_total (l : Loc) (v : Word) (s u : State) (hd : u.device.isSome = s.device.isSome) :
    (∃ r, dstRead l s = .next r) ↔ ∃ t, dstWrite l v u = .next t := by
  cases l with
  | reg r => simp [dstRead, dstWrite]
  | mem a =>
    simp only [dstRead, dstWrite]
    rw [← memRead_total, ← memWrite_total]
    simp [accessible, hd]

/-- A readable destination can be written. -/
theorem dstWrite_of_readable (o : Operand) (v : Word) (s u : State) (h : readable o s = true)
    (hd : u.device.isSome = s.device.isSome) : ∃ t, dstWrite (locate o s) v u = .next t :=
  (dstWrite_total _ v (locateState o s) u (by simpa using hd)).1 ((readable_iff_dstRead o s).1 h)

@[simp] theorem writeResult_writeWins (l : Loc) (out : AluOut) (s : State) :
    writeResult .writeWins l out s = dstWrite l out.res (writeFlags out.flags s) := rfl

/-- What writing a location leaves there. -/
theorem destHolds_of_dstWrite {l : Loc} {v : Word} {s u : State} (h : dstWrite l v s = .next u) :
    destHolds l v u := by
  cases l with
  | reg r =>
    simp only [dstWrite, Host.Outcome.next.injEq] at h
    subst h
    have := readReg_writeReg_same s r v
    cases r <;> simp [destHolds] at this ⊢ <;> exact this
  | mem a =>
    rcases (memWrite_eq_next ..).1 h with ⟨ha, rfl⟩ | ⟨ha, h', hd, rfl⟩
    · exact ⟨fun _ => readWord_writeWord_same _ _ _, fun h => by simp [ha] at h⟩
    · exact ⟨fun h => by simp [ha] at h, fun _ => ⟨h', rfl⟩⟩

/-- A location's write leaves R14 unless the location is R14. -/
theorem sr_dstWrite {l : Loc} {v : Word} {s u : State} (h : dstWrite l v s = .next u) (hl : l ≠ .reg .sr) :
    u.sr = s.sr := by
  cases l with
  | reg r =>
    simp only [dstWrite, Host.Outcome.next.injEq] at h
    subst h
    exact sr_writeReg_other _ _ _ (fun e => hl (by rw [e]))
  | mem a => rw [(memWrite_state a v s u h).1]

/-- The flag writes and the destination write of an instruction change nothing else. -/
theorem onlyDestinationChanged_of_dstWrite {l : Loc} {v : Word} {f : FlagWrites} {m u : State}
    (h : dstWrite l v (writeFlags f m) = .next u) : onlyDestinationChanged l v m u := by
  refine ⟨?_, fun hl k hk => ?_⟩
  · cases l with
    | reg r =>
      simp only [dstWrite, Host.Outcome.next.injEq] at h
      subst h
      obtain ⟨h1, h2, h3, -, h5, h6, h7⟩ := onlyRegChanged_writeReg r v (writeFlags f m)
      exact ⟨h1, fun p k hk => h2 p k (by simpa using hk), h3, fun _ => rfl, h5, h6, h7⟩
    | mem a =>
      rcases (memWrite_eq_next ..).1 h with ⟨ha, rfl⟩ | ⟨ha, h', hd, rfl⟩
      · refine ⟨fun _ => ⟨rfl, fun c h1 h2 => ?_⟩, fun h => by simp [ha] at h⟩
        simp [readByte_writeWord, h1, h2]
      · exact ⟨fun h => by simp [ha] at h, fun _ => ⟨h', hd, rfl⟩⟩
  · simp only [List.mem_cons, List.not_mem_nil, or_false, not_or] at hk
    simp [readSr, sr_dstWrite h hl, srFixed_apply, getLsbD_apply, hk]

/-- All that MOVE, SWAP and NOT can do. -/
theorem writeOnly_eq_next (f : Word → AluOut) (src dst : Operand) (s t : State) :
    writeOnly f src dst s = .next t ↔ ∃ a s1 u, readOperand src s = .next (a, s1) ∧
      dstWrite (locate dst s1) (f a).res (writeFlags (f a).flags (locateState dst s1)) = .next u ∧
      t = dstFinish dst u := by
  simp only [writeOnly, Config_srDstOrder, writeResult_writeWins, andThen_eq_next]
  constructor
  · rintro ⟨⟨a, s1⟩, h1, u, h2, h3⟩
    exact ⟨a, s1, u, h1, h2, by simpa [eq_comm] using h3⟩
  · rintro ⟨a, s1, u, h1, h2, rfl⟩
    exact ⟨(a, s1), h1, u, h2, rfl⟩

/-- All that an instruction that reads and writes its destination can do. -/
theorem readModifyWrite_eq_next (f : Word → Word → State → Res AluOut) (src dst : Operand) (s t : State) :
    readModifyWrite f src dst s = .next t ↔ ∃ a s1 d s3 out u, readOperand src s = .next (a, s1) ∧
      dstRead (locate dst s1) (locateState dst s1) = .next (d, s3) ∧ f a d s3 = .next out ∧
      dstWrite (locate dst s1) out.res (writeFlags out.flags s3) = .next u ∧ t = dstFinish dst u := by
  simp only [readModifyWrite, Config_srDstOrder, writeResult_writeWins, andThen_eq_next]
  constructor
  · rintro ⟨⟨a, s1⟩, h1, ⟨d, s3⟩, h2, out, h3, u, h4, h5⟩
    exact ⟨a, s1, d, s3, out, u, h1, h2, h3, h4, by simpa [eq_comm] using h5⟩
  · rintro ⟨a, s1, d, s3, out, u, h1, h2, h3, h4, rfl⟩
    exact ⟨(a, s1), h1, (d, s3), h2, out, h3, u, h4, rfl⟩

/-- All that CMP can do. -/
theorem compareOnly_eq_next (f : Word → Word → FlagWrites) (src dst : Operand) (s t : State) :
    compareOnly f src dst s = .next t ↔ ∃ a s1 d s3, readOperand src s = .next (a, s1) ∧
      dstRead (locate dst s1) (locateState dst s1) = .next (d, s3) ∧
      t = dstFinish dst (writeFlags (f a d) s3) := by
  simp only [compareOnly, andThen_eq_next]
  constructor
  · rintro ⟨⟨a, s1⟩, h1, ⟨d, s3⟩, h2, h3⟩
    exact ⟨a, s1, d, s3, h1, h2, by simpa [eq_comm] using h3⟩
  · rintro ⟨a, s1, d, s3, h1, h2, rfl⟩
    exact ⟨(a, s1), h1, (d, s3), h2, rfl⟩

/-- A two-operand instruction that writes completes when its operands are readable; `u` is the state
before the destination's post-increment. -/
theorem readModifyWrite_completes (f : Word → Word → State → Res AluOut) (src dst : Operand)
    (s s1 s3 : State) (a d : Word) (out : AluOut) (h1 : readOperand src s = .next (a, s1))
    (h2 : dstRead (locate dst s1) (locateState dst s1) = .next (d, s3)) (h3 : f a d s3 = .next out) :
    ∃ u, dstWrite (locate dst s1) out.res (writeFlags out.flags s3) = .next u ∧
      readModifyWrite f src dst s = .next (dstFinish dst u) := by
  have hd := (dstRead_state _ _ _ h2).2
  obtain ⟨u, hu⟩ := (dstWrite_total (locate dst s1) out.res (locateState dst s1)
    (writeFlags out.flags s3) (by simpa using hd)).1 ⟨_, h2⟩
  exact ⟨u, hu, (readModifyWrite_eq_next ..).2 ⟨a, s1, d, s3, out, u, h1, h2, h3, hu, rfl⟩⟩

theorem writeOnly_completes (f : Word → AluOut) (src dst : Operand) (s s1 : State) (a : Word)
    (h1 : readOperand src s = .next (a, s1)) (h2 : readable dst s1 = true) :
    ∃ u, dstWrite (locate dst s1) (f a).res (writeFlags (f a).flags (locateState dst s1)) = .next u ∧
      writeOnly f src dst s = .next (dstFinish dst u) := by
  obtain ⟨u, hu⟩ := dstWrite_of_readable dst (f a).res s1 (writeFlags (f a).flags (locateState dst s1)) h2
    (by simp)
  exact ⟨u, hu, (writeOnly_eq_next ..).2 ⟨a, s1, u, h1, hu, rfl⟩⟩

theorem locateState_wf (o : Operand) (s : State) (hw : s.wf = true) : (locateState o s).wf = true := by
  unfold locateState
  split <;> first | exact hw | exact writeReg_wf _ _ _ hw

theorem dstFinish_wf (o : Operand) (s : State) (hw : s.wf = true) : (dstFinish o s).wf = true := by
  unfold dstFinish
  split <;> first | exact hw | exact writeReg_wf _ _ _ hw

theorem dstRead_wf (l : Loc) (s : State) (r : Word × State) (h : dstRead l s = .next r) :
    r.2.wf = s.wf := by
  rw [(dstRead_state l s r h).1]; rfl

theorem dstWrite_wf (l : Loc) (v : Word) (s t : State) (h : dstWrite l v s = .next t) (hw : s.wf = true) :
    t.wf = true := by
  cases l with
  | reg r =>
    simp only [dstWrite, Host.Outcome.next.injEq] at h
    exact h ▸ writeReg_wf _ _ _ hw
  | mem a => exact memWrite_wf a v s t h hw

theorem readOperand_wf (o : Operand) (s : State) (r : Word × State) (h : readOperand o s = .next r)
    (hw : s.wf = true) : r.2.wf = true := by
  obtain ⟨v, u, hu, rfl⟩ := (readOperand_eq_next o s r).1 h
  exact dstFinish_wf _ _ ((dstRead_wf _ _ _ hu).trans (locateState_wf o s hw))

end Sys2Proof.Machine
end

