-- ==== Sys2Proof/Laws/Instr.lean ====
section
/-! SUPPORT. What each group of instructions can do, said once: the two-operand instructions, the jumps, and
what any instruction does to the hidden state and to the device. -/

namespace Sys2Proof.Machine

theorem exec_move (x y : Operand) (s : State) : exec (.move x y) s = writeOnly logicOut x y s := rfl
theorem exec_swap (x y : Operand) (s : State) :
    exec (.swap x y) s = writeOnly (fun a => logicOut (swapBytes a)) x y s := rfl
theorem exec_not (x y : Operand) (s : State) :
    exec (.not x y) s = writeOnly (fun a => logicOut (~~~a)) x y s := rfl
theorem exec_add (x y : Operand) (s : State) :
    exec (.add x y) s = readModifyWrite (fun a d _ => .next (addOut a d false)) x y s := rfl
theorem exec_addc (x y : Operand) (s : State) :
    exec (.addc x y) s = readModifyWrite (fun a d s => .next (addOut a d (readFlag s bitC))) x y s := rfl
theorem exec_sub (x y : Operand) (s : State) :
    exec (.sub x y) s = readModifyWrite (fun a d _ => .next (subOut a d false)) x y s := rfl
theorem exec_subc (x y : Operand) (s : State) :
    exec (.subc x y) s = readModifyWrite (fun a d s => .next (subOut a d (readFlag s bitC))) x y s := rfl
theorem exec_and (x y : Operand) (s : State) :
    exec (.and x y) s = readModifyWrite (fun a d _ => .next (logicOut (d &&& a))) x y s := rfl
theorem exec_or (x y : Operand) (s : State) :
    exec (.or x y) s = readModifyWrite (fun a d _ => .next (logicOut (d ||| a))) x y s := rfl
theorem exec_xor (x y : Operand) (s : State) :
    exec (.xor x y) s = readModifyWrite (fun a d _ => .next (logicOut (d ^^^ a))) x y s := rfl
theorem exec_cmp (x y : Operand) (s : State) : exec (.cmp x y) s = compareOnly cmpFlags x y s := rfl

/-- SHL runs its count out in full (42_shift_swap R171). -/
theorem exec_shl (x y : Operand) (s : State) :
    exec (.shl x y) s =
      readModifyWrite (fun n d s => .next (shlOut n.toNat d (readFlag s bitX) (readFlag s bitC))) x y s := by
  have h : shlFunction = fun n d s => .next (shlOut n.toNat d (readFlag s bitX) (readFlag s bitC)) := by
    funext n d s
    simp only [shlFunction, Config_shiftCount, shiftPlaces_iterative, shlOut_eq]
  rw [← h]
  rfl

/-- SHR runs its count out in full (42_shift_swap R172). -/
theorem exec_shr (x y : Operand) (s : State) :
    exec (.shr x y) s =
      readModifyWrite (fun n d s => .next (shrOut n.toNat d (readFlag s bitC) (readFlag s bitX))) x y s := by
  have h : shrFunction = fun n d s => .next (shrOut n.toNat d (readFlag s bitC) (readFlag s bitX)) := by
    funext n d s
    simp only [shrFunction, Config_shiftCount, shiftPlaces_iterative, shrOut_eq]
  rw [← h]
  rfl

theorem exec_abra (o : Operand) (c : Cond) (s : State) :
    exec (.abra o c) s = conditionalJump .evaluate (fun a s => .next (jumpTo a s)) o c s := rfl
theorem exec_rbra (o : Operand) (c : Cond) (s : State) :
    exec (.rbra o c) s = conditionalJump .evaluate (fun a s => .next (jumpTo (s.pc + a) s)) o c s := rfl
theorem exec_asub (o : Operand) (c : Cond) (s : State) :
    exec (.asub o c) s =
      conditionalJump .evaluate (fun a s => andThen (push s.pc s) fun s => .next (jumpTo a s)) o c s := rfl
theorem exec_rsub (o : Operand) (c : Cond) (s : State) :
    exec (.rsub o c) s =
      conditionalJump .evaluate (fun a s => andThen (push s.pc s) fun s => .next (jumpTo (s.pc + a) s)) o c s :=
  rfl

/-- Every instruction is of one of these kinds. -/
theorem instr_kinds (i : Instr) :
    (∃ src dst, twoOperands i = some (src, dst)) ∨ (∃ o c, jumpOperand i = some (o, c)) ∨
      (∃ p, i = .reservedD p) ∨ (∃ x, i = .halt x) ∨ (∃ x, i = .rti x) ∨ (∃ o, i = .int o) ∨
      (∃ x, i = .incrb x) ∨ (∃ x, i = .decrb x) := by
  cases i <;> simp [twoOperands, jumpOperand]

/-- What the mode of an operand leaves: all registers but its own, and the pages the window does not show. -/
structure ModeFrame (o : Operand) (s t : State) : Prop where
  hi : ∀ k : Fin 6, modeUpdates o (.hi k) = false → t.hi[k.val] = s.hi[k.val]
  lo : ∀ page k, modeUpdates o (.lo k) = false ∨ page ≠ currentPage s → readBank t page k = readBank s page k
  pc : modeUpdates o .pc = false → t.pc = s.pc
  sr : modeUpdates o .sr = false → t.sr = s.sr

theorem modeFrame_refl (o : Operand) (s : State) : ModeFrame o s s :=
  ⟨fun _ _ => rfl, fun _ _ _ => rfl, fun _ => rfl, fun _ => rfl⟩

theorem modeFrame_writeReg (o : Operand) (s : State) (v : Word) (hm : o.mode = .indInc ∨ o.mode = .decInd) :
    ModeFrame o s (writeReg o.reg v s) := by
  have hne : ∀ q, modeUpdates o q = false → o.reg ≠ q := by
    rintro q h rfl
    rcases hm with hm | hm <;> simp [modeUpdates, hm] at h
  obtain ⟨h1, h2, h3, h4, -⟩ := onlyRegChanged_writeReg o.reg v s
  exact ⟨fun k h => h1 k (hne _ h), fun p k h => h2 p k (h.imp_left (hne _)), fun h => h3 (hne _ h),
    fun h => h4 (hne _ h)⟩

/-- The frame of the pre-decrement of an operand. -/
theorem modeFrame_locateState (o : Operand) (s : State) : ModeFrame o s (locateState o s) := by
  unfold locateState
  split
  · exact modeFrame_writeReg o s _ (.inr ‹_›)
  all_goals exact modeFrame_refl o s

/-- The frame of the post-increment of an operand. -/
theorem modeFrame_dstFinish (o : Operand) (s : State) : ModeFrame o s (dstFinish o s) := by
  unfold dstFinish
  split
  · exact modeFrame_writeReg o s _ (.inl ‹_›)
  all_goals exact modeFrame_refl o s

theorem sameHidden_refl (s : State) : sameHidden s s := ⟨rfl, rfl, rfl, rfl, rfl⟩

theorem sameHidden_trans {s t u : State} (a : sameHidden s t) (b : sameHidden t u) : sameHidden s u := by
  obtain ⟨a1, a2, a3, a4, a5⟩ := a
  obtain ⟨b1, b2, b3, b4, b5⟩ := b
  exact ⟨b1.trans a1, b2.trans a2, b3.trans a3, b4.trans a4, b5.trans a5⟩

theorem readOperand_mem {o : Operand} {s t : State} {v : Word} (h : readOperand o s = .next (v, t)) :
    t.mem = s.mem := by
  obtain ⟨v', u, hd, he⟩ := (readOperand_eq_next ..).1 h
  obtain ⟨rfl, rfl⟩ := Prod.mk.inj he
  have hu := (dstRead_state _ _ _ hd).1
  simp only at hu
  rw [hu]
  simp

theorem readOperand_hidden {o : Operand} {s t : State} {v : Word} (h : readOperand o s = .next (v, t)) :
    sameHidden s t := by
  obtain ⟨v', u, hd, he⟩ := (readOperand_eq_next ..).1 h
  obtain ⟨rfl, rfl⟩ := Prod.mk.inj he
  have hu := (dstRead_state _ _ _ hd).1
  simp only at hu
  rw [hu]
  simp [sameHidden]

theorem dstWrite_hidden {l : Loc} {v : Word} {s t : State} (h : dstWrite l v s = .next t) : sameHidden s t := by
  cases l with
  | reg r =>
    simp only [dstWrite, Host.Outcome.next.injEq] at h
    subst h
    simp [sameHidden]
  | mem a =>
    rw [(memWrite_state _ _ _ _ h).1]
    exact sameHidden_refl _

/-- What a push leaves. -/
theorem push_state {v : Word} {s t : State} (h : push v s = .next t) :
    t.pc = s.pc ∧ t.sr = s.sr ∧ t.bank = s.bank ∧ sameHidden s t := by
  rw [push_eq] at h
  rw [(memWrite_state _ _ _ _ h).1]
  exact ⟨rfl, rfl, rfl, rfl, rfl, rfl, rfl, rfl⟩

/-- All that a conditional jump can do. -/
theorem conditionalJump_eq_next (go : Word → State → Res State) (o : Operand) (c : Cond) (s t : State) :
    conditionalJump .evaluate go o c s = .next t ↔
      ∃ a s1, readOperand o s = .next (a, s1) ∧ (if taken c s1 then go a s1 = .next t else t = s1) := by
  simp only [conditionalJump, andThen_eq_next]
  constructor
  · rintro ⟨⟨a, s1⟩, h1, h2⟩
    refine ⟨a, s1, h1, ?_⟩
    simp only at h2
    split <;> simp_all
  · rintro ⟨a, s1, h1, h2⟩
    refine ⟨(a, s1), h1, ?_⟩
    simp only
    split <;> simp_all

/-- What a jump, branch or call did. -/
inductive JumpStep (i : Instr) (o : Operand) (c : Cond) (s t : State) : Prop where
  | untaken (a : Word) (operand : readOperand o s = .next (a, t)) (hc : taken c t = false)
  | jump (a b : Word) (s1 : State) (operand : readOperand o s = .next (a, s1)) (hc : taken c s1 = true)
      (target : i = .abra o c ∧ b = a ∨ i = .rbra o c ∧ b = s1.pc + a) (fin : t = { s1 with pc := b })
  | call (a b : Word) (s1 u : State) (operand : readOperand o s = .next (a, s1)) (hc : taken c s1 = true)
      (target : i = .asub o c ∧ b = a ∨ i = .rsub o c ∧ b = s1.pc + a) (pushed : push s1.pc s1 = .next u)
      (fin : t = { u with pc := b })

/-- All that a jump, branch or call can do when it gives a next state (45_branch R227..R233). -/
theorem jump_cases (i : Instr) (o : Operand) (c : Cond) (s t : State) (hi : jumpOperand i = some (o, c))
    (h : exec i s = .next t) : JumpStep i o c s t := by
  cases i <;> simp only [jumpOperand, reduceCtorEq, Option.some.injEq, Prod.mk.injEq] at hi <;>
    obtain ⟨rfl, rfl⟩ := hi
  all_goals
    simp only [exec_abra, exec_rbra, exec_asub, exec_rsub] at h
    obtain ⟨a, s1, h1, h2⟩ := (conditionalJump_eq_next ..).1 h
    split at h2
    case isFalse hc => subst h2; exact .untaken a h1 (by simpa using hc)
  · rename_i hc
    injection h2 with h2
    subst h2
    exact .jump _ _ _ h1 hc (.inl ⟨rfl, rfl⟩) rfl
  · rename_i hc
    obtain ⟨u, hu, h3⟩ := (andThen_eq_next ..).1 h2
    injection h3 with h3
    subst h3
    exact .call _ _ _ u h1 hc (.inl ⟨rfl, rfl⟩) hu rfl
  · rename_i hc
    injection h2 with h2
    subst h2
    exact .jump _ _ _ h1 hc (.inr ⟨rfl, rfl⟩) rfl
  · rename_i hc
    obtain ⟨u, hu, h3⟩ := (andThen_eq_next ..).1 h2
    injection h3 with h3
    subst h3
    refine .call _ _ _ u h1 hc (.inr ⟨rfl, ?_⟩) hu rfl
    rw [(push_state hu).1]

/-- What a two-operand instruction did: `s1` after the source, `s3` after the destination was located and,
where it is read, read, `u` after the writes. -/
structure TwoStep (i : Instr) (src dst : Operand) (s t : State) (a : Word) (s1 s3 u : State) (res : Word)
    (fl : FlagWrites) : Prop where
  operand : readOperand src s = .next (a, s1)
  located : s3 = locateState dst s1 ∨ ∃ d, dstRead (locate dst s1) (locateState dst s1) = .next (d, s3)
  write : if writesDestination i then dstWrite (locate dst s1) res (writeFlags fl s3) = .next u
    else u = writeFlags fl s3
  flags : ∀ k, k ∉ flagsWritten i → ∀ sr, (fl.apply sr).getLsbD k = sr.getLsbD k
  fin : t = dstFinish dst u

/-- The flags a result without V and C leaves (10_state R35). -/
theorem logicOut_keeps (r : Word) (k : Nat) (h : k ∉ [bitN, bitZ, bitX]) (sr : Word) :
    ((logicOut r).flags.apply sr).getLsbD k = sr.getLsbD k := by
  simp only [List.mem_cons, List.not_mem_nil, or_false, not_or] at h
  simp [getLsbD_apply, logicOut, h.1, h.2.1, h.2.2]

theorem arithOut_keeps (r : Word) (c v : Bool) (k : Nat) (h : k ∉ [bitV, bitN, bitZ, bitC, bitX])
    (sr : Word) : ((arithOut r c v).flags.apply sr).getLsbD k = sr.getLsbD k := by
  simp only [List.mem_cons, List.not_mem_nil, or_false, not_or] at h
  simp [getLsbD_apply, h.1, h.2.1, h.2.2]

theorem shlOut_keeps (n : Nat) (d : Word) (x c : Bool) (k : Nat) (h : k ∉ [bitN, bitZ, bitC]) (sr : Word) :
    ((shlOut n d x c).flags.apply sr).getLsbD k = sr.getLsbD k := by
  simp only [List.mem_cons, List.not_mem_nil, or_false, not_or] at h
  simp [getLsbD_apply, shlOut, h.1, h.2.1, h.2.2]

theorem shrOut_keeps (n : Nat) (d : Word) (c x : Bool) (k : Nat) (h : k ∉ [bitN, bitZ, bitX]) (sr : Word) :
    ((shrOut n d c x).flags.apply sr).getLsbD k = sr.getLsbD k := by
  simp only [List.mem_cons, List.not_mem_nil, or_false, not_or] at h
  simp [getLsbD_apply, shrOut, h.1, h.2.1, h.2.2]

theorem cmpFlags_keeps (a d : Word) (k : Nat) (h : k ∉ [bitV, bitN, bitZ]) (sr : Word) :
    ((cmpFlags a d).apply sr).getLsbD k = sr.getLsbD k := by
  simp only [List.mem_cons, List.not_mem_nil, or_false, not_or] at h
  simp [getLsbD_apply, cmpFlags, h.1, h.2.1, h.2.2]

theorem twoStep_writeOnly (i : Instr) (f : Word → AluOut) (src dst : Operand) (s t : State)
    (hw : writesDestination i = true)
    (hf : ∀ a k, k ∉ flagsWritten i → ∀ sr, ((f a).flags.apply sr).getLsbD k = sr.getLsbD k)
    (h : writeOnly f src dst s = .next t) : ∃ a s1 s3 u res fl, TwoStep i src dst s t a s1 s3 u res fl := by
  obtain ⟨a, s1, u, h1, h2, h3⟩ := (writeOnly_eq_next ..).1 h
  exact ⟨a, s1, _, u, _, _, h1, .inl rfl, by rw [if_pos hw]; exact h2, hf a, h3⟩

theorem twoStep_readModifyWrite (i : Instr) (f : Word → Word → State → AluOut) (src dst : Operand)
    (s t : State) (hw : writesDestination i = true)
    (hf : ∀ a d s k, k ∉ flagsWritten i → ∀ sr, ((f a d s).flags.apply sr).getLsbD k = sr.getLsbD k)
    (h : readModifyWrite (fun a d s => .next (f a d s)) src dst s = .next t) :
    ∃ a s1 s3 u res fl, TwoStep i src dst s t a s1 s3 u res fl := by
  obtain ⟨a, s1, d, s3, out, u, h1, h2, h3, h4, h5⟩ := (readModifyWrite_eq_next ..).1 h
  injection h3 with h3
  subst h3
  exact ⟨a, s1, s3, u, _, _, h1, .inr ⟨d, h2⟩, by rw [if_pos hw]; exact h4, hf a d s3, h5⟩

theorem twoStep_compareOnly (i : Instr) (f : Word → Word → FlagWrites) (src dst : Operand) (s t : State)
    (hw : writesDestination i = false)
    (hf : ∀ a d k, k ∉ flagsWritten i → ∀ sr, ((f a d).apply sr).getLsbD k = sr.getLsbD k)
    (h : compareOnly f src dst s = .next t) : ∃ a s1 s3 u res fl, TwoStep i src dst s t a s1 s3 u res fl := by
  obtain ⟨a, s1, d, s3, h1, h2, h5⟩ := (compareOnly_eq_next ..).1 h
  exact ⟨a, s1, s3, _, 0, f a d, h1, .inr ⟨d, h2⟩, by rw [hw]; simp, hf a d, h5⟩

/-- All that a two-operand instruction can do when it gives a next state (40_operands R134, R140). -/
theorem two_cases (i : Instr) (src dst : Operand) (s t : State) (hi : twoOperands i = some (src, dst))
    (h : exec i s = .next t) : ∃ a s1 s3 u res fl, TwoStep i src dst s t a s1 s3 u res fl := by
  cases i <;> simp only [twoOperands, reduceCtorEq, Option.some.injEq, Prod.mk.injEq] at hi <;>
    obtain ⟨rfl, rfl⟩ := hi
  · rw [exec_move] at h
    exact twoStep_writeOnly _ _ _ _ _ _ rfl (fun _ => logicOut_keeps _) h
  · rw [exec_add] at h
    exact twoStep_readModifyWrite _ (fun a d _ => addOut a d false) _ _ _ _ rfl
      (fun _ _ _ => arithOut_keeps _ _ _) h
  · rw [exec_addc] at h
    exact twoStep_readModifyWrite _ (fun a d s => addOut a d (readFlag s bitC)) _ _ _ _ rfl
      (fun _ _ _ => arithOut_keeps _ _ _) h
  · rw [exec_sub] at h
    exact twoStep_readModifyWrite _ (fun a d _ => subOut a d false) _ _ _ _ rfl
      (fun _ _ _ => arithOut_keeps _ _ _) h
  · rw [exec_subc] at h
    exact twoStep_readModifyWrite _ (fun a d s => subOut a d (readFlag s bitC)) _ _ _ _ rfl
      (fun _ _ _ => arithOut_keeps _ _ _) h
  · rw [exec_shl] at h
    exact twoStep_readModifyWrite _ (fun n d s => shlOut n.toNat d (readFlag s bitX) (readFlag s bitC)) _ _ _ _
      rfl (fun _ _ _ => shlOut_keeps _ _ _ _) h
  · rw [exec_shr] at h
    exact twoStep_readModifyWrite _ (fun n d s => shrOut n.toNat d (readFlag s bitC) (readFlag s bitX)) _ _ _ _
      rfl (fun _ _ _ => shrOut_keeps _ _ _ _) h
  · rw [exec_swap] at h
    exact twoStep_writeOnly _ _ _ _ _ _ rfl (fun _ => logicOut_keeps _) h
  · rw [exec_not] at h
    exact twoStep_writeOnly _ _ _ _ _ _ rfl (fun _ => logicOut_keeps _) h
  · rw [exec_and] at h
    exact twoStep_readModifyWrite _ (fun a d _ => logicOut (d &&& a)) _ _ _ _ rfl
      (fun _ _ _ => logicOut_keeps _) h
  · rw [exec_or] at h
    exact twoStep_readModifyWrite _ (fun a d _ => logicOut (d ||| a)) _ _ _ _ rfl
      (fun _ _ _ => logicOut_keeps _) h
  · rw [exec_xor] at h
    exact twoStep_readModifyWrite _ (fun a d _ => logicOut (d ^^^ a)) _ _ _ _ rfl
      (fun _ _ _ => logicOut_keeps _) h
  · rw [exec_cmp] at h
    exact twoStep_compareOnly _ _ _ _ _ _ rfl (fun _ _ => cmpFlags_keeps _ _) h

/-- The state in the middle of a two-operand instruction: the located one, but for the device's history. -/
theorem twoStep_located {dst : Operand} {s1 s3 : State}
    (h : s3 = locateState dst s1 ∨ ∃ d, dstRead (locate dst s1) (locateState dst s1) = .next (d, s3)) :
    s3 = { locateState dst s1 with device := s3.device } := by
  rcases h with e | ⟨d, e⟩
  · rw [e]
  · exact (dstRead_state _ _ _ e).1

theorem locate_eq_reg {o : Operand} {s : State} {r : Reg} (h : locate o s = .reg r) : o = ⟨r, .reg⟩ := by
  obtain ⟨q, m⟩ := o
  cases m <;> simp_all [locate]

/-- All that INT can do when it gives a next state (44_control R212). -/
theorem int_cases (o : Operand) (s t : State) (h : exec (.int o) s = .next t) :
    ∃ a s1, readOperand o s = .next (a, s1) ∧ s1.inIsr = false ∧ t = takeInterrupt a s1 := by
  obtain ⟨⟨a, s1⟩, h1, h2⟩ := (andThen_eq_next ..).1 h
  simp only at h2
  split at h2
  · cases h2
  · rename_i hc
    cases h2
    exact ⟨a, s1, h1, by simpa using hc, rfl⟩

/-- All that RTI can do when it gives a next state (44_control R211). -/
theorem rti_cases (x : BitVec 6) (s t : State) (h : exec (.rti x) s = .next t) :
    s.inIsr = true ∧ t = returnFromInterrupt s := by
  simp only [exec, execRti] at h
  split at h <;> cases h
  exact ⟨‹_›, rfl⟩

end Sys2Proof.Machine
end

