-- ==== Sys2Proof/Laws/PerInstr.lean ====
section
/-! SUPPORT. Statements about every instruction as syntax, one lemma per constructor. -/

namespace Sys2Proof.Laws

/-- The opcode of an instruction (30_encoding R97). -/
def OpcodeField.opcode : Instr → BitVec 4
  | .move _ _ => 0x0#4
  | .add _ _ => 0x1#4
  | .addc _ _ => 0x2#4
  | .sub _ _ => 0x3#4
  | .subc _ _ => 0x4#4
  | .shl _ _ => 0x5#4
  | .shr _ _ => 0x6#4
  | .swap _ _ => 0x7#4
  | .not _ _ => 0x8#4
  | .and _ _ => 0x9#4
  | .or _ _ => 0xA#4
  | .xor _ _ => 0xB#4
  | .cmp _ _ => 0xC#4
  | .reservedD _ => 0xD#4
  | .halt _ => 0xE#4
  | .rti _ => 0xE#4
  | .int _ => 0xE#4
  | .incrb _ => 0xE#4
  | .decrb _ => 0xE#4
  | .abra _ _ => 0xF#4
  | .asub _ _ => 0xF#4
  | .rbra _ _ => 0xF#4
  | .rsub _ _ => 0xF#4

/-- The encoder puts the opcode of the table in bits 15..12. -/
def OpcodeField.Statement (i : Instr) : Prop := (encode i).extractLsb' 12 4 = OpcodeField.opcode i

theorem opcode_of_wordG (op : BitVec 4) (src dst : Operand) : (wordG op src dst).extractLsb' 12 4 = op := by
  apply BitVec.eq_of_getLsbD_eq
  intro k hk
  simp only [wordG, BitVec.getLsbD_extractLsb', BitVec.getLsbD_append]
  interval_cases k <;> simp

theorem opcode_of_wordC (c low : BitVec 6) : (wordC c low).extractLsb' 12 4 = 0xE#4 := by
  apply BitVec.eq_of_getLsbD_eq
  intro k hk
  simp only [wordC, BitVec.getLsbD_extractLsb', BitVec.getLsbD_append]
  interval_cases k <;> simp

theorem opcode_of_wordB (b : BitVec 2) (o : Operand) (c : Cond) :
    (wordB b o c).extractLsb' 12 4 = 0xF#4 := by
  apply BitVec.eq_of_getLsbD_eq
  intro k hk
  simp only [wordB, BitVec.getLsbD_extractLsb', BitVec.getLsbD_append]
  interval_cases k <;> simp

theorem OpcodeField.move (s d : Operand) : OpcodeField.Statement (.move s d) := opcode_of_wordG _ s d
theorem OpcodeField.add (s d : Operand) : OpcodeField.Statement (.add s d) := opcode_of_wordG _ s d
theorem OpcodeField.addc (s d : Operand) : OpcodeField.Statement (.addc s d) := opcode_of_wordG _ s d
theorem OpcodeField.sub (s d : Operand) : OpcodeField.Statement (.sub s d) := opcode_of_wordG _ s d
theorem OpcodeField.subc (s d : Operand) : OpcodeField.Statement (.subc s d) := opcode_of_wordG _ s d
theorem OpcodeField.shl (s d : Operand) : OpcodeField.Statement (.shl s d) := opcode_of_wordG _ s d
theorem OpcodeField.shr (s d : Operand) : OpcodeField.Statement (.shr s d) := opcode_of_wordG _ s d
theorem OpcodeField.swap (s d : Operand) : OpcodeField.Statement (.swap s d) := opcode_of_wordG _ s d
theorem OpcodeField.not (s d : Operand) : OpcodeField.Statement (.not s d) := opcode_of_wordG _ s d
theorem OpcodeField.and (s d : Operand) : OpcodeField.Statement (.and s d) := opcode_of_wordG _ s d
theorem OpcodeField.or (s d : Operand) : OpcodeField.Statement (.or s d) := opcode_of_wordG _ s d
theorem OpcodeField.xor (s d : Operand) : OpcodeField.Statement (.xor s d) := opcode_of_wordG _ s d
theorem OpcodeField.cmp (s d : Operand) : OpcodeField.Statement (.cmp s d) := opcode_of_wordG _ s d

theorem OpcodeField.reservedD (p : BitVec 12) : OpcodeField.Statement (.reservedD p) := by
  apply BitVec.eq_of_getLsbD_eq
  intro k hk
  simp only [encode, OpcodeField.opcode, BitVec.getLsbD_extractLsb', BitVec.getLsbD_append]
  interval_cases k <;> simp

theorem OpcodeField.halt (u : BitVec 6) : OpcodeField.Statement (.halt u) := opcode_of_wordC _ u
theorem OpcodeField.rti (u : BitVec 6) : OpcodeField.Statement (.rti u) := opcode_of_wordC _ u
theorem OpcodeField.int (o : Operand) : OpcodeField.Statement (.int o) := opcode_of_wordC _ _
theorem OpcodeField.incrb (u : BitVec 6) : OpcodeField.Statement (.incrb u) := opcode_of_wordC _ u
theorem OpcodeField.decrb (u : BitVec 6) : OpcodeField.Statement (.decrb u) := opcode_of_wordC _ u
theorem OpcodeField.abra (o : Operand) (c : Cond) : OpcodeField.Statement (.abra o c) := opcode_of_wordB _ o c
theorem OpcodeField.asub (o : Operand) (c : Cond) : OpcodeField.Statement (.asub o c) := opcode_of_wordB _ o c
theorem OpcodeField.rbra (o : Operand) (c : Cond) : OpcodeField.Statement (.rbra o c) := opcode_of_wordB _ o c
theorem OpcodeField.rsub (o : Operand) (c : Cond) : OpcodeField.Statement (.rsub o c) := opcode_of_wordB _ o c

end Sys2Proof.Laws
end

