-- ==== Sys2Proof/Tests/Slice0.lean ====
section
/-! SUPPORT. The model's own tests: the ill-formed terms each check refuses, words written out from
30_encoding, one-step vectors of 95_test_vectors (named by their ids), and for every statement with
hypotheses a state and operands that meet them. -/

namespace Sys2Proof.Tests

open Sys2Proof Sys2Proof.Machine

/-! ### Well-formedness (30_encoding R105): an ill-formed term for each check -/

theorem test_refuses_halt_low_bits : (Instr.halt 1#6).wellFormedUnder .mustBeZero = false := by decide
theorem test_refuses_rti_low_bits : (Instr.rti 32#6).wellFormedUnder .mustBeZero = false := by decide
theorem test_refuses_incrb_low_bits : (Instr.incrb 63#6).wellFormedUnder .mustBeZero = false := by decide
theorem test_refuses_decrb_low_bits : (Instr.decrb 2#6).wellFormedUnder .mustBeZero = false := by decide
theorem test_accepts_zero_low_bits : (Instr.halt 0#6).wellFormedUnder .mustBeZero = true := by decide
theorem test_accepts_ignored_low_bits : (Instr.halt 63#6).wellFormed = true := by decide
theorem test_decode_must_be_zero :
    decodeUnder .mustBeZero 0xE001#16 = .controlLowBits 0xE001#16 ∧
      decodeUnder .mustBeZero 0xE000#16 = .instr (.halt 0) := by decide

/-! ### Words written out field by field from 30_encoding R91, R92, R93, R97, R98, R99, R101 -/

/-- The source's own word (95 V-S0): `MOVE @--R13, R15`. -/
theorem test_decode_move :
    decode (0b0000#4 ++ 0b1101#4 ++ 0b11#2 ++ 0b1111#4 ++ 0b00#2) =
      .instr (.move ⟨.hi 5, .decInd⟩ ⟨.pc, .reg⟩) := by decide
/-- The source's own word (95 V-S0): `ADD R0, @R1`. -/
theorem test_decode_add :
    decode (0b0001#4 ++ 0b0000#4 ++ 0b00#2 ++ 0b0001#4 ++ 0b01#2) =
      .instr (.add ⟨.lo 0, .reg⟩ ⟨.lo 1, .ind⟩) := by decide
theorem test_decode_addc :
    decode (0b0010#4 ++ 0b0111#4 ++ 0b01#2 ++ 0b1000#4 ++ 0b10#2) =
      .instr (.addc ⟨.lo 7, .ind⟩ ⟨.hi 0, .indInc⟩) := by decide
/-- The first word of the source's `SUB 0x0001, R1` (95 V-S6). -/
theorem test_decode_sub :
    decode (0b0011#4 ++ 0b1111#4 ++ 0b10#2 ++ 0b0001#4 ++ 0b00#2) =
      .instr (.sub ⟨.pc, .indInc⟩ ⟨.lo 1, .reg⟩) := by decide
theorem test_decode_subc :
    decode (0b0100#4 ++ 0b1001#4 ++ 0b00#2 ++ 0b1110#4 ++ 0b10#2) =
      .instr (.subc ⟨.hi 1, .reg⟩ ⟨.sr, .indInc⟩) := by decide
theorem test_decode_shl :
    decode (0b0101#4 ++ 0b0010#4 ++ 0b10#2 ++ 0b0011#4 ++ 0b11#2) =
      .instr (.shl ⟨.lo 2, .indInc⟩ ⟨.lo 3, .decInd⟩) := by decide
theorem test_decode_shr :
    decode (0b0110#4 ++ 0b1010#4 ++ 0b11#2 ++ 0b1011#4 ++ 0b01#2) =
      .instr (.shr ⟨.hi 2, .decInd⟩ ⟨.hi 3, .ind⟩) := by decide
theorem test_decode_swap :
    decode (0b0111#4 ++ 0b0000#4 ++ 0b11#2 ++ 0b0001#4 ++ 0b01#2) =
      .instr (.swap ⟨.lo 0, .decInd⟩ ⟨.lo 1, .ind⟩) := by decide
theorem test_decode_not :
    decode (0b1000#4 ++ 0b0100#4 ++ 0b00#2 ++ 0b0101#4 ++ 0b10#2) =
      .instr (.not ⟨.lo 4, .reg⟩ ⟨.lo 5, .indInc⟩) := by decide
theorem test_decode_and :
    decode (0b1001#4 ++ 0b1111#4 ++ 0b10#2 ++ 0b1110#4 ++ 0b00#2) =
      .instr (.and ⟨.pc, .indInc⟩ ⟨.sr, .reg⟩) := by decide
theorem test_decode_or :
    decode (0b1010#4 ++ 0b1100#4 ++ 0b01#2 ++ 0b0110#4 ++ 0b00#2) =
      .instr (.or ⟨.hi 4, .ind⟩ ⟨.lo 6, .reg⟩) := by decide
/-- The source's `XOR R0, R0` (95 V-S6). -/
theorem test_decode_xor :
    decode (0b1011#4 ++ 0b0000#4 ++ 0b00#2 ++ 0b0000#4 ++ 0b00#2) =
      .instr (.xor ⟨.lo 0, .reg⟩ ⟨.lo 0, .reg⟩) := by decide
theorem test_decode_cmp :
    decode (0b1100#4 ++ 0b0000#4 ++ 0b11#2 ++ 0b0001#4 ++ 0b11#2) =
      .instr (.cmp ⟨.lo 0, .decInd⟩ ⟨.lo 1, .decInd⟩) := by decide
theorem test_decode_reserved :
    decode (0b1101#4 ++ 0b000100100011#12) = .instr (.reservedD 0x123#12) := by decide
/-- The source's `HALT` (95 V-S6), and with unused bits set (95 V-CT-2). -/
theorem test_decode_halt :
    decode (0b1110#4 ++ 0b000000#6 ++ 0b000000#6) = .instr (.halt 0) ∧
      decode (0b1110#4 ++ 0b000000#6 ++ 0b111111#6) = .instr (.halt 63) := by decide
theorem test_decode_rti : decode (0b1110#4 ++ 0b000001#6 ++ 0b000000#6) = .instr (.rti 0) := by decide
theorem test_decode_int :
    decode (0b1110#4 ++ 0b000010#6 ++ 0b1111#4 ++ 0b10#2) = .instr (.int ⟨.pc, .indInc⟩) := by decide
theorem test_decode_incrb : decode (0b1110#4 ++ 0b000011#6 ++ 0b000000#6) = .instr (.incrb 0) := by decide
theorem test_decode_decrb : decode (0b1110#4 ++ 0b000100#6 ++ 0b000000#6) = .instr (.decrb 0) := by decide
/-- The first undefined command and the last (95 V-CT-16, V-CT-17). -/
theorem test_decode_undefined_command :
    decode (0b1110#4 ++ 0b000101#6 ++ 0b000000#6) = .undefinedCommand 0xE140#16 ∧
      decode (0b1110#4 ++ 0b111111#6 ++ 0b000000#6) = .undefinedCommand 0xEFC0#16 := by decide
/-- The first word of the source's `ABRA LOOP, !Z` (95 V-S6). -/
theorem test_decode_abra :
    decode (0b1111#4 ++ 0b1111#4 ++ 0b10#2 ++ 0b00#2 ++ 0b1#1 ++ 0b011#3) =
      .instr (.abra ⟨.pc, .indInc⟩ ⟨true, 3⟩) := by decide
/-- The first word of the source's `ASUB 0x1234, 1` (95 V-S0). -/
theorem test_decode_asub :
    decode (0b1111#4 ++ 0b1111#4 ++ 0b10#2 ++ 0b01#2 ++ 0b0#1 ++ 0b000#3) =
      .instr (.asub ⟨.pc, .indInc⟩ ⟨false, 0⟩) := by decide
theorem test_decode_rbra :
    decode (0b1111#4 ++ 0b1000#4 ++ 0b00#2 ++ 0b10#2 ++ 0b0#1 ++ 0b101#3) =
      .instr (.rbra ⟨.hi 0, .reg⟩ ⟨false, 5⟩) := by decide
theorem test_decode_rsub :
    decode (0b1111#4 ++ 0b1101#4 ++ 0b11#2 ++ 0b11#2 ++ 0b1#1 ++ 0b100#3) =
      .instr (.rsub ⟨.sp, .decInd⟩ ⟨true, 4⟩) := by decide
theorem test_decode_table_word :
    decodeTableWord 16 0xE0BE = some (.int ⟨.pc, .indInc⟩) ∧ decodeTableWord 16 0xE140 = none := by decide

/-! ### One step each, from 95_test_vectors -/

/-- R15, R14, registers, and the words of memory. -/
def start (pc sr : Word) (regs : List (Reg × Word)) (words : List (Word × Word)) : State :=
  let s : State := { State.reset with pc := pc, sr := sr }
  let s := regs.foldl (fun s p => writeReg p.1 p.2 s) s
  words.foldl (fun s p => storeHostWord p.1 p.2 s) s

/-- Part 2's state for a two-operand word on R0 and R1. -/
def two (word r0 r1 sr : Word) : State := start 0 sr [(.lo 0, r0), (.lo 1, r1)] [(0, word)]

/-- The outcome is a next state in which these registers read as given. -/
def leaves (o : Res State) (regs : List (Reg × Word)) : Bool :=
  match o with
  | .next t => regs.all fun p => readReg t p.1 == p.2
  | .fault _ => false
  | .refused _ => false

/-- The outcome is a next state with these words in memory. -/
def stores (o : Res State) (words : List (Word × Word)) : Bool :=
  match o with
  | .next t => words.all fun p => readWord t.mem p.1 == p.2
  | .fault _ => false
  | .refused _ => false

theorem test_V_MOVE_4 : leaves (step (two 0x0004 0x8000 0x0000 0x002F))
    [(.lo 1, 0x8000), (.sr, 0x0035), (.pc, 1)] = true := by decide
theorem test_V_SR_6 :
    stores (step (start 0x10 1 [(.lo 1, 0x0100)] [(0x10, 0x01C7), (0xFF, 0x00BB), (0x100, 0x00AA)]))
      [(0xFE, 0x00BB)] = true := by decide
theorem test_V_ADD_3 : leaves (step (two 0x1004 0x0001 0xFFFF 0x0001))
    [(.lo 1, 0x0000), (.sr, 0x000D)] = true := by decide
theorem test_V_AM_8 :
    stores (step (start 0x10 1 [(.lo 0, 0x0200), (.lo 1, 0x0300)]
      [(0x10, 0x1087), (0x200, 0x1111), (0x2FF, 0x0007)])) [(0x2FF, 0x1118)] = true := by decide
theorem test_V_ADDC_5 : leaves (step (two 0x2004 0x7FFF 0x0000 0x0005))
    [(.lo 1, 0x8000), (.sr, 0x0031)] = true := by decide
theorem test_V_ADDC_7 : leaves (step (two 0x2004 0x8000 0x8000 0x0005))
    [(.lo 1, 0x0001), (.sr, 0x0025)] = true := by decide
theorem test_V_SUB_6 : leaves (step (two 0x3004 0xFFFF 0x7FFF 0x0001))
    [(.lo 1, 0x8000), (.sr, 0x0035)] = true := by decide
theorem test_V_SUB_2 : leaves (step (two 0x3004 0x0001 0x0001 0x0001))
    [(.lo 1, 0x0000), (.sr, 0x0009)] = true := by decide
theorem test_V_SUBC_4 : leaves (step (two 0x4004 0xFFFF 0x0000 0x0005))
    [(.lo 1, 0x0000), (.sr, 0x000D)] = true := by decide
theorem test_V_SUBC_7 : leaves (step (two 0x4004 0x7FFF 0xFFFF 0x0005))
    [(.lo 1, 0x7FFF), (.sr, 0x0021)] = true := by decide
theorem test_V_SHL_14 : leaves (step (two 0x5004 0x0008 0x00FF 0x0037))
    [(.lo 1, 0xFFFF), (.sr, 0x0033)] = true := by decide
theorem test_V_SHL_7 : leaves (step (two 0x5004 0x0010 0x0001 0x0001))
    [(.lo 1, 0x0000), (.sr, 0x000D)] = true := by decide
theorem test_V_SHR_9 : leaves (step (two 0x6004 0x0004 0x00F0 0x0005))
    [(.lo 1, 0xF00F), (.sr, 0x0015)] = true := by decide
theorem test_V_SHR_5 : leaves (step (two 0x6004 0x0010 0x8000 0x0001))
    [(.lo 1, 0x0000), (.sr, 0x000B)] = true := by decide
theorem test_V_SWAP_5 : leaves (step (two 0x7004 0x0080 0x0000 0x003F))
    [(.lo 1, 0x8000), (.sr, 0x0035)] = true := by decide
theorem test_V_SWAP_1 : leaves (step (two 0x7004 0x1234 0x0000 0x0001))
    [(.lo 1, 0x3412), (.sr, 0x0001)] = true := by decide
theorem test_V_NOT_4 : leaves (step (two 0x8004 0x7FFF 0x0000 0x0025))
    [(.lo 1, 0x8000), (.sr, 0x0035)] = true := by decide
theorem test_V_NOT_3 : leaves (step (two 0x8004 0xFFFF 0x0000 0x0001))
    [(.lo 1, 0x0000), (.sr, 0x0009)] = true := by decide
theorem test_V_AND_5 : leaves (step (two 0x9004 0x0000 0xFFFF 0x003F))
    [(.lo 1, 0x0000), (.sr, 0x002D)] = true := by decide
theorem test_V_SRD_5 : leaves (step (start 0x10 0x033F [] [(0x10, 0x9FB8), (0x11, 0xFF00)]))
    [(.sr, 0x0301), (.pc, 0x0012)] = true := by decide
theorem test_V_OR_4 : leaves (step (two 0xA004 0x0000 0x1234 0x0027))
    [(.lo 1, 0x1234), (.sr, 0x0025)] = true := by decide
theorem test_V_OR_1 : leaves (step (two 0xA004 0xFF00 0x00FF 0x0001))
    [(.lo 1, 0xFFFF), (.sr, 0x0013)] = true := by decide
theorem test_V_XOR_4 : leaves (step (two 0xB004 0x0001 0x8001 0x0025))
    [(.lo 1, 0x8000), (.sr, 0x0035)] = true := by decide
theorem test_V_XOR_3 : leaves (step (two 0xB004 0xAAAA 0x5555 0x0001))
    [(.lo 1, 0xFFFF), (.sr, 0x0013)] = true := by decide
theorem test_V_CMP_5 : leaves (step (two 0xC004 0x0001 0xFFFF 0x0001))
    [(.lo 1, 0xFFFF), (.sr, 0x0021)] = true := by decide
theorem test_V_CMP_8 : leaves (step (two 0xC004 0x0000 0x0000 0x003F))
    [(.lo 1, 0x0000), (.sr, 0x000F)] = true := by decide
theorem test_V_CT_18 : step (start 0 1 [] [(0, 0xD123)]) = .fault (.reservedOpcode 0xD123) := rfl
theorem test_V_CT_16 : step (start 0 1 [] [(0, 0xE140)]) = .fault (.undefinedCommand 0xE140) := rfl
theorem test_V_CT_1 : leaves (step (start 0x0008 0x0009 [] [(0x0008, 0xE000)]))
    [(.sr, 0x0009), (.pc, 0x0009)] = true := by decide
theorem test_V_CT_3 :
    leaves (step { start 0x30 0x0511 [] [(0x30, 0xE040)] with inIsr := true, srSave := 0x0009, pcSave := 0x0123 })
      [(.sr, 0x0009), (.pc, 0x0123)] = true := by decide
theorem test_V_CT_4 : step (start 0x30 1 [] [(0x30, 0xE040)]) = .fault .rtiOutsideIsr := rfl
theorem test_V_CT_7 :
    leaves (step (start 0x10 0x0215 [(.hi 0, 0x3000)] [(0x10, 0xE0A2), (0x3000, 0x0444)]))
      [(.hi 0, 0x3001), (.pc, 0x0444), (.sr, 0x0215)] = true := by decide
theorem test_V_CT_9 :
    step { start 0x10 1 [] [(0x10, 0xE0BE), (0x11, 0x2000)] with inIsr := true } =
      .fault .nestedInterrupt := rfl
theorem test_V_CT_11 : leaves (step (start 0 0xFF3F [] [(0, 0xE0C0)])) [(.sr, 0x003F)] = true := by decide
theorem test_V_CT_14 : leaves (step (start 0 0x0001 [] [(0, 0xE100)])) [(.sr, 0xFF01)] = true := by decide
theorem test_V_BR_abra_taken : leaves (step (start 0x100 0x0009 [] [(0x100, 0xFF83), (0x101, 0x1234)]))
    [(.pc, 0x1234), (.sr, 0x0009)] = true := by decide
theorem test_V_BR_22 :
    leaves (step (start 0x100 1 [(.hi 0, 0x4000)] [(0x100, 0xF888)])) [(.hi 0, 0x4001), (.pc, 0x0101)] =
      true := by decide
theorem test_V_BR_1 :
    stores (step (start 0x100 1 [(.sp, 0x8000)] [(0x100, 0xFF90), (0x101, 0x1234)])) [(0x7FFF, 0x0102)] =
      true := by decide
theorem test_V_BR_5 :
    leaves (step (start 0x100 5 [(.sp, 0x8000)] [(0x100, 0xFF9A), (0x101, 0x1234)]))
      [(.sp, 0x8000), (.pc, 0x0102)] = true := by decide
theorem test_V_BR_9 : leaves (step (start 0x100 1 [] [(0x100, 0xFFA0), (0x101, 0xFFFC)]))
    [(.pc, 0x00FE)] = true := by decide
theorem test_V_BR_13 : leaves (step (start 0x100 9 [] [(0x100, 0xFFAB), (0x101, 0xFFFC)]))
    [(.pc, 0x0102)] = true := by decide
theorem test_V_BR_15 :
    leaves (step (start 0x20 1 [(.sp, 0x8000)] [(0x20, 0xFFB0), (0x21, 0x0010)]))
      [(.sp, 0x7FFF), (.pc, 0x0032)] = true := by decide
theorem test_V_BR_16 :
    stores (step (start 0x20 1 [(.sp, 0x8000)] [(0x20, 0xFFB0), (0x21, 0xFFF0)])) [(0x7FFF, 0x0022)] =
      true := by decide

/-- A hardware interrupt (95 V-HW), its registers. -/
theorem test_V_HW : leaves (step { start 6 1 [] [] with intSource := [some 0x0030] })
    [(.pc, 0x0030), (.sr, 0x0001)] = true := by decide

/-- The host's byte image, low byte first (20_memory R66). -/
theorem test_load_bytes :
    readWord (State.loadBytes 0x0010 [0x84, 0x0F, 0x00, 0x10] State.reset).mem 0x0010 = 0x0F84 := by decide

/-- A word placed for the fetch runs as the first instruction after reset. -/
theorem test_placed_halt : leaves (step (State.reset.withFetchWord 16 0xE000)) [(.pc, 1)] = true := by decide

/-! ### The host (70_reset R300) -/

/-- Words of the source's program as pairs, not in the order of their addresses, one address named twice. -/
def loaded : State :=
  State.loadPairs [(8, 0xE000), (0, 0x0F84), (1, 0x1000), (2, 0xFF8B), (3, 0x0003), (0, 0xB000)] State.reset

theorem test_load_pairs :
    loaded.readMemory 0 = some 0xB000 ∧ loaded.readMemory 8 = some 0xE000 ∧ loaded.readMemory 9 = some 0 ∧
      loaded.readMemory 0xFF00 = none := by decide
/-- The dump before the run (95 V-S4), of a machine that had run and halted. -/
theorem test_reset_keeps_image :
    State.hostReset { loaded with sr := 0x0105, pc := 0x1234, hi := Vector.replicate 6 7, halted := true } = loaded ∧
      loaded.readRegisters =
        ⟨#v[0, 0, 0, 0, 0, 0, 0, 0, 0, 0, 0, 0, 0, 0, 1, 0], 0, false, false, false, false, false⟩ := by decide
/-- The source's disassembly of the same words (95 V-S7). -/
theorem test_listing :
    (State.loadImage 0 [0xB000, 0x0F84, 0x1000, 0xFF8B, 0x0003, 0xE000] State.reset).listing 0 7 =
      ["0000: B000 XOR R00, R00", "0001: 0F84 MOVE 0x1000, R01", "0002: 1000", "0003: FF8B ABRA 0x0003, !Z",
        "0004: 0003", "0005: E000 HALT", "0006: 0000 MOVE R00, R00"] := by decide

/-- The run has ended, with these totals of instructions, reads and writes. -/
def ended (r : RunResult) (n reads writes : Nat) : Bool :=
  match r with
  | .halted c _ => c.instructions == n && c.memReads == reads && c.memWrites == writes
  | .running _ _ => false
  | .fault _ _ => false
  | .refused _ _ => false

/-- `MOVE @R0++, R1` and HALT: two fetches and one operand. -/
theorem test_run_halts :
    ended (State.run 3 .zero (State.loadPairs [(0, 0x0084), (1, 0xE000)] State.reset).hostReset) 2 3 0 = true := by
  decide
/-- The accesses of V-AM-8, V-AM-9 and V-BR-1 (95). -/
theorem test_accesses :
    ((accesses (.add ⟨.lo 0, .indInc⟩ ⟨.lo 1, .decInd⟩) State.reset).memReads = 3 ∧
      (accesses (.add ⟨.lo 0, .indInc⟩ ⟨.lo 1, .decInd⟩) State.reset).memWrites = 1) ∧
      (accesses (.move ⟨.lo 0, .ind⟩ ⟨.lo 1, .ind⟩) State.reset).memReads = 2 ∧
      (accesses (.asub ⟨.pc, .indInc⟩ ⟨false, 0⟩) State.reset).memWrites = 1 := by decide

/-! ### For every statement with hypotheses: a state and operands that meet them -/

/-- R0 and R1 address words of memory, R2 the last word of memory, R3 and R4 the ends of the I/O page, R13
the stack. -/
def base : State :=
  start 0x10 0x0001
    [(.lo 0, 0x0200), (.lo 1, 0x0300), (.lo 2, 0xFEFF), (.lo 3, 0xFF00), (.lo 4, 0xFFFF), (.sp, 0x8000)]
    [(0x200, 0x1111), (0x300, 0x0005), (0xFEFF, 0x0010)]

/-- The same with a device. -/
def baseDevice : State := base.attachDevice

/-- The same while an interrupt is serviced. -/
def baseIsr : State := { base with inIsr := true, srSave := 0x0009, pcSave := 0x0123 }

abbrev r0 : Operand := ⟨.lo 0, .reg⟩
abbrev r1 : Operand := ⟨.lo 1, .reg⟩
abbrev at0 : Operand := ⟨.lo 0, .ind⟩
abbrev at1 : Operand := ⟨.lo 1, .ind⟩
abbrev at2 : Operand := ⟨.lo 2, .ind⟩
abbrev at3 : Operand := ⟨.lo 3, .ind⟩
abbrev at4 : Operand := ⟨.lo 4, .ind⟩
abbrev toSr : Operand := ⟨.sr, .reg⟩

theorem test_witness_DecodeEncodeAgree :
    (Instr.halt 63).wellFormed = true ∧ (Instr.move ⟨.pc, .decInd⟩ ⟨.sr, .indInc⟩).wellFormed = true := by decide

theorem test_witness_SourceExamplesDecode :
    ∃ s : State, inIoPage s.pc = false ∧ readWord s.mem s.pc = 0x1234#16 :=
  ⟨start 0xFEFF 1 [] [(0xFEFF, 0x1234)], by decide, by decide⟩

theorem test_witness_EncodeDecodeAgree :
    decode 0xE13F#16 = .instr (.decrb 63) ∧ decode 0xF000#16 = .instr (.abra r0 ⟨false, 0⟩) := by decide

theorem test_witness_OnlyUndefinedCommandsAreRejected :
    (0xE140 ≤ (0xE140#16).toNat ∧ (0xE140#16).toNat ≤ 0xEFFF) ∧
      (0xE140 ≤ (0xEFFF#16).toNat ∧ (0xEFFF#16).toNat ≤ 0xEFFF) ∧
      ¬ (0xE140 ≤ (0xE13F#16).toNat ∧ (0xE13F#16).toNat ≤ 0xEFFF) ∧
      ¬ (0xE140 ≤ (0xF000#16).toNat ∧ (0xF000#16).toNat ≤ 0xEFFF) := by decide

theorem test_witness_ReservedOpcodeFaults :
    decode 0xD000#16 = .instr (.reservedD 0) ∧ decode 0xDFFF#16 = .instr (.reservedD 0xFFF) ∧
      decode 0xCFFF#16 = .instr (.cmp ⟨.pc, .decInd⟩ ⟨.pc, .decInd⟩) ∧ decode 0xE000#16 = .instr (.halt 0) := by
  decide

theorem test_witness_RegisterWriteThenRead :
    (Reg.lo 0 ≠ .sr ∧ Reg.sp ≠ .lo 0) ∧ (Reg.pc ≠ .sr ∧ Reg.sr ≠ .pc) := by decide

theorem test_witness_BankPagesAreDistinct :
    (writeReg (.lo 0) 7 base).bank = (writeReg (.lo 0) 7 base).bank ∧
      ({ writeReg (.lo 0) 7 base with sr := 0xFF01 } : State).bank = (writeReg (.lo 0) 7 base).bank ∧
      currentPage { writeReg (.lo 0) 7 base with sr := 0xFF01 } ≠ currentPage base ∧ (1 : Fin 8) ≠ 0 := by decide

theorem test_witness_StoreThenLoad :
    inIoPage 0xFEFF#16 = false ∧ (0xFEFE#16 : Word) ≠ 0xFEFF#16 ∧
      2 * 0xFEFE ≠ 2 * (0xFEFF#16).toNat ∧ 2 * 0xFEFE ≠ 2 * (0xFEFF#16).toNat + 1 := by decide

theorem test_witness_IoPageBelongsToTheDevice :
    0xFF00 ≤ (0xFF00#16).toNat ∧ 0xFF00 ≤ (0xFFFF#16).toNat ∧ base.device = none ∧
      baseDevice.device = some [] := by decide

theorem test_witness_FetchSeesStore :
    inIoPage 0xFEFF#16 = false ∧ ∃ t, memWrite 0xFEFF 0xE000 base = .next t := ⟨by decide, _, rfl⟩

theorem test_witness_DeviceHistoryGrows :
    (base.device = none ∧ ∃ t, exec (.add at0 at1) base = .next t) ∧
      (baseDevice.device = some [] ∧ ∃ t, exec (.add at3 at4) baseDevice = .next t) :=
  ⟨⟨rfl, _, rfl⟩, rfl, _, rfl⟩

theorem test_witness_OperandReadByMode :
    (∃ v t, readOperand r0 base = .next (v, t)) ∧ (∃ v t, readOperand at2 base = .next (v, t)) ∧
      (∃ v t, readOperand at4 baseDevice = .next (v, t)) ∧
      (∃ v t, readOperand ⟨.lo 2, .indInc⟩ base = .next (v, t)) ∧
      (∃ v t, readOperand ⟨.sr, .indInc⟩ base = .next (v, t)) ∧
      (∃ v t, readOperand ⟨.lo 3, .decInd⟩ base = .next (v, t)) ∧
      (∃ v t, readOperand ⟨.sr, .decInd⟩ base = .next (v, t)) ∧
      r0.mode = .reg ∧ locate at2 base = .mem 0xFEFF ∧ inIoPage 0xFEFF#16 = false ∧
      locate at3 baseDevice = .mem 0xFF00 ∧ inIoPage 0xFF00#16 = true ∧
      locate at4 baseDevice = .mem 0xFFFF ∧ inIoPage 0xFFFF#16 = true ∧ modeUpdates ⟨.lo 2, .indInc⟩ (.lo 0) = false ∧
      modeUpdates ⟨.lo 2, .indInc⟩ (.hi 0) = false ∧ modeUpdates ⟨.lo 2, .indInc⟩ .pc = false ∧
      modeUpdates ⟨.lo 2, .indInc⟩ .sr = false :=
  ⟨⟨_, _, rfl⟩, ⟨_, _, rfl⟩, ⟨_, _, rfl⟩, ⟨_, _, rfl⟩, ⟨_, _, rfl⟩, ⟨_, _, rfl⟩, ⟨_, _, rfl⟩, by decide⟩

theorem test_witness_OperandEvaluatesWhenReadable :
    readable at2 base = true ∧ readable at3 baseDevice = true ∧ readable at3 base = false ∧
      readable at4 base = false := by decide

theorem test_witness_ConstantOperandSteps :
    inIoPage { base with pc := 0xFEFF }.pc = false ∧ inIoPage { base with pc := 0x0000 }.pc = false := by decide

/-- A register, the last word of memory, the I/O page with a device, and R14 as the destination. -/
theorem test_witness_MoveSwapNotComplete :
    ∃ a s1, readOperand at0 baseDevice = .next (a, s1) ∧ readable r1 s1 = true ∧ readable at2 s1 = true ∧
      readable at4 s1 = true ∧ readable toSr s1 = true ∧ locate r1 s1 ≠ .reg .sr ∧ locate at2 s1 ≠ .reg .sr ∧
      locate at4 s1 ≠ .reg .sr ∧ locate toSr s1 = .reg .sr :=
  ⟨_, _, rfl, by decide, by decide, by decide, by decide, by decide, by decide, by decide, rfl⟩

/-- The hypotheses of a statement on a source and a destination that is read. -/
def Reads (src dst : Operand) (s : State) : Prop :=
  ∃ a s1 d s3, readOperand src s = .next (a, s1) ∧ dstRead (locate dst s1) (locateState dst s1) = .next (d, s3)

theorem test_witness_AndOrXorComplete :
    Reads at0 r1 base ∧ Reads at0 at2 base ∧ Reads r0 at4 baseDevice ∧ Reads r0 toSr base :=
  ⟨⟨_, _, _, _, rfl, rfl⟩, ⟨_, _, _, _, rfl, rfl⟩, ⟨_, _, _, _, rfl, rfl⟩, ⟨_, _, _, _, rfl, rfl⟩⟩

theorem test_witness_AddAddcComplete : Reads r0 ⟨.lo 1, .indInc⟩ base ∧ Reads ⟨.lo 0, .decInd⟩ r0 base :=
  ⟨⟨_, _, _, _, rfl, rfl⟩, ⟨_, _, _, _, rfl, rfl⟩⟩

theorem test_witness_SubSubcComplete : Reads r0 ⟨.lo 1, .decInd⟩ base ∧ Reads ⟨.pc, .indInc⟩ r0 base :=
  ⟨⟨_, _, _, _, rfl, rfl⟩, ⟨_, _, _, _, rfl, rfl⟩⟩

/-- Counts 0, 16 and 17, at which the clauses of the closed forms meet, and the largest. -/
theorem test_witness_ShlClosedForm :
    ∀ n ∈ [0#16, 15#16, 16#16, 17#16, 0xFFFF#16], Reads r0 r1 (writeReg (.lo 0) n base) :=
  fun _ _ => ⟨_, _, _, _, rfl, rfl⟩

theorem test_witness_ShrClosedForm :
    ∀ n ∈ [0#16, 15#16, 16#16, 17#16, 0xFFFF#16], Reads r0 r1 (writeReg (.lo 0) n base) :=
  fun _ _ => ⟨_, _, _, _, rfl, rfl⟩

theorem test_witness_CmpFlagTable :
    Reads at0 at1 base ∧ Reads toSr toSr base ∧ bitC ≠ bitZ ∧ bitC ≠ bitN ∧ bitC ≠ bitV :=
  ⟨⟨_, _, _, _, rfl, rfl⟩, ⟨_, _, _, _, rfl, rfl⟩, by decide⟩

theorem test_witness_TwoOperandRegisterFrame :
    twoOperands (.add at0 ⟨.lo 1, .indInc⟩) = some (at0, ⟨.lo 1, .indInc⟩) ∧
      (∃ t, exec (.add at0 ⟨.lo 1, .indInc⟩) base = .next t) ∧
      mayWriteReg (.add at0 ⟨.lo 1, .indInc⟩) at0 ⟨.lo 1, .indInc⟩ (.hi 5) = false ∧
      mayWriteReg (.add at0 ⟨.lo 1, .indInc⟩) at0 ⟨.lo 1, .indInc⟩ (.lo 0) = false ∧
      mayWriteReg (.add at0 ⟨.lo 1, .indInc⟩) at0 ⟨.lo 1, .indInc⟩ .sr = false ∧
      mayWriteReg (.add at0 ⟨.lo 1, .indInc⟩) at0 ⟨.lo 1, .indInc⟩ .pc = false ∧
      (255 : BitVec 8) ≠ currentPage base := ⟨rfl, ⟨_, rfl⟩, by decide⟩

theorem test_witness_TwoOperandFlagFrame :
    twoOperands (.move r0 r1) = some (r0, r1) ∧ (∃ t, exec (.move r0 r1) base = .next t) ∧
      mayWriteReg (.move r0 r1) r0 r1 .sr = false ∧ bitV ∉ flagsWritten (.move r0 r1) ∧
      bitC ∉ flagsWritten (.move r0 r1) := ⟨rfl, ⟨_, rfl⟩, by decide⟩

/-- A register destination, CMP, the last word of memory, and the I/O page. -/
theorem test_witness_TwoOperandMemoryFrame :
    (twoOperands (.sub r0 r1) = some (r0, r1) ∧ (∃ t, exec (.sub r0 r1) base = .next t) ∧ r1.mode = .reg) ∧
      (twoOperands (.cmp r0 at2) = some (r0, at2) ∧ (∃ t, exec (.cmp r0 at2) base = .next t) ∧
        writesDestination (.cmp r0 at2) = false) ∧
      (twoOperands (.or r0 at2) = some (r0, at2) ∧ (∃ t, exec (.or r0 at2) base = .next t) ∧
        ∃ r, readOperand r0 base = .next r ∧ locate at2 r.2 = .mem 0xFEFF) ∧
      (twoOperands (.or r0 at3) = some (r0, at3) ∧ (∃ t, exec (.or r0 at3) baseDevice = .next t) ∧
        ∃ r, readOperand r0 baseDevice = .next r ∧ locate at3 r.2 = .mem 0xFF00 ∧
          inIoPage 0xFF00#16 = true) :=
  ⟨⟨rfl, ⟨_, rfl⟩, rfl⟩, ⟨rfl, ⟨_, rfl⟩, rfl⟩, ⟨rfl, ⟨_, rfl⟩, _, rfl, by decide⟩, rfl, ⟨_, rfl⟩, _, rfl,
    by decide⟩

theorem test_witness_TwoOperandStopsOnlyAtIoPage :
    twoOperands (.shl at0 at2) = some (at0, at2) ∧ operandsReady at0 at2 base = true ∧
      operandsReady at0 at3 base = false ∧ operandsReady at4 at0 base = false ∧
      operandsReady at4 at3 baseDevice = true := by decide

theorem test_witness_MoveToStatusRegisterWins : ∃ a s1, readOperand at2 base = .next (a, s1) := ⟨_, _, rfl⟩

theorem test_witness_AddThenSubRestores :
    Reg.lo 0 ≠ .pc ∧ Reg.lo 0 ≠ .sr ∧ Reg.pc ≠ .sr ∧ Reg.hi 5 ≠ .lo 7 := by decide

theorem test_witness_SubComparesLikeSigned : Reads r0 at2 base ∧ locate at2 base ≠ .reg .sr :=
  ⟨⟨_, _, _, _, rfl, rfl⟩, by decide⟩

theorem test_witness_OnlyHaltHalts :
    (∃ t, exec (.halt 0) base = .next t ∧ t.halted ≠ base.halted) ∧
      (∃ t, step (start 0 1 [] [(0, 0xE000)]) = .next t ∧ (start 0 1 [] [(0, 0xE000)]).halted = false ∧
        t.halted = true) ∧
      ∃ t, step { base with halted := true } = .next t :=
  ⟨⟨_, rfl, by decide⟩, ⟨_, rfl, rfl, rfl⟩, _, rfl⟩

theorem test_witness_HaltedMachineIsStuck :
    { base with halted := true, intSource := [some 0x30] }.halted = true := by decide

theorem test_witness_RtiReturns : baseIsr.inIsr = true ∧ base.inIsr = false := by decide

theorem test_witness_IntEnters :
    (∃ a s1, readOperand ⟨.lo 0, .indInc⟩ base = .next (a, s1) ∧ base.inIsr = false) ∧
      ∃ a s1, readOperand ⟨.lo 0, .indInc⟩ baseIsr = .next (a, s1) ∧ baseIsr.inIsr = true :=
  ⟨⟨_, _, rfl, rfl⟩, _, _, rfl, rfl⟩

theorem test_witness_InterruptThenReturnResumes :
    ∃ a s1, readOperand ⟨.sr, .decInd⟩ base = .next (a, s1) ∧ base.inIsr = false := ⟨_, _, rfl, rfl⟩

theorem test_witness_HardwareInterruptEntry :
    ∃ s : State, s.intSource = some 0x0030 :: [] ∧ s.halted = false ∧ s.inIsr = false :=
  ⟨{ base with intSource := [some 0x0030] }, rfl, rfl, rfl⟩

theorem test_witness_RequestHeldOffInIsr :
    (∃ s t : State, s.intSource = some 0x0030 :: [none] ∧ s.halted = false ∧ s.inIsr = true ∧
      step s = .next t) ∧
      ∃ s t : State, s.intSource = some 0x0030 :: [] ∧ s.halted = false ∧ exec (.rti 0) s = .next t :=
  ⟨⟨{ baseIsr with intSource := [some 0x0030, none] }, _, rfl, rfl, rfl, rfl⟩,
    { baseIsr with intSource := [some 0x0030] }, _, rfl, rfl, rfl⟩

theorem test_witness_OnlyRtiLeavesIsr :
    baseIsr.inIsr = true ∧ (∃ t, exec (.rti 0) baseIsr = .next t ∧ t.inIsr = false) ∧
      (∃ s : State, s.inIsr = false ∧ s.halted = false ∧ s.intSource = some 0x0030 :: []) :=
  ⟨rfl, ⟨_, rfl, rfl⟩, { base with intSource := [some 0x0030] }, rfl, rfl, rfl⟩

/-- An instruction that leaves the latches, a step that changes them, and one that is no RTI. -/
theorem test_witness_LatchesServeInterruptsOnly :
    (∃ t, exec (.add at0 at1) base = .next t ∧ ∀ o, Instr.add at0 at1 ≠ .int o) ∧
      (∃ t, step { base with intSource := [some 0x0030] } = .next t ∧ t.pcSave ≠ base.pcSave) ∧
      (∀ unused, Instr.int at0 ≠ .rti unused) :=
  ⟨⟨_, rfl, by simp⟩, ⟨_, rfl, by decide⟩, by simp⟩

/-- A condition that holds and one that does not, at the first and the last bit a jump can select. -/
theorem test_witness_BranchesComplete :
    ∃ a s1, readOperand at2 base = .next (a, s1) ∧ conditionHolds ⟨false, 0⟩ s1 ∧ ¬ conditionHolds ⟨true, 0⟩ s1 ∧
      conditionHolds ⟨true, 7⟩ s1 ∧ ¬ conditionHolds ⟨false, 7⟩ s1 :=
  ⟨_, _, rfl, by unfold conditionHolds; decide⟩

/-- The push at the first and the last word of memory, and in the I/O page with a device. -/
theorem test_witness_CallsComplete :
    (∃ a s1, readOperand r0 (writeReg .sp 0x0001 base) = .next (a, s1) ∧ conditionHolds ⟨false, 0⟩ s1 ∧
      ¬ conditionHolds ⟨true, 0⟩ s1 ∧ accessible s1 (readReg s1 .sp - 1) = true) ∧
    (∃ a s1, readOperand r0 (writeReg .sp 0xFF00 base) = .next (a, s1) ∧ conditionHolds ⟨false, 0⟩ s1 ∧
      accessible s1 (readReg s1 .sp - 1) = true) ∧
    (∃ a s1, readOperand r0 (writeReg .sp 0x0000 baseDevice) = .next (a, s1) ∧ conditionHolds ⟨false, 0⟩ s1 ∧
      accessible s1 (readReg s1 .sp - 1) = true ∧ inIoPage (readReg s1 .sp - 1) = true) :=
  ⟨⟨_, _, rfl, by unfold conditionHolds; decide⟩, ⟨_, _, rfl, by unfold conditionHolds; decide⟩, _, _, rfl,
    by unfold conditionHolds; decide⟩

theorem test_witness_JumpsStopOnlyAtIoPage :
    jumpOperand (.rsub r0 ⟨false, 0⟩) = some (r0, ⟨false, 0⟩) ∧
      (∃ t, exec (.rsub r0 ⟨false, 0⟩) base = .next t) ∧
      exec (.rsub r0 ⟨false, 0⟩) (writeReg .sp 0 base) = .refused (.noIODevice 0xFFFF) := ⟨rfl, ⟨_, rfl⟩, rfl⟩

theorem test_witness_CallThenReturn :
    (Instr.asub = .asub ∨ Instr.asub = .rsub) ∧ ∃ a s1, readOperand r0 (writeReg .sp 0xFF00 base) = .next (a, s1) ∧
      conditionHolds ⟨false, 0⟩ s1 ∧ inIoPage (readReg s1 .sp - 1) = false :=
  ⟨.inl rfl, _, _, rfl, by unfold conditionHolds; decide⟩

theorem test_witness_StepRunsDecodedInstruction :
    ∃ s s0 t : State, boundary s = .run s0 ∧ fetch s0 = .next (0xE000, t) ∧ decode 0xE000 = .instr (.halt 0) ∧
      (Instr.halt 0).wellFormed = true ∧ s.halted = false ∧ s.intSource = [] ∧ inIoPage s.pc = false :=
  ⟨start 0xFEFF 1 [] [(0xFEFF, 0xE000)], _, _, rfl, rfl, by decide, rfl, rfl, rfl, rfl⟩

theorem test_witness_StepRunsDecodedInstruction_undefined :
    ∃ s s0 t : State, boundary s = .run s0 ∧ fetch s0 = .next (0xE140, t) ∧
      decode 0xE140 = .undefinedCommand 0xE140 :=
  ⟨start 0 1 [] [(0, 0xE140)], _, _, rfl, rfl, by decide⟩

theorem test_witness_StepRunsDecodedInstruction_io_page :
    (inIoPage { baseDevice with pc := 0xFF00 }.pc = true ∧ { baseDevice with pc := 0xFF00 }.device = some []) ∧
      (inIoPage { baseDevice with pc := 0xFFFF }.pc = true ∧ { baseDevice with pc := 0xFFFF }.device = some []) ∧
      inIoPage { base with pc := 0xFF00 }.pc = true ∧ { base with pc := 0xFF00 }.device = none := by decide

theorem test_witness_StepRunsDecodedInstruction_quiet :
    base.halted = false ∧ { base with intSource := [none] }.intSource = none :: [] := ⟨rfl, rfl⟩

theorem test_witness_StepFaultsOnlyAsNamed :
    (∃ e, step (start 0 1 [] [(0, 0xDFFF)]) = .fault e) ∧ (∃ e, step (start 0 1 [] [(0, 0xEFFF)]) = .fault e) ∧
      (∃ e, step { start 0 1 [] [(0, 0xE080)] with inIsr := true } = .fault e) ∧
      ∃ e, step (start 0 1 [] [(0, 0xE040)]) = .fault e :=
  ⟨⟨_, rfl⟩, ⟨_, rfl⟩, ⟨_, rfl⟩, _, rfl⟩

/-- A fetch and an operand in the I/O page without a device. -/
theorem test_witness_StepRefusesOnlyIoPage :
    (∃ e, step { base with pc := 0xFF00 } = .refused e) ∧
      ∃ e, step (start 0 1 [(.lo 0, 0xFFFF)] [(0, 0x0044)]) = .refused e := ⟨⟨_, rfl⟩, _, rfl⟩

/-- Placed at a pc in memory, and at one in the I/O page. -/
theorem test_witness_PlacedWordRunsNext :
    decode 0xE000#16 = .instr (.halt 0) ∧ inIoPage base.pc = false ∧
      inIoPage { base with pc := 0xFF00 }.pc = true := by decide

theorem test_witness_DestinationByMode :
    r0.mode = .reg ∧ at0.mode = .ind ∧ (⟨.sr, .indInc⟩ : Operand).mode = .indInc ∧
      (⟨.sp, .decInd⟩ : Operand).mode = .decInd ∧ inIoPage 0xFEFF#16 = false ∧ inIoPage 0xFF00#16 = true ∧
      inIoPage 0xFFFF#16 = true ∧ baseDevice.device = some [] := by decide

/-- An address that two pairs name, the last word of memory, the I/O page, and an image around 0xFFFF. -/
theorem test_witness_LoadWritesItsPairs :
    ([(0xFEFF#16, 1#16), (0xFEFF#16, 2#16), (0xFF00#16, 3#16)] =
      [(0xFEFF#16, 1#16)] ++ (0xFEFF#16, 2#16) :: [(0xFF00#16, 3#16)]) ∧ inIoPage 0xFEFF#16 = false ∧
      (∀ p ∈ [(0xFF00#16, 3#16)], p.1 ≠ 0xFEFF#16) ∧ base.wf = true ∧
      [1#16, 2#16].length ≤ 65536 ∧ inIoPage (0xFFFF#16 + BitVec.ofNat 16 1) = false ∧
      (∀ k, k < 2 → inIoPage (0xFFFF#16 + BitVec.ofNat 16 k) = false →
        4 ≠ 2 * (0xFFFF#16 + BitVec.ofNat 16 k).toNat ∧ 4 ≠ 2 * (0xFFFF#16 + BitVec.ofNat 16 k).toNat + 1) :=
  ⟨rfl, by decide, by simp, by decide, by simp, by decide, by decide⟩

theorem test_witness_ResetKeepsTheImage :
    Memory.wf base.mem = true ∧ loaded.intSource = [] ∧
      decode (readWord loaded.mem 0x0000#16) = .instr (.xor r0 r0) := by decide

/-- A run that halts, one that goes on, one that faults, and one that is refused. -/
theorem test_witness_RunEndsAtFirstHalt :
    (∃ t, Host.Core.run Sys2Proof.core 1 (start 0 1 [] [(0, 0xE000)]) = .next t ∧ t.halted = true) ∧
      (∃ t, Host.Core.run Sys2Proof.core 0 base = .next t ∧ base.halted = false) ∧
      (∃ e, Host.Core.run Sys2Proof.core 1 (start 0 1 [] [(0, 0xD000)]) = .fault e) ∧
      (∃ e, Host.Core.run Sys2Proof.core 1 { base with pc := 0xFF00 } = .refused e) ∧
      ∃ c' t, State.run 1 .zero (start 0 1 [] [(0, 0xE000)]) = .halted c' t :=
  ⟨⟨_, rfl, rfl⟩, ⟨_, rfl, rfl⟩, ⟨_, rfl⟩, ⟨_, rfl⟩, _, _, rfl⟩

/-- An interrupt entry, which counts nothing, and an instruction, in memory and with a device. -/
theorem test_witness_StatisticsBoundAccesses :
    (∃ t, step { base with intSource := [some 0x0030] } = .next t ∧
      stepAccesses { base with intSource := [some 0x0030] } = none) ∧
      (∃ t w a, step base = .next t ∧ stepAccesses base = some (w, a) ∧ a.memWrites = 0) ∧
      ∃ t w a, step baseDevice = .next t ∧ stepAccesses baseDevice = some (w, a) ∧ baseDevice.device = some [] :=
  ⟨⟨_, rfl, rfl⟩, ⟨_, _, _, rfl, rfl, rfl⟩, _, _, _, rfl, rfl, rfl⟩

theorem test_witness_StepKeepsWellFormed :
    base.wf = true ∧ baseIsr.wf = true ∧ ∃ t, step base = .next t := ⟨by decide, by decide, _, rfl⟩

end Sys2Proof.Tests
end

section
/-! SUPPORT. The registers and R14 read and written, the constant operand, and CMP. -/

namespace Sys2Proof.Machine

/-- Which page the window shows after a write of R14 (10_state R25). -/
theorem currentPage_writeReg_sr (v : Word) (s : State) :
    currentPage (writeReg .sr v s) = v.extractLsb' 8 8 :=
  rbankOf_srFixed _ v

/-- Settles O8: the read-after-write laws of the registers, and for R14 the page its write shows. -/
theorem registerWriteThenRead : Obligations.RegisterWriteThenRead := by
  intro s v
  refine ⟨fun r hr => ⟨?_, fun q hq => readReg_writeReg_other s r q v hq hr⟩, fun k => ?_, fun _ => rfl, rfl⟩
  · rw [readReg_writeReg_same, if_neg hr]
  · rw [readReg_lo, currentPage_writeReg_sr]
    exact readBank_writeReg_other s .sr v _ k nofun

theorem readBank_congr {s u : State} (h : u.bank = s.bank) (page : BitVec 8) (i : Fin 8) :
    readBank u page i = readBank s page i := by
  rw [readBank, readBank, h]

/-- Settles O9: what the window reads is one register of the bank, and the write reached one. -/
theorem bankPagesAreDistinct : Obligations.BankPagesAreDistinct := by
  intro s u i v hbank
  have hread : ∀ j, readReg u (.lo j) =
      if currentPage u = currentPage s ∧ j = i then v else readBank s (currentPage u) j := fun j => by
    rw [readReg_lo, readBank_congr hbank, readBank_writeReg_lo]
  exact ⟨by simp [hread], fun j hj => by simp [hread, hj]⟩

/-- Settles O10: what was written is read back through the hard-wired bits. -/
theorem statusRegisterWrite : Obligations.StatusRegisterWrite := by
  intro s v k
  rw [readReg_writeReg_same, if_pos rfl, Config_srUnusedBits, getLsbD_srFixed]
  grind

theorem getLsbD_readReg_sr_zero (s : State) : (readReg s .sr).getLsbD 0 = true := by
  simp [readSr, getLsbD_srFixed]

/-- Settles O11: every read of R14 goes through its hard-wired bits. -/
theorem alwaysOneBit : Obligations.AlwaysOneBit := by
  intro s v
  have hbit := getLsbD_readReg_sr_zero s
  rw [readReg_sr] at hbit
  exact ⟨hbit, getLsbD_readReg_sr_zero _, by simp [taken, hbit], by simp [taken, hbit]⟩

theorem memRead_of_memory {a : Word} {s : State} (h : inIoPage a = false) :
    memRead a s = .next (readWord s.mem a, s) :=
  (memRead_eq_next ..).2 (.inl ⟨h, rfl⟩)

/-- Settles O18: the read leaves the state, and the increment is of R15. -/
theorem constantOperandSteps : Obligations.ConstantOperandSteps := by
  intro s h
  simp only [readOperand, readReg_pc, memRead_of_memory h, andThen_next]
  rfl

/-- What CMP's flag writes leave at each bit of R14 (10_state R37). -/
theorem getLsbD_cmpFlags (a d sr : Word) (k : Nat) :
    ((cmpFlags a d).apply sr).getLsbD k =
      if k = bitV then decide (d.toInt < a.toInt) else if k = bitN then decide (d.toNat < a.toNat)
      else if k = bitZ then decide (a = d) else sr.getLsbD k := by
  rw [getLsbD_apply]
  simp [cmpFlags, BitVec.slt, BitVec.ult, beq_eq_decide]

/-- Settles O25: CMP ends with its flag writes, and each flag is one comparison. -/
theorem cmpFlagTable : Obligations.CmpFlagTable := by
  intro src dst s s1 s3 a d h1 h2
  refine ⟨writeFlags (cmpFlags a d) s3, ?_, rfl, ?_, ?_, ?_, fun k hz hn hv => ?_⟩
  · rw [exec_cmp, compareOnly_eq_next]
    exact ⟨a, s1, d, s3, h1, h2, rfl⟩
  · simp [readFlag_writeFlags, getLsbD_cmpFlags]
  · simp [readFlag_writeFlags, getLsbD_cmpFlags]
  · simp [readFlag_writeFlags, getLsbD_cmpFlags]
  · have hk := readFlag_writeFlags (cmpFlags a d) s3 k
    rw [getLsbD_cmpFlags, if_neg hv, if_neg hn, if_neg hz] at hk
    exact hk

end Sys2Proof.Machine
end

section
/-! SUPPORT. The frame of the two-operand instructions: which registers and which bits of R14 they change. -/

namespace Sys2Proof.Machine

/-- From `s` to `t` only the registers `w` names changed: of the bank only the page that `s` shows, unless R14 is
among them. Flags, memory and the device may change; the hidden state stays. Unlike `ModeFrame` it composes along
the parts of an instruction. -/
structure ChangesOnly (w : Reg → Bool) (s t : State) : Prop where
  hi : ∀ k : Fin 6, w (.hi k) = false → t.hi[k.val] = s.hi[k.val]
  lo : ∀ page k, w (.lo k) = false → readBank t page k = readBank s page k
  window : w .sr = false → ∀ page k, page ≠ currentPage s → readBank t page k = readBank s page k
  page : w .sr = false → currentPage t = currentPage s
  pc : w .pc = false → t.pc = s.pc
  hidden : sameHidden s t

theorem ChangesOnly.trans {w : Reg → Bool} {s t u : State} (h : ChangesOnly w s t) (g : ChangesOnly w t u) :
    ChangesOnly w s u where
  hi k hk := (g.hi k hk).trans (h.hi k hk)
  lo page k hk := (g.lo page k hk).trans (h.lo page k hk)
  window hs page k hp := (g.window hs page k (by rwa [h.page hs])).trans (h.window hs page k hp)
  page hs := (g.page hs).trans (h.page hs)
  pc hp := (g.pc hp).trans (h.pc hp)
  hidden := sameHidden_trans h.hidden g.hidden

theorem changesOnly_refl (w : Reg → Bool) (s : State) : ChangesOnly w s s :=
  ⟨fun _ _ => rfl, fun _ _ _ => rfl, fun _ _ _ _ => rfl, fun _ => rfl, fun _ => rfl, sameHidden_refl s⟩

theorem changesOnly_device (w : Reg → Bool) (s : State) (d : Option (List IoEvent)) :
    ChangesOnly w s { s with device := d } :=
  ⟨fun _ _ => rfl, fun _ _ _ => rfl, fun _ _ _ _ => rfl, fun _ => rfl, fun _ => rfl, sameHidden_refl s⟩

theorem changesOnly_writeFlags (w : Reg → Bool) (f : FlagWrites) (s : State) :
    ChangesOnly w s (writeFlags f s) :=
  ⟨fun _ _ => rfl, fun _ _ _ => rfl, fun _ _ _ _ => rfl, fun _ => currentPage_writeFlags f s, fun _ => rfl,
    sameHidden_refl s⟩

/-- The frame of an operand's mode, for every `w` that names the register the mode updates. -/
theorem changesOnly_of_modeFrame {w : Reg → Bool} {o : Operand} {s t : State} (h : ModeFrame o s t)
    (hidden : sameHidden s t) (hw : ∀ r, w r = false → modeUpdates o r = false) : ChangesOnly w s t where
  hi k hk := h.hi k (hw _ hk)
  lo page k hk := h.lo page k (.inl (hw _ hk))
  window _ page k hp := h.lo page k (.inr hp)
  page hs := by rw [currentPage, currentPage, h.sr (hw _ hs)]
  pc hp := h.pc (hw _ hp)
  hidden := hidden

theorem changesOnly_locateState {w : Reg → Bool} {o : Operand} (s : State)
    (hw : ∀ r, w r = false → modeUpdates o r = false) : ChangesOnly w s (locateState o s) :=
  changesOnly_of_modeFrame (modeFrame_locateState o s) (by simp [sameHidden]) hw

theorem changesOnly_dstFinish {w : Reg → Bool} {o : Operand} (s : State)
    (hw : ∀ r, w r = false → modeUpdates o r = false) : ChangesOnly w s (dstFinish o s) :=
  changesOnly_of_modeFrame (modeFrame_dstFinish o s) (by simp [sameHidden]) hw

theorem dstRead_changes_device {l : Loc} {s t : State} {v : Word} (h : dstRead l s = .next (v, t)) :
    t = { s with device := t.device } :=
  (dstRead_state _ _ _ h).1

theorem changesOnly_dstRead (w : Reg → Bool) {l : Loc} {s t : State} {v : Word}
    (h : dstRead l s = .next (v, t)) : ChangesOnly w s t := by
  rw [dstRead_changes_device h]
  exact changesOnly_device w s _

theorem changesOnly_readOperand {w : Reg → Bool} {o : Operand} {s t : State} {v : Word}
    (h : readOperand o s = .next (v, t)) (hw : ∀ r, w r = false → modeUpdates o r = false) :
    ChangesOnly w s t := by
  obtain ⟨v', u, hd, he⟩ := (readOperand_eq_next ..).1 h
  obtain ⟨rfl, rfl⟩ := Prod.mk.inj he
  exact ((changesOnly_locateState s hw).trans (changesOnly_dstRead w hd)).trans (changesOnly_dstFinish u hw)

theorem changesOnly_dstWrite {w : Reg → Bool} {l : Loc} {v : Word} {s t : State}
    (h : dstWrite l v s = .next t) (hw : ∀ r, l = .reg r → w r = true) : ChangesOnly w s t := by
  cases l with
  | reg r =>
    cases h
    have hr : w r = true := hw r rfl
    have hne : ∀ q, w q = false → r ≠ q := by
      rintro q hq rfl
      simp [hr] at hq
    obtain ⟨hi, lo, pc, sr, -, -, hidden⟩ := onlyRegChanged_writeReg r v s
    exact ⟨fun k hk => hi k (hne _ hk), fun p k hk => lo p k (.inl (hne _ hk)),
      fun _ p k hp => lo p k (.inr hp), fun hs => by rw [currentPage, currentPage, sr (hne _ hs)],
      fun hp => pc (hne _ hp), hidden⟩
  | mem a =>
    rcases (memWrite_eq_next ..).1 h with ⟨-, rfl⟩ | ⟨-, h', -, rfl⟩
    · exact ⟨fun _ _ => rfl, fun _ _ _ => rfl, fun _ _ _ _ => rfl, fun _ => rfl, fun _ => rfl, sameHidden_refl s⟩
    · exact changesOnly_device w s _

theorem mayWriteReg_eq_false {i : Instr} {src dst : Operand} {r : Reg} (h : mayWriteReg i src dst r = false) :
    modeUpdates src r = false ∧ modeUpdates dst r = false ∧ (writesDestination i = true → dst ≠ ⟨r, .reg⟩) := by
  simp only [mayWriteReg, Bool.or_eq_false_iff] at h
  obtain ⟨⟨hsrc, hdst⟩, hwrite⟩ := h
  refine ⟨hsrc, hdst, ?_⟩
  rintro hi rfl
  simp [hi] at hwrite

/-- A two-operand instruction changes the registers of its modes and a register destination only. -/
theorem twoStep_changesOnly {i : Instr} {src dst : Operand} {s t s1 s3 u : State} {a res : Word}
    {fl : FlagWrites} (h : TwoStep i src dst s t a s1 s3 u res fl) :
    ChangesOnly (mayWriteReg i src dst) s t := by
  obtain ⟨operand, located, write, -, rfl⟩ := h
  have hsrc : ∀ r, mayWriteReg i src dst r = false → modeUpdates src r = false :=
    fun r hr => (mayWriteReg_eq_false hr).1
  have hdst : ∀ r, mayWriteReg i src dst r = false → modeUpdates dst r = false :=
    fun r hr => (mayWriteReg_eq_false hr).2.1
  have f1 : ChangesOnly (mayWriteReg i src dst) s s1 := changesOnly_readOperand operand hsrc
  have f3 : ChangesOnly (mayWriteReg i src dst) s1 s3 := by
    rw [twoStep_located located]
    exact (changesOnly_locateState s1 hdst).trans (changesOnly_device _ _ _)
  have fu : ChangesOnly (mayWriteReg i src dst) (writeFlags fl s3) u := by
    split at write
    next hi =>
      refine changesOnly_dstWrite write fun r hl => ?_
      simp [mayWriteReg, hi, locate_eq_reg hl]
    next => exact write ▸ changesOnly_refl _ _
  exact (((f1.trans f3).trans (changesOnly_writeFlags _ fl s3)).trans fu).trans (changesOnly_dstFinish u hdst)

/-- Settles O26: the frame of the registers composes along source, destination, flags, write and increment. -/
theorem twoOperandRegisterFrame : Obligations.TwoOperandRegisterFrame := by
  intro i src dst s t hi h
  obtain ⟨a, s1, s3, u, res, fl, hstep⟩ := two_cases i src dst s t hi h
  obtain ⟨hi, lo, window, -, pc, hidden⟩ := twoStep_changesOnly hstep
  exact ⟨hi, fun k hk page => lo page k hk, window, pc, hidden⟩

theorem sr_readOperand {o : Operand} {s t : State} {v : Word} (h : readOperand o s = .next (v, t))
    (ho : modeUpdates o .sr = false) : t.sr = s.sr := by
  obtain ⟨v', u, hd, he⟩ := (readOperand_eq_next ..).1 h
  obtain ⟨rfl, rfl⟩ := Prod.mk.inj he
  calc (dstFinish o u).sr
      _ = u.sr := (modeFrame_dstFinish o u).sr ho
      _ = (locateState o s).sr := by rw [dstRead_changes_device hd]
      _ = s.sr := (modeFrame_locateState o s).sr ho

/-- Where R14 is neither a destination nor the register of a mode, an instruction leaves there its flag writes and
nothing else. -/
theorem twoStep_sr {i : Instr} {src dst : Operand} {s t s1 s3 u : State} {a res : Word} {fl : FlagWrites}
    (h : TwoStep i src dst s t a s1 s3 u res fl) (hsr : mayWriteReg i src dst .sr = false) :
    t.sr = fl.apply s.sr := by
  obtain ⟨operand, located, write, -, rfl⟩ := h
  obtain ⟨hsrc, hdst, hdest⟩ := mayWriteReg_eq_false hsr
  have hu : u.sr = (writeFlags fl s3).sr := by
    split at write
    next hi => exact sr_dstWrite write fun hl => hdest hi (locate_eq_reg hl)
    next => rw [write]
  have h3 : s3.sr = s.sr :=
    calc s3.sr
      _ = (locateState dst s1).sr := by rw [twoStep_located located]
      _ = s1.sr := (modeFrame_locateState dst s1).sr hdst
      _ = s.sr := sr_readOperand operand hsrc
  rw [(modeFrame_dstFinish dst u).sr hdst, hu, writeFlags_sr, h3]

/-- Settles O27: R14 takes the flag writes only, and these keep every bit the table does not mark. -/
theorem twoOperandFlagFrame : Obligations.TwoOperandFlagFrame := by
  intro i src dst s t hi h hsr k hk
  obtain ⟨a, s1, s3, u, res, fl, hstep⟩ := two_cases i src dst s t hi h
  simp only [readReg_sr, readSr, Config_srUnusedBits, getLsbD_srFixed, twoStep_sr hstep hsr, hstep.flags k hk]

end Sys2Proof.Machine
end

section
/-! SUPPORT. HALTED and the latches: which instructions write them, and that only RTI reads the latches. -/

namespace Sys2Proof.Machine

theorem jumpStep_hidden {i : Instr} {o : Operand} {c : Cond} {s t : State} (h : JumpStep i o c s t) :
    sameHidden s t := by
  cases h with
  | untaken a operand _ => exact readOperand_hidden operand
  | jump a b s1 operand _ _ fin =>
    have hidden : sameHidden s s1 := readOperand_hidden operand
    rw [fin]
    exact hidden
  | call a b s1 u operand _ _ pushed fin =>
    obtain ⟨-, -, -, hidden⟩ := push_state pushed
    have hiddenU : sameHidden s u := sameHidden_trans (readOperand_hidden operand) hidden
    rw [fin]
    exact hiddenU

/-- All that an instruction can do to the hidden state: nothing, or it is HALT, RTI or INT. -/
theorem exec_hidden_cases {i : Instr} {s t : State} (h : exec i s = .next t) :
    sameHidden s t ∨ (∃ x, i = .halt x ∧ t = { s with halted := true }) ∨
      (∃ x, i = .rti x ∧ t = returnFromInterrupt s) ∨
      (∃ o a s1, i = .int o ∧ sameHidden s s1 ∧ s1.inIsr = false ∧ t = takeInterrupt a s1) := by
  rcases instr_kinds i with ⟨src, dst, hi⟩ | ⟨o, c, hi⟩ | ⟨p, rfl⟩ | ⟨x, rfl⟩ | ⟨x, rfl⟩ | ⟨o, rfl⟩ |
    ⟨x, rfl⟩ | ⟨x, rfl⟩
  · obtain ⟨a, s1, s3, u, res, fl, hstep⟩ := two_cases i src dst s t hi h
    exact .inl (twoStep_changesOnly hstep).hidden
  · exact .inl (jumpStep_hidden (jump_cases i o c s t hi h))
  · cases h
  · cases h
    exact .inr (.inl ⟨x, rfl, rfl⟩)
  · exact .inr (.inr (.inl ⟨x, rfl, (rti_cases x s t h).2⟩))
  · obtain ⟨a, s1, operand, hisr, rfl⟩ := int_cases o s t h
    exact .inr (.inr (.inr ⟨o, a, s1, rfl, readOperand_hidden operand, hisr, rfl⟩))
  all_goals
    cases h
    exact .inl (sameHidden_refl s)

theorem halt_of_halted_ne {i : Instr} {s t : State} (h : exec i s = .next t) (hne : t.halted ≠ s.halted) :
    ∃ x, i = .halt x := by
  rcases exec_hidden_cases h with ⟨-, -, -, halted, -⟩ | ⟨x, rfl, -⟩ | ⟨x, -, rfl⟩ |
    ⟨o, a, s1, -, ⟨-, -, -, halted, -⟩, -, rfl⟩
  · exact absurd halted hne
  · exact ⟨x, rfl⟩
  · exact absurd rfl hne
  · exact absurd halted hne

theorem fetch_hidden {s t : State} {w : Word} (h : fetch s = .next (w, t)) : sameHidden s t := by
  rw [(fetch_eq_next h).1]
  exact sameHidden_refl s

/-- Settles O34: entry and fetch keep HALTED, and of the instructions only HALT changes it. -/
theorem onlyHaltHalts : Obligations.OnlyHaltHalts := by
  refine ⟨fun x s t h => ?_, fun i s t => halt_of_halted_ne, fun s t h hs ht => ?_, fun s t hs h => ?_⟩
  · cases h
    rfl
  · rcases step_cases s t h with ⟨hs', -⟩ | ⟨-, -, isr, rest, -, rfl⟩ | ⟨-, w, u, i, hf, hd, he⟩
    · simp [hs] at hs'
    · simp [hs] at ht
    · obtain ⟨-, -, -, halted, -⟩ := fetch_hidden hf
      obtain ⟨x, rfl⟩ := halt_of_halted_ne he (by simp [ht, halted, hs])
      exact ⟨w, u, x, hf, hd⟩
  · rcases step_cases s t h with ⟨-, rfl⟩ | ⟨hs', -⟩ | ⟨hs', -⟩
    · rfl
    all_goals simp [hs] at hs'

/-! ### States that differ only in the latches -/

/-- The state with other latches. -/
def withLatches (x y : Word) (s : State) : State := { s with srSave := x, pcSave := y }

/-- An outcome with another next state. -/
def mapNext {α β : Type} (f : α → β) : Res α → Res β
  | .next a => .next (f a)
  | .fault e => .fault e
  | .refused e => .refused e

@[simp] theorem mapNext_next {α β : Type} (f : α → β) (a : α) : mapNext f (.next a) = .next (f a) := rfl

/-- A part that gives a value and a state, its state with other latches. -/
abbrev mapLatches (x y : Word) (r : Res (Word × State)) : Res (Word × State) :=
  mapNext (fun p => (p.1, withLatches x y p.2)) r

/-- A sequence commutes with a map of states when both its parts do. -/
theorem andThen_mapNext {α α' β β' : Type} {g : α → α'} {k : β → β'} {r' : Res α'} {r : Res α}
    {f' : α' → Res β'} {f : α → Res β} (hr : r' = mapNext g r) (hf : ∀ a, f' (g a) = mapNext k (f a)) :
    andThen r' f' = mapNext k (andThen r f) := by
  subst hr
  cases r with
  | next a => exact hf a
  | fault e => rfl
  | refused e => rfl

section
variable (x y : Word)

@[simp] theorem withLatches_device (s : State) : (withLatches x y s).device = s.device := rfl

@[simp] theorem readReg_withLatches (s : State) (r : Reg) : readReg (withLatches x y s) r = readReg s r := by
  cases r <;> rfl

@[simp] theorem readFlag_withLatches (s : State) (k : Nat) :
    readFlag (withLatches x y s) k = readFlag s k := rfl

@[simp] theorem taken_withLatches (c : Cond) (s : State) : taken c (withLatches x y s) = taken c s := rfl

@[simp] theorem writeReg_withLatches (r : Reg) (v : Word) (s : State) :
    writeReg r v (withLatches x y s) = withLatches x y (writeReg r v s) := by
  cases r <;> rfl

theorem memRead_withLatches (a : Word) (s : State) :
    memRead a (withLatches x y s) = mapLatches x y (memRead a s) := by
  unfold memRead
  cases inIoPage a with
  | false => rfl
  | true =>
    rw [withLatches_device]
    cases s.device <;> rfl

theorem memWrite_withLatches (a v : Word) (s : State) :
    memWrite a v (withLatches x y s) = mapNext (withLatches x y) (memWrite a v s) := by
  unfold memWrite
  cases inIoPage a with
  | false => rfl
  | true =>
    rw [withLatches_device]
    cases s.device <;> rfl

@[simp] theorem locateState_withLatches (o : Operand) (s : State) :
    locateState o (withLatches x y s) = withLatches x y (locateState o s) := by
  obtain ⟨r, m⟩ := o
  cases m <;> simp [locateState]

@[simp] theorem locate_withLatches (o : Operand) (s : State) :
    locate o (withLatches x y s) = locate o s := by
  obtain ⟨r, m⟩ := o
  cases m <;> simp only [locate, readReg_withLatches, locateState_withLatches]

@[simp] theorem dstFinish_withLatches (o : Operand) (s : State) :
    dstFinish o (withLatches x y s) = withLatches x y (dstFinish o s) := by
  obtain ⟨r, m⟩ := o
  cases m <;> simp only [dstFinish, readReg_withLatches, writeReg_withLatches]

theorem dstRead_withLatches (l : Loc) (s : State) :
    dstRead l (withLatches x y s) = mapLatches x y (dstRead l s) := by
  cases l with
  | reg r => simp [dstRead]
  | mem a => exact memRead_withLatches x y a s

theorem dstWrite_withLatches (l : Loc) (v : Word) (s : State) :
    dstWrite l v (withLatches x y s) = mapNext (withLatches x y) (dstWrite l v s) := by
  cases l with
  | reg r => simp [dstWrite]
  | mem a => exact memWrite_withLatches x y a v s

theorem readOperand_withLatches (o : Operand) (s : State) :
    readOperand o (withLatches x y s) = mapLatches x y (readOperand o s) := by
  rw [readOperand_eq, readOperand_eq, locate_withLatches, locateState_withLatches]
  exact andThen_mapNext (dstRead_withLatches x y _ _) fun p => by simp

theorem push_withLatches (v : Word) (s : State) :
    push v (withLatches x y s) = mapNext (withLatches x y) (push v s) := by
  simp only [push_eq, readReg_withLatches, writeReg_withLatches]
  exact memWrite_withLatches x y _ _ _

/-- Steps 5 to 7 of 40_operands R134 do not read the latches. -/
theorem writeResult_withLatches (l : Loc) (out : AluOut) (dst : Operand) (s : State) :
    andThen (writeResult Config.srDstOrder l out (withLatches x y s)) (fun s => .next (dstFinish dst s)) =
      mapNext (withLatches x y)
        (andThen (writeResult Config.srDstOrder l out s) fun s => .next (dstFinish dst s)) :=
  andThen_mapNext (dstWrite_withLatches x y l out.res (writeFlags out.flags s)) fun s => by simp

theorem writeOnly_withLatches (f : Word → AluOut) (src dst : Operand) (s : State) :
    writeOnly f src dst (withLatches x y s) = mapNext (withLatches x y) (writeOnly f src dst s) :=
  andThen_mapNext (readOperand_withLatches x y src s) fun p => by
    simpa using writeResult_withLatches x y (locate dst p.2) (f p.1) dst (locateState dst p.2)

theorem readModifyWrite_withLatches (f : Word → Word → State → Res AluOut)
    (hf : ∀ a d s, f a d (withLatches x y s) = f a d s) (src dst : Operand) (s : State) :
    readModifyWrite f src dst (withLatches x y s) =
      mapNext (withLatches x y) (readModifyWrite f src dst s) := by
  refine andThen_mapNext (readOperand_withLatches x y src s) fun p => ?_
  simp only [locate_withLatches, locateState_withLatches]
  refine andThen_mapNext (dstRead_withLatches x y _ _) fun q => ?_
  exact andThen_mapNext (g := id) (by simp only [hf]; cases f p.1 q.1 q.2 <;> rfl) fun out =>
    writeResult_withLatches x y _ out dst q.2

theorem compareOnly_withLatches (f : Word → Word → FlagWrites) (src dst : Operand) (s : State) :
    compareOnly f src dst (withLatches x y s) = mapNext (withLatches x y) (compareOnly f src dst s) := by
  refine andThen_mapNext (readOperand_withLatches x y src s) fun p => ?_
  simp only [locate_withLatches, locateState_withLatches]
  exact andThen_mapNext (dstRead_withLatches x y _ _) fun q => by
    exact congrArg _ (dstFinish_withLatches x y dst (writeFlags (f p.1 q.1) q.2))

theorem conditionalJump_withLatches (go : Word → State → Res State)
    (hgo : ∀ a s, go a (withLatches x y s) = mapNext (withLatches x y) (go a s)) (o : Operand) (c : Cond)
    (s : State) :
    conditionalJump .evaluate go o c (withLatches x y s) =
      mapNext (withLatches x y) (conditionalJump .evaluate go o c s) :=
  andThen_mapNext (readOperand_withLatches x y o s) fun p => by
    simp only [taken_withLatches, hgo]
    split <;> rfl

/-- The push and the jump of a call do not read the latches. -/
theorem callTo_withLatches (target : State → Word) (ht : ∀ s, target (withLatches x y s) = target s)
    (s : State) :
    andThen (push (withLatches x y s).pc (withLatches x y s)) (fun s => .next (jumpTo (target s) s)) =
      mapNext (withLatches x y) (andThen (push s.pc s) fun s => .next (jumpTo (target s) s)) :=
  andThen_mapNext (push_withLatches x y s.pc s) fun s => by
    rw [ht]
    rfl

/-- An instruction other than RTI and INT carries other latches through. -/
theorem exec_withLatches (i : Instr) (hrti : ∀ u, i ≠ .rti u) (hint : ∀ o, i ≠ .int o) (s : State) :
    exec i (withLatches x y s) = mapNext (withLatches x y) (exec i s) := by
  cases i with
  | move src dst =>
    simp only [exec_move]
    exact writeOnly_withLatches x y _ src dst s
  | swap src dst =>
    simp only [exec_swap]
    exact writeOnly_withLatches x y _ src dst s
  | not src dst =>
    simp only [exec_not]
    exact writeOnly_withLatches x y _ src dst s
  | add src dst =>
    simp only [exec_add]
    exact readModifyWrite_withLatches x y _ (fun _ _ _ => rfl) src dst s
  | addc src dst =>
    simp only [exec_addc]
    exact readModifyWrite_withLatches x y _ (fun _ _ _ => rfl) src dst s
  | sub src dst =>
    simp only [exec_sub]
    exact readModifyWrite_withLatches x y _ (fun _ _ _ => rfl) src dst s
  | subc src dst =>
    simp only [exec_subc]
    exact readModifyWrite_withLatches x y _ (fun _ _ _ => rfl) src dst s
  | shl src dst =>
    simp only [exec_shl]
    exact readModifyWrite_withLatches x y _ (fun _ _ _ => rfl) src dst s
  | shr src dst =>
    simp only [exec_shr]
    exact readModifyWrite_withLatches x y _ (fun _ _ _ => rfl) src dst s
  | and src dst =>
    simp only [exec_and]
    exact readModifyWrite_withLatches x y _ (fun _ _ _ => rfl) src dst s
  | or src dst =>
    simp only [exec_or]
    exact readModifyWrite_withLatches x y _ (fun _ _ _ => rfl) src dst s
  | xor src dst =>
    simp only [exec_xor]
    exact readModifyWrite_withLatches x y _ (fun _ _ _ => rfl) src dst s
  | cmp src dst =>
    simp only [exec_cmp]
    exact compareOnly_withLatches x y _ src dst s
  | reservedD p => rfl
  | halt u => rfl
  | rti u => exact absurd rfl (hrti u)
  | int o => exact absurd rfl (hint o)
  | incrb u => rfl
  | decrb u => rfl
  | abra o c =>
    simp only [exec_abra]
    exact conditionalJump_withLatches x y _ (fun _ _ => rfl) o c s
  | rbra o c =>
    simp only [exec_rbra]
    exact conditionalJump_withLatches x y _ (fun _ _ => rfl) o c s
  | asub o c =>
    simp only [exec_asub]
    exact conditionalJump_withLatches x y _ (fun a => callTo_withLatches x y (fun _ => a) fun _ => rfl) o c s
  | rsub o c =>
    simp only [exec_rsub]
    exact conditionalJump_withLatches x y _ (fun a => callTo_withLatches x y (fun s => s.pc + a) fun _ => rfl)
      o c s

/-- INT answers the same whatever the latches hold: it writes both. -/
theorem exec_int_withLatches (o : Operand) (s : State) :
    exec (.int o) (withLatches x y s) = exec (.int o) s := by
  simp only [exec, execInt, readOperand_withLatches]
  cases readOperand o s <;> rfl

end

theorem sameButLatches_refl (r : Res State) : sameButLatches r r := by
  cases r <;> simp [sameButLatches]

theorem sameButLatches_mapNext (x y : Word) (r : Res State) :
    sameButLatches r (mapNext (withLatches x y) r) := by
  cases r <;> simp [sameButLatches, mapNext, withLatches]

theorem exec_sameButLatches (i : Instr) (hrti : ∀ u, i ≠ .rti u) (s : State) (x y : Word) :
    sameButLatches (exec i s) (exec i (withLatches x y s)) := by
  by_cases hint : ∃ o, i = .int o
  · obtain ⟨o, rfl⟩ := hint
    rw [exec_int_withLatches]
    exact sameButLatches_refl _
  · rw [exec_withLatches x y i hrti (fun o ho => hint ⟨o, ho⟩)]
    exact sameButLatches_mapNext x y _

theorem exec_keeps_latches {i : Instr} {s t : State} (h : exec i s = .next t) (hint : ∀ o, i ≠ .int o) :
    t.srSave = s.srSave ∧ t.pcSave = s.pcSave := by
  rcases exec_hidden_cases h with ⟨sr, pc, -⟩ | ⟨x, -, rfl⟩ | ⟨x, -, rfl⟩ | ⟨o, a, s1, rfl, -⟩
  · exact ⟨sr, pc⟩
  · exact ⟨rfl, rfl⟩
  · exact ⟨rfl, rfl⟩
  · exact absurd rfl (hint o)

/-- A step that does not go from outside to inside an interrupt keeps the latches. -/
theorem step_latches {s t : State} (h : step s = .next t) :
    (t.srSave = s.srSave ∧ t.pcSave = s.pcSave) ∨ (s.inIsr = false ∧ t.inIsr = true) := by
  rcases step_cases s t h with ⟨-, rfl⟩ | ⟨-, hisr, isr, rest, -, rfl⟩ | ⟨-, w, u, i, hf, -, he⟩
  · exact .inl ⟨rfl, rfl⟩
  · exact .inr ⟨hisr, rfl⟩
  · obtain ⟨srU, pcU, isrU, -, -⟩ := fetch_hidden hf
    by_cases hint : ∃ o, i = .int o
    · obtain ⟨o, rfl⟩ := hint
      obtain ⟨a, s1, operand, hisr, rfl⟩ := int_cases o u t he
      obtain ⟨-, -, isr1, -, -⟩ := readOperand_hidden operand
      exact .inr ⟨by rw [← hisr, isr1, isrU], rfl⟩
    · obtain ⟨sr, pc⟩ := exec_keeps_latches he fun o ho => hint ⟨o, ho⟩
      exact .inl ⟨sr.trans srU, pc.trans pcU⟩

/-- Settles O44: what writes the latches is entry, and every instruction but RTI carries other latches through, or
overwrites them as INT does. -/
theorem latchesServeInterruptsOnly : Obligations.LatchesServeInterruptsOnly := by
  refine ⟨fun i s t => exec_keeps_latches, fun s t h hne => ?_, fun i s x y hrti => exec_sameButLatches i hrti s x y⟩
  rcases step_latches h with ⟨sr, pc⟩ | hentered
  · exact (hne.elim (· sr) (· pc)).elim
  · exact hentered

end Sys2Proof.Machine
end

section
/-! SUPPORT. What every instruction and every step keep of the invariant. -/

namespace Sys2Proof.Machine

theorem twoStep_wf {i : Instr} {src dst : Operand} {s t s1 s3 u : State} {a res : Word} {fl : FlagWrites}
    (h : TwoStep i src dst s t a s1 s3 u res fl) (hw : s.wf = true) : t.wf = true := by
  obtain ⟨operand, located, write, -, rfl⟩ := h
  have w1 : s1.wf = true := readOperand_wf _ _ _ operand hw
  have w3 : s3.wf = true := by
    rcases located with rfl | ⟨d, hd⟩
    · exact locateState_wf _ _ w1
    · exact (dstRead_wf _ _ _ hd).trans (locateState_wf _ _ w1)
  apply dstFinish_wf
  split at write
  · exact dstWrite_wf _ _ _ _ write (writeFlags_wf _ _ w3)
  · exact write ▸ writeFlags_wf _ _ w3

theorem jumpStep_wf {i : Instr} {o : Operand} {c : Cond} {s t : State} (h : JumpStep i o c s t)
    (hw : s.wf = true) : t.wf = true := by
  cases h with
  | untaken a operand _ => exact readOperand_wf _ _ _ operand hw
  | jump a b s1 operand _ _ fin =>
    have w1 : s1.wf = true := readOperand_wf _ _ _ operand hw
    rw [fin]
    exact w1
  | call a b s1 u operand _ _ pushed fin =>
    have wu : u.wf = true := push_wf _ _ _ pushed (readOperand_wf _ _ _ operand hw)
    rw [fin]
    exact wu

/-- INCRB and DECRB change the page and leave the hard-wired bits of R14. -/
theorem withRbank_wf (page : BitVec 8) (s : State) (hw : s.wf = true) :
    { s with sr := withRbank page s.sr }.wf = true := by
  rw [wf_iff] at hw ⊢
  obtain ⟨mem, bank, sr, latch⟩ := hw
  exact ⟨mem, bank, by rw [srFixed_withRbank, sr], latch⟩

theorem exec_wf {i : Instr} {s t : State} (h : exec i s = .next t) (hw : s.wf = true) : t.wf = true := by
  rcases instr_kinds i with ⟨src, dst, hi⟩ | ⟨o, c, hi⟩ | ⟨p, rfl⟩ | ⟨x, rfl⟩ | ⟨x, rfl⟩ | ⟨o, rfl⟩ |
    ⟨x, rfl⟩ | ⟨x, rfl⟩
  · obtain ⟨a, s1, s3, u, res, fl, hstep⟩ := two_cases i src dst s t hi h
    exact twoStep_wf hstep hw
  · exact jumpStep_wf (jump_cases i o c s t hi h) hw
  · cases h
  · cases h
    exact hw
  · obtain ⟨-, rfl⟩ := rti_cases x s t h
    exact returnFromInterrupt_wf s hw
  · obtain ⟨a, s1, operand, -, rfl⟩ := int_cases o s t h
    exact takeInterrupt_wf a s1 (readOperand_wf _ _ _ operand hw)
  all_goals
    cases h
    exact withRbank_wf _ s hw

theorem fetch_wf {s t : State} {w : Word} (h : fetch s = .next (w, t)) : t.wf = s.wf := by
  rw [(fetch_eq_next h).1]
  rfl

/-- Settles O55: a step enters an interrupt or executes one fetched instruction, and both keep the invariant. -/
theorem stepKeepsWellFormed : Obligations.StepKeepsWellFormed := by
  intro s t hw h
  rcases step_cases s t h with ⟨-, rfl⟩ | ⟨-, -, isr, rest, -, rfl⟩ | ⟨-, w, u, i, hf, -, he⟩
  · exact hw
  · exact takeInterrupt_wf isr _ hw
  · exact exec_wf he ((fetch_wf hf).trans hw)

end Sys2Proof.Machine
end

section
/-! SUPPORT. The machine at reset and its first step. -/

namespace Sys2Proof.Machine

/-- The value of R14 at reset has its hard-wired bits (10_state R45). -/
theorem srFixed_resetSr : srFixed .zero Config.resetSr = Config.resetSr := by decide

/-- Settles O53: the program counter and the marks are given, and R14 reads through its hard-wired bits. -/
theorem resetState : Obligations.ResetState := ⟨rfl, srFixed_resetSr, rfl, rfl⟩

/-- Memory is the only part of the invariant that a reset takes over from before (log 26). -/
theorem hostReset_wf (s : State) (h : Memory.wf s.mem = true) : s.hostReset.wf = true :=
  (wf_iff _).2 ⟨h, rfl, srFixed_resetSr, nofun⟩

/-- Settles O54: a reset of the reset state is that state, and its memory is empty. -/
theorem resetIsWellFormed : Obligations.ResetIsWellFormed := hostReset_wf State.reset reset_memory_wf

theorem boundary_of_no_request {s : State} (hh : s.halted = false) (hI : s.intSource = []) :
    boundary s = .run s := by
  simp [boundary, hh, hI]

theorem fetch_of_memory {s : State} (h : inIoPage s.pc = false) :
    fetch s = .next (readWord s.mem s.pc, { s with pc := s.pc + 1 }) := by
  rw [fetch, memRead_of_memory h, andThen_next]

/-- A running machine with no request offered and R15 in memory executes the instruction of the word at R15. -/
theorem step_of_decode {s : State} {i : Instr} (hh : s.halted = false) (hI : s.intSource = [])
    (hpc : inIoPage s.pc = false) (hd : decode (readWord s.mem s.pc) = .instr i) :
    step s = exec i { s with pc := s.pc + 1 } := by
  simp only [step, boundary_of_no_request hh hI, fetch_of_memory hpc, andThen_next, hd, runDecoded]

/-- Settles O58: no request is offered and 0x0000 is memory, so the next step runs the image's first word. -/
theorem resetKeepsTheImage : Obligations.ResetKeepsTheImage := by
  intro s
  refine ⟨rfl, srFixed_resetSr, rfl, rfl, rfl, rfl, rfl, hostReset_wf s, fun i hI hd => ?_⟩
  exact step_of_decode (s := s.hostReset) rfl hI rfl hd

end Sys2Proof.Machine
end

section
/-! SUPPORT. Memory and the I/O page under one access: stores, loads and fetches below the page, and the device's
events in it. -/

namespace Sys2Proof.Machine

theorem memWrite_of_memory {a : Word} (v : Word) {s : State} (h : inIoPage a = false) :
    memWrite a v s = .next { s with mem := writeWord a v s.mem } :=
  (memWrite_eq_next ..).2 (.inl ⟨h, rfl⟩)

theorem readByte_writeWord_other {a : Word} (v : Word) (m : Memory) {c : Nat} (low : c ≠ 2 * a.toNat)
    (high : c ≠ 2 * a.toNat + 1) : readByte (writeWord a v m) c = readByte m c := by
  rw [readByte_writeWord, if_neg high, if_neg low]

/-- Settles O12: the store is a `writeWord`, which reads back and keeps every other word and byte. -/
theorem storeThenLoad : Obligations.StoreThenLoad := by
  intro a v s ha
  refine ⟨_, memWrite_of_memory v ha, ?_, rfl, fun b hb => readWord_writeWord_other a b v s.mem hb,
    fun c low high => readByte_writeWord_other v s.mem low high⟩
  rw [memRead_of_memory ha, readWord_writeWord_same]

/-- Settles O13: in the I/O page only the device's part of a read and of a write is left. -/
theorem ioPageBelongsToTheDevice : Obligations.IoPageBelongsToTheDevice := by
  intro a v s ha
  have io : inIoPage a = true := decide_eq_true ha
  refine ⟨fun hd => ⟨?_, ?_⟩, fun h hd => ⟨⟨Config.ioAnswer h a, ?_⟩, ?_⟩⟩
  · exact (memRead_eq_refused ..).2 ⟨io, hd, rfl⟩
  · exact (memWrite_eq_refused ..).2 ⟨io, hd, rfl⟩
  · exact (memRead_eq_next ..).2 (.inr ⟨io, h, hd, rfl⟩)
  · exact (memWrite_eq_next ..).2 (.inr ⟨io, h, hd, rfl⟩)

/-- Settles O14: a fetch below the I/O page reads memory, where the stored word is. -/
theorem fetchSeesStore : Obligations.FetchSeesStore := by
  intro a v s t ha hw
  rw [memWrite_of_memory v ha] at hw
  cases hw
  rw [fetch_of_memory ha, readWord_writeWord_same]

end Sys2Proof.Machine
end

section
/-! SUPPORT. The device's history along the parts of an instruction: how many reads and writes each adds. -/

namespace Sys2Proof.Machine

/-- From `s` to `t` the device, where one is given, has seen at most so many new reads and writes, and no device
was attached or removed (20_memory R72, 40_operands R141). -/
structure HistoryGrows (reads writes : Nat) (s t : State) : Prop where
  absent : s.device = none → t.device = none
  events : ∀ h, s.device = some h → ∃ new, t.device = some (new ++ h) ∧
    (new.filter isRead).length ≤ reads ∧ (new.filter fun e => !isRead e).length ≤ writes

theorem historyGrows_of_device_eq {r w : Nat} {s t : State} (h : t.device = s.device) :
    HistoryGrows r w s t where
  absent hd := h.trans hd
  events _ hd := ⟨[], h.trans hd, Nat.zero_le r, Nat.zero_le w⟩

theorem HistoryGrows.trans {r w r' w' : Nat} {s t u : State} (h : HistoryGrows r w s t)
    (g : HistoryGrows r' w' t u) : HistoryGrows (r + r') (w + w') s u where
  absent hd := g.absent (h.absent hd)
  events old hd := by
    obtain ⟨new, hnew, reads, writes⟩ := h.events old hd
    obtain ⟨later, hlater, reads', writes'⟩ := g.events _ hnew
    refine ⟨later ++ new, by rw [hlater, List.append_assoc], ?_, ?_⟩
    · rw [List.filter_append, List.length_append]
      omega
    · rw [List.filter_append, List.length_append]
      omega

theorem HistoryGrows.mono {r w r' w' : Nat} {s t : State} (h : HistoryGrows r w s t) (hr : r ≤ r')
    (hw : w ≤ w') : HistoryGrows r' w' s t where
  absent := h.absent
  events old hd := by
    obtain ⟨new, hnew, reads, writes⟩ := h.events old hd
    exact ⟨new, hnew, reads.trans hr, writes.trans hw⟩

/-- A device that is missing afterwards was missing before. -/
theorem HistoryGrows.absent_before {r w : Nat} {s t : State} (h : HistoryGrows r w s t)
    (ht : t.device = none) : s.device = none := by
  cases hs : s.device with
  | none => rfl
  | some old =>
    obtain ⟨new, hnew, -, -⟩ := h.events old hs
    rw [ht] at hnew
    cases hnew

/-- One event in front of the history. -/
theorem historyGrows_event {s : State} {old : List IoEvent} (hd : s.device = some old) (e : IoEvent) :
    HistoryGrows (isRead e).toNat (!isRead e).toNat s { s with device := some (e :: old) } where
  absent hs := by simp [hd] at hs
  events h hs := by
    obtain rfl : old = h := Option.some.inj (hd.symm.trans hs)
    exact ⟨[e], rfl, by cases e <;> exact le_rfl, by cases e <;> exact le_rfl⟩

theorem memRead_historyGrows {a v : Word} {s t : State} (h : memRead a s = .next (v, t)) :
    HistoryGrows 1 0 s t := by
  rcases (memRead_eq_next ..).1 h with ⟨-, he⟩ | ⟨-, old, hd, he⟩
  · cases he
    exact historyGrows_of_device_eq rfl
  · cases he
    exact historyGrows_event hd (.read a)

theorem memWrite_historyGrows {a v : Word} {s t : State} (h : memWrite a v s = .next t) :
    HistoryGrows 0 1 s t := by
  rcases (memWrite_eq_next ..).1 h with ⟨-, rfl⟩ | ⟨-, old, hd, rfl⟩
  · exact historyGrows_of_device_eq rfl
  · exact historyGrows_event hd (.write a v)

theorem dstRead_historyGrows {l : Loc} {v : Word} {s t : State} (h : dstRead l s = .next (v, t)) :
    HistoryGrows 1 0 s t := by
  cases l with
  | reg r =>
    cases h
    exact historyGrows_of_device_eq rfl
  | mem a => exact memRead_historyGrows h

theorem dstWrite_historyGrows {l : Loc} {v : Word} {s t : State} (h : dstWrite l v s = .next t) :
    HistoryGrows 0 1 s t := by
  cases l with
  | reg r =>
    cases h
    exact historyGrows_of_device_eq (writeReg_device r v s)
  | mem a => exact memWrite_historyGrows h

theorem locateState_historyGrows {r w : Nat} (o : Operand) (s : State) : HistoryGrows r w s (locateState o s) :=
  historyGrows_of_device_eq (locateState_device o s)

theorem dstFinish_historyGrows (o : Operand) (s : State) : HistoryGrows 0 0 s (dstFinish o s) :=
  historyGrows_of_device_eq (dstFinish_device o s)

theorem readOperand_historyGrows {o : Operand} {v : Word} {s t : State}
    (h : readOperand o s = .next (v, t)) : HistoryGrows 1 0 s t := by
  obtain ⟨v', u, hd, he⟩ := (readOperand_eq_next ..).1 h
  cases he
  exact ((locateState_historyGrows (r := 0) (w := 0) o s).trans (dstRead_historyGrows hd)).trans
    (dstFinish_historyGrows o u)

/-- The source read and the destination located: one read. -/
theorem located_historyGrows {src : Operand} {v : Word} {s t : State} (dst : Operand)
    (h : readOperand src s = .next (v, t)) : HistoryGrows 1 0 s (locateState dst t) :=
  (readOperand_historyGrows h).trans (locateState_historyGrows (r := 0) (w := 0) dst t)

theorem push_historyGrows {v : Word} {s t : State} (h : push v s = .next t) : HistoryGrows 0 1 s t := by
  rw [push_eq] at h
  exact (historyGrows_of_device_eq (writeReg_device _ _ s)).trans (memWrite_historyGrows h)

theorem fetch_historyGrows {w : Word} {s t : State} (h : fetch s = .next (w, t)) : HistoryGrows 1 0 s t := by
  obtain ⟨⟨v, u⟩, hr, he⟩ := (andThen_eq_next ..).1 h
  cases he
  have advanced : HistoryGrows 0 0 u { u with pc := u.pc + 1 } := historyGrows_of_device_eq rfl
  exact (memRead_historyGrows hr).trans advanced

/-- Source, old destination, result: two reads and a write. -/
theorem twoStep_historyGrows {i : Instr} {src dst : Operand} {s t s1 s3 u : State} {a res : Word}
    {fl : FlagWrites} (h : TwoStep i src dst s t a s1 s3 u res fl) : HistoryGrows 2 1 s t := by
  obtain ⟨operand, located, write, -, rfl⟩ := h
  have source : HistoryGrows 1 0 s s1 := readOperand_historyGrows operand
  have old : HistoryGrows 1 0 s1 s3 := by
    rcases located with rfl | ⟨d, hd⟩
    · exact locateState_historyGrows dst s1
    · exact (locateState_historyGrows dst s1).trans (dstRead_historyGrows hd)
  have flags : HistoryGrows 0 0 s3 (writeFlags fl s3) := historyGrows_of_device_eq rfl
  have result : HistoryGrows 0 1 (writeFlags fl s3) u := by
    split at write
    · exact dstWrite_historyGrows write
    · exact historyGrows_of_device_eq (by rw [write])
  exact (((source.trans old).trans flags).trans result).trans (dstFinish_historyGrows dst u)

/-- Operand and push: a read and a write. -/
theorem jumpStep_historyGrows {i : Instr} {o : Operand} {c : Cond} {s t : State} (h : JumpStep i o c s t) :
    HistoryGrows 1 1 s t := by
  cases h with
  | untaken a operand _ => exact (readOperand_historyGrows operand).mono le_rfl (Nat.zero_le 1)
  | jump a b s1 operand _ _ fin =>
    have jumped : HistoryGrows 0 1 s1 t := historyGrows_of_device_eq (by rw [fin])
    exact (readOperand_historyGrows operand).trans jumped
  | call a b s1 u operand _ _ pushed fin =>
    have jumped : HistoryGrows 0 0 u t := historyGrows_of_device_eq (by rw [fin])
    exact ((readOperand_historyGrows operand).trans (push_historyGrows pushed)).trans jumped

/-- No instruction makes more than two data reads and one data write. -/
theorem exec_historyGrows {i : Instr} {s t : State} (h : exec i s = .next t) : HistoryGrows 2 1 s t := by
  rcases instr_kinds i with ⟨src, dst, hi⟩ | ⟨o, c, hi⟩ | ⟨p, rfl⟩ | ⟨x, rfl⟩ | ⟨x, rfl⟩ | ⟨o, rfl⟩ |
    ⟨x, rfl⟩ | ⟨x, rfl⟩
  · obtain ⟨a, s1, s3, u, res, fl, hstep⟩ := two_cases i src dst s t hi h
    exact twoStep_historyGrows hstep
  · exact (jumpStep_historyGrows (jump_cases i o c s t hi h)).mono (Nat.le_succ 1) le_rfl
  · cases h
  · cases h
    exact historyGrows_of_device_eq rfl
  · obtain ⟨-, rfl⟩ := rti_cases x s t h
    exact historyGrows_of_device_eq rfl
  · obtain ⟨a, s1, operand, -, rfl⟩ := int_cases o s t h
    have entered : HistoryGrows 1 1 s1 (takeInterrupt a s1) := historyGrows_of_device_eq rfl
    exact (readOperand_historyGrows operand).trans entered
  all_goals
    cases h
    exact historyGrows_of_device_eq rfl

/-- Settles O15: an instruction adds at most two reads and one write to the history. -/
theorem deviceHistoryGrows : Obligations.DeviceHistoryGrows := by
  intro i s t h
  obtain ⟨absent, events⟩ := exec_historyGrows h
  refine ⟨absent, fun old hd => ?_⟩
  obtain ⟨new, hnew, reads, writes⟩ := events old hd
  refine ⟨new, hnew, ?_⟩
  rw [List.length_eq_length_filter_add isRead]
  omega

end Sys2Proof.Machine
end

section
/-! SUPPORT. The frame of the two-operand instructions: memory. -/

namespace Sys2Proof.Machine

/-- All that writing a location does to memory: nothing, or one word below the I/O page. -/
theorem dstWrite_mem_cases {l : Loc} {v : Word} {s t : State} (h : dstWrite l v s = .next t) :
    t.mem = s.mem ∨ ∃ a, l = .mem a ∧ inIoPage a = false ∧ t.mem = writeWord a v s.mem := by
  cases l with
  | reg r =>
    cases h
    exact .inl (writeReg_mem r v s)
  | mem a =>
    rcases (memWrite_eq_next ..).1 h with ⟨ha, rfl⟩ | ⟨-, old, -, rfl⟩
    · exact .inr ⟨a, rfl, ha, rfl⟩
    · exact .inl rfl

/-- All that a two-operand instruction does to memory: nothing, or it stores its result at its located
destination. -/
theorem twoStep_mem_cases {i : Instr} {src dst : Operand} {s t s1 s3 u : State} {a res : Word}
    {fl : FlagWrites} (h : TwoStep i src dst s t a s1 s3 u res fl) :
    t.mem = s.mem ∨ writesDestination i = true ∧
      ∃ b, locate dst s1 = .mem b ∧ inIoPage b = false ∧ t.mem = writeWord b res s.mem := by
  obtain ⟨operand, located, write, -, rfl⟩ := h
  have before : (writeFlags fl s3).mem = s.mem :=
    calc (writeFlags fl s3).mem
      _ = (locateState dst s1).mem := by rw [writeFlags_mem, twoStep_located located]
      _ = s1.mem := locateState_mem dst s1
      _ = s.mem := readOperand_mem operand
  rw [dstFinish_mem, ← before]
  split at write
  next hi => exact (dstWrite_mem_cases write).imp_right (⟨hi, ·⟩)
  next => exact .inl (by rw [write])

theorem mode_ne_reg_of_locate_eq_mem {o : Operand} {s : State} {a : Word} (h : locate o s = .mem a) :
    o.mode ≠ .reg := by
  intro hm
  simp [locate, hm] at h

/-- Settles O28: the one store there can be is below the I/O page, at the located destination. -/
theorem twoOperandMemoryFrame : Obligations.TwoOperandMemoryFrame := by
  intro i src dst s t hi h
  obtain ⟨a, s1, s3, u, res, fl, hstep⟩ := two_cases i src dst s t hi h
  rcases twoStep_mem_cases hstep with same | ⟨hwrites, b, hb, hmem, stored⟩
  · rw [same]
    exact ⟨fun _ _ => rfl, fun _ _ _ _ => ⟨fun _ _ => rfl, fun _ _ _ => rfl⟩⟩
  · refine ⟨fun hno => ?_, fun r b' hr hb' => ?_⟩
    · rcases hno with hreg | hcmp
      · exact absurd hreg (mode_ne_reg_of_locate_eq_mem hb)
      · simp [hwrites] at hcmp
    · obtain rfl : (a, s1) = r := Host.Outcome.next.inj (hstep.operand.symm.trans hr)
      obtain rfl : b = b' := Loc.mem.inj (hb.symm.trans hb')
      refine ⟨fun hio => by simp [hmem] at hio, fun c low high => ?_⟩
      rw [stored, readByte_writeWord_other res s.mem low high]

end Sys2Proof.Machine
end

section
/-! SUPPORT. Why a step is refused: an access to the I/O page that no device answers. -/

namespace Sys2Proof.Machine

/-- A part that starts in `s` is refused only for an address of the I/O page, and only without a device
(20_memory R68, R69). -/
def RefusesOnlyIoPage {α : Type} (s : State) (r : Res α) : Prop :=
  ∀ e, r = .refused e → s.device = none ∧ ∃ a, inIoPage a = true ∧ e = .noIODevice a

theorem refusesOnlyIoPage_next {α : Type} (s : State) (a : α) : RefusesOnlyIoPage s (.next a) := nofun

theorem refusesOnlyIoPage_fault {α : Type} (s : State) (e : Fault) :
    RefusesOnlyIoPage s (.fault e : Res α) := nofun

/-- A part that starts without a device does so because the whole did. -/
theorem HistoryGrows.refusesOnlyIoPage {α : Type} {n m : Nat} {s u : State} {r : Res α}
    (grows : HistoryGrows n m s u) (h : RefusesOnlyIoPage u r) : RefusesOnlyIoPage s r := by
  intro e he
  obtain ⟨hd, ha⟩ := h e he
  exact ⟨grows.absent_before hd, ha⟩

theorem refusesOnlyIoPage_andThen {α β : Type} {s : State} {r : Res α} {f : α → Res β}
    (first : RefusesOnlyIoPage s r) (second : ∀ a, r = .next a → RefusesOnlyIoPage s (f a)) :
    RefusesOnlyIoPage s (andThen r f) := by
  intro e h
  rcases (andThen_eq_refused ..).1 h with hr | ⟨a, hr, hf⟩
  · exact first e hr
  · exact second a hr e hf

theorem memRead_refusesOnlyIoPage (a : Word) (s : State) : RefusesOnlyIoPage s (memRead a s) := by
  intro e h
  obtain ⟨io, hd, he⟩ := (memRead_eq_refused ..).1 h
  exact ⟨hd, a, io, he⟩

theorem dstRead_refusesOnlyIoPage (l : Loc) (s : State) : RefusesOnlyIoPage s (dstRead l s) := by
  intro e h
  obtain ⟨a, -, io, hd, he⟩ := (dstRead_eq_refused ..).1 h
  exact ⟨hd, a, io, he⟩

theorem dstWrite_refusesOnlyIoPage (l : Loc) (v : Word) (s : State) :
    RefusesOnlyIoPage s (dstWrite l v s) := by
  intro e h
  obtain ⟨a, -, io, hd, he⟩ := (dstWrite_eq_refused ..).1 h
  exact ⟨hd, a, io, he⟩

theorem readOperand_refusesOnlyIoPage (o : Operand) (s : State) : RefusesOnlyIoPage s (readOperand o s) := by
  intro e h
  obtain ⟨a, -, io, hd, he⟩ := (readOperand_eq_refused ..).1 h
  exact ⟨hd, a, io, he⟩

/-- A push is refused for its write only. -/
theorem push_refusesOnlyIoPage (v : Word) (s : State) : RefusesOnlyIoPage s (push v s) := by
  intro e h
  rw [push_eq] at h
  obtain ⟨io, hd, he⟩ := (memWrite_eq_refused ..).1 h
  exact ⟨(writeReg_device ..).symm.trans hd, _, io, he⟩

theorem fetch_refusesOnlyIoPage (s : State) : RefusesOnlyIoPage s (fetch s) :=
  refusesOnlyIoPage_andThen (memRead_refusesOnlyIoPage s.pc s) fun _ _ => refusesOnlyIoPage_next _ _

/-- Steps 5 to 7 of 40_operands R134: flags, result, post-increment. -/
theorem writeResult_refusesOnlyIoPage (l : Loc) (out : AluOut) (dst : Operand) (s : State) :
    RefusesOnlyIoPage s
      (andThen (writeResult Config.srDstOrder l out s) fun u => .next (dstFinish dst u)) := by
  have flags : HistoryGrows 0 0 s (writeFlags out.flags s) := historyGrows_of_device_eq rfl
  rw [Config_srDstOrder, writeResult_writeWins]
  exact refusesOnlyIoPage_andThen (flags.refusesOnlyIoPage (dstWrite_refusesOnlyIoPage l out.res _))
    fun u _ => refusesOnlyIoPage_next s (dstFinish dst u)

theorem writeOnly_refusesOnlyIoPage (f : Word → AluOut) (src dst : Operand) (s : State) :
    RefusesOnlyIoPage s (writeOnly f src dst s) := by
  refine refusesOnlyIoPage_andThen (readOperand_refusesOnlyIoPage src s) fun (a, s1) operand => ?_
  have located : HistoryGrows 1 0 s (locateState dst s1) := located_historyGrows dst operand
  exact located.refusesOnlyIoPage (writeResult_refusesOnlyIoPage (locate dst s1) (f a) dst _)

theorem readModifyWrite_refusesOnlyIoPage {f : Word → Word → State → Res AluOut}
    (hf : ∀ a d u, RefusesOnlyIoPage u (f a d u)) (src dst : Operand) (s : State) :
    RefusesOnlyIoPage s (readModifyWrite f src dst s) := by
  refine refusesOnlyIoPage_andThen (readOperand_refusesOnlyIoPage src s) fun (a, s1) operand => ?_
  have located : HistoryGrows 1 0 s (locateState dst s1) := located_historyGrows dst operand
  refine refusesOnlyIoPage_andThen (located.refusesOnlyIoPage (dstRead_refusesOnlyIoPage _ _))
    fun (d, s3) old => ?_
  have read : HistoryGrows 2 0 s s3 := located.trans (dstRead_historyGrows old)
  exact read.refusesOnlyIoPage (refusesOnlyIoPage_andThen (hf a d s3) fun out _ =>
    writeResult_refusesOnlyIoPage (locate dst s1) out dst s3)

theorem compareOnly_refusesOnlyIoPage (f : Word → Word → FlagWrites) (src dst : Operand) (s : State) :
    RefusesOnlyIoPage s (compareOnly f src dst s) := by
  refine refusesOnlyIoPage_andThen (readOperand_refusesOnlyIoPage src s) fun (a, s1) operand => ?_
  have located : HistoryGrows 1 0 s (locateState dst s1) := located_historyGrows dst operand
  exact refusesOnlyIoPage_andThen (located.refusesOnlyIoPage (dstRead_refusesOnlyIoPage _ _))
    fun _ _ => refusesOnlyIoPage_next _ _

theorem conditionalJump_refusesOnlyIoPage {go : Word → State → Res State}
    (hgo : ∀ a u, RefusesOnlyIoPage u (go a u)) (o : Operand) (c : Cond) (s : State) :
    RefusesOnlyIoPage s (conditionalJump .evaluate go o c s) := by
  refine refusesOnlyIoPage_andThen (readOperand_refusesOnlyIoPage o s) fun (a, s1) operand => ?_
  dsimp only
  split
  · exact (readOperand_historyGrows operand).refusesOnlyIoPage (hgo a s1)
  · exact refusesOnlyIoPage_next s s1

/-- The push and the jump of a call. -/
theorem callTo_refusesOnlyIoPage (target : State → Word) (s : State) :
    RefusesOnlyIoPage s (andThen (push s.pc s) fun u => .next (jumpTo (target u) u)) :=
  refusesOnlyIoPage_andThen (push_refusesOnlyIoPage s.pc s) fun _ _ => refusesOnlyIoPage_next _ _

theorem int_refusesOnlyIoPage (o : Operand) (s : State) : RefusesOnlyIoPage s (execInt o s) := by
  refine refusesOnlyIoPage_andThen (readOperand_refusesOnlyIoPage o s) fun (a, s1) _ => ?_
  dsimp only
  split
  · exact refusesOnlyIoPage_fault s _
  · exact refusesOnlyIoPage_next s _

theorem rti_refusesOnlyIoPage (s : State) : RefusesOnlyIoPage s (execRti s) := by
  unfold execRti
  split
  · exact refusesOnlyIoPage_next s _
  · exact refusesOnlyIoPage_fault s _

/-- An instruction is refused by its operands and its push only; SHL and SHR run every count out
(42_shift_swap R170; log 11). -/
theorem exec_refusesOnlyIoPage (i : Instr) (s : State) : RefusesOnlyIoPage s (exec i s) := by
  cases i with
  | move src dst | swap src dst | not src dst =>
    simp only [exec_move, exec_swap, exec_not]
    exact writeOnly_refusesOnlyIoPage _ src dst s
  | add src dst | addc src dst | sub src dst | subc src dst | shl src dst | shr src dst | and src dst | or src dst
  | xor src dst =>
    simp only [exec_add, exec_addc, exec_sub, exec_subc, exec_shl, exec_shr, exec_and, exec_or, exec_xor]
    exact readModifyWrite_refusesOnlyIoPage (fun _ _ _ => refusesOnlyIoPage_next _ _) src dst s
  | cmp src dst => exact compareOnly_refusesOnlyIoPage cmpFlags src dst s
  | reservedD p => exact refusesOnlyIoPage_fault s _
  | halt x | incrb x | decrb x => exact refusesOnlyIoPage_next s _
  | rti x => exact rti_refusesOnlyIoPage s
  | int o => exact int_refusesOnlyIoPage o s
  | abra o c | rbra o c =>
    simp only [exec_abra, exec_rbra]
    exact conditionalJump_refusesOnlyIoPage (fun _ _ => refusesOnlyIoPage_next _ _) o c s
  | asub o c =>
    rw [exec_asub]
    exact conditionalJump_refusesOnlyIoPage (fun a => callTo_refusesOnlyIoPage fun _ => a) o c s
  | rsub o c =>
    rw [exec_rsub]
    exact conditionalJump_refusesOnlyIoPage (fun a => callTo_refusesOnlyIoPage (·.pc + a)) o c s

theorem runDecoded_refusesOnlyIoPage (d : Decoded) (s : State) :
    RefusesOnlyIoPage s (runDecoded (fun i => exec i s) d) := by
  cases d with
  | instr i => exact exec_refusesOnlyIoPage i s
  | undefinedCommand ir => exact refusesOnlyIoPage_fault s _
  | controlLowBits ir => exact refusesOnlyIoPage_fault s _

/-- Settles O51: of the three kinds of boundary only a run can be refused, by its fetch or its instruction. -/
theorem stepRefusesOnlyIoPage : Obligations.StepRefusesOnlyIoPage := by
  intro s
  change RefusesOnlyIoPage s (step s)
  unfold step
  rcases boundary_cases s with ⟨-, hb⟩ | ⟨-, -, isr, rest, -, hb⟩ | ⟨-, hb⟩
  · rw [hb]
    exact refusesOnlyIoPage_next s s
  · rw [hb]
    exact refusesOnlyIoPage_next s _
  · rw [hb]
    have begun : HistoryGrows 0 0 s { s with intSource := s.intSource.tail } := historyGrows_of_device_eq rfl
    refine begun.refusesOnlyIoPage (refusesOnlyIoPage_andThen (fetch_refusesOnlyIoPage _) fun (w, u) hf => ?_)
    exact (fetch_historyGrows hf).refusesOnlyIoPage (runDecoded_refusesOnlyIoPage (decode w) u)

end Sys2Proof.Machine
end

section
/-! SUPPORT. The decoder by the format of a word, the words the encoder makes, and that the two undo each other,
under every value of CTRL_LOW_BITS. -/

namespace Sys2Proof

/-! The opcode chooses the format (30_encoding R94): one equation of the decoder per format. -/

theorem opcode_cases (w : Word) :
    (w.extractLsb' 12 4).toNat < 14 ∨ w.extractLsb' 12 4 = 14#4 ∨ w.extractLsb' 12 4 = 15#4 := by
  bv_omega

theorem decodeUnder_twoOperand (p : CtrlLowBits) {w : Word} (h : (w.extractLsb' 12 4).toNat < 14) :
    decodeUnder p w = .instr (decodeTwoOperand (w.extractLsb' 12 4).toNat (operandOfBits (w.extractLsb' 6 6))
      (operandOfBits (w.extractLsb' 0 6)) (w.extractLsb' 0 12)) := by
  unfold decodeUnder
  split
  · omega
  · omega
  · rfl

theorem decodeUnder_control (p : CtrlLowBits) {w : Word} (h : w.extractLsb' 12 4 = 14#4) :
    decodeUnder p w = decodeControl p (w.extractLsb' 6 6).toNat (w.extractLsb' 0 6) w := by
  rw [decodeUnder, h]
  rfl

theorem decodeUnder_jump (p : CtrlLowBits) {w : Word} (h : w.extractLsb' 12 4 = 15#4) :
    decodeUnder p w = .instr (decodeJump (w.extractLsb' 4 2).toNat (operandOfBits (w.extractLsb' 6 6))
      (condOfBits (w.extractLsb' 0 4))) := by
  rw [decodeUnder, h]
  rfl

/-! What the words of the three formats decode to. -/

theorem decodeUnder_wordG (p : CtrlLowBits) {op : BitVec 4} (h : op.toNat < 14) (src dst : Operand) :
    decodeUnder p (wordG op src dst) =
      .instr (decodeTwoOperand op.toNat src dst ((wordG op src dst).extractLsb' 0 12)) := by
  obtain ⟨hop, hsrc, hdst⟩ := wordG_fields op src dst
  rw [decodeUnder_twoOperand p (by rwa [hop]), hop, hsrc, hdst, operandOfBits_operandBits,
    operandOfBits_operandBits]

theorem decodeUnder_reservedD (p : CtrlLowBits) (payload : BitVec 12) :
    decodeUnder p (0xD#4 ++ payload) = .instr (.reservedD payload) := by
  have hop : (0xD#4 ++ payload).extractLsb' 12 4 = 0xD#4 := extractLsb'_append_hi _ payload
  have hlow : (0xD#4 ++ payload).extractLsb' 0 12 = payload := extractLsb'_append_lo _ payload
  rw [decodeUnder_twoOperand p (by rw [hop]; decide), hop, hlow]
  rfl

theorem decodeUnder_wordC (p : CtrlLowBits) (command low : BitVec 6) :
    decodeUnder p (wordC command low) = decodeControl p command.toNat low (wordC command low) := by
  obtain ⟨hop, hcommand, hlow⟩ := wordC_fields command low
  rw [decodeUnder_control p hop, hcommand, hlow]

theorem decodeUnder_wordB (p : CtrlLowBits) (bmode : BitVec 2) (target : Operand) (cond : Cond) :
    decodeUnder p (wordB bmode target cond) = .instr (decodeJump bmode.toNat target cond) := by
  obtain ⟨hop, htarget, hbmode, hcond⟩ := wordB_fields bmode target cond
  rw [decodeUnder_jump p hop, htarget, hbmode, hcond, operandOfBits_operandBits, condOfBits_condBits]

theorem decodeBareControl_of_allows {p : CtrlLowBits} {low : BitVec 6} (h : p.allows low = true)
    (i : BitVec 6 → Instr) (ir : Word) : decodeBareControl p i low ir = .instr (i low) :=
  if_pos h

/-- The decoder undoes the encoder, whichever value CTRL_LOW_BITS has. -/
theorem decodeUnder_encode (p : CtrlLowBits) (i : Instr) (h : i.wellFormedUnder p = true) :
    decodeUnder p (encode i) = .instr i := by
  cases i with
  | move src dst | add src dst | addc src dst | sub src dst | subc src dst | shl src dst | shr src dst
  | swap src dst | not src dst | and src dst | or src dst | xor src dst | cmp src dst =>
    exact decodeUnder_wordG p (by decide) src dst
  | reservedD payload => exact decodeUnder_reservedD p payload
  | halt low | rti low | incrb low | decrb low =>
    exact (decodeUnder_wordC p _ low).trans (decodeBareControl_of_allows h _ _)
  | int isr =>
    refine (decodeUnder_wordC p 2#6 (operandBits isr)).trans ?_
    exact congrArg (Decoded.instr <| .int ·) (operandOfBits_operandBits isr)
  | abra o c | asub o c | rbra o c | rsub o c => exact decodeUnder_wordB p _ o c

/-- Settles O1: the round trip under this model's CTRL_LOW_BITS. -/
theorem decodeEncodeAgree : Obligations.DecodeEncodeAgree :=
  decodeUnder_encode Config.ctrlLowBits

/-! A word is what the fields the decoder reads from it encode. -/

/-- A word is its opcode and its lower twelve bits. -/
theorem opcode_append_payload (w : Word) : w.extractLsb' 12 4 ++ w.extractLsb' 0 12 = w :=
  (BitVec.extractLsb'_append_extractLsb'_eq_extractLsb' rfl).trans BitVec.extractLsb'_eq_self

theorem high_append_low (w : Word) : w.extractLsb' 6 6 ++ w.extractLsb' 0 6 = w.extractLsb' 0 12 :=
  BitVec.extractLsb'_append_extractLsb'_eq_extractLsb' rfl

theorem bmode_append_cond (w : Word) : w.extractLsb' 4 2 ++ w.extractLsb' 0 4 = w.extractLsb' 0 6 :=
  BitVec.extractLsb'_append_extractLsb'_eq_extractLsb' rfl

theorem opcode_append_append (w : Word) :
    w.extractLsb' 12 4 ++ w.extractLsb' 6 6 ++ w.extractLsb' 0 6 = w := by
  rw [BitVec.append_assoc, high_append_low]
  exact opcode_append_payload w

theorem wordG_of_fields (w : Word) :
    wordG (w.extractLsb' 12 4) (operandOfBits (w.extractLsb' 6 6)) (operandOfBits (w.extractLsb' 0 6)) = w := by
  rw [wordG, operandBits_operandOfBits, operandBits_operandOfBits, opcode_append_append]

theorem wordC_of_fields {w : Word} (h : w.extractLsb' 12 4 = 14#4) :
    wordC (w.extractLsb' 6 6) (w.extractLsb' 0 6) = w := by
  rw [wordC, ← h, opcode_append_append]

theorem wordB_of_fields {w : Word} (h : w.extractLsb' 12 4 = 15#4) :
    wordB (w.extractLsb' 4 2) (operandOfBits (w.extractLsb' 6 6)) (condOfBits (w.extractLsb' 0 4)) = w := by
  rw [wordB, operandBits_operandOfBits, condBits_condOfBits, ← h, BitVec.append_assoc, bmode_append_cond]
  exact opcode_append_append w

/-! What each format's decoder gives is well-formed, and encodes to the word of that format. -/

theorem encode_decodeTwoOperand {op : Nat} (h : op < 14) (src dst : Operand) :
    encode (decodeTwoOperand op src dst (operandBits src ++ operandBits dst)) =
      wordG (BitVec.ofNat 4 op) src dst := by
  rcases Nat.lt_succ_iff_lt_or_eq.1 h with hop | rfl
  · interval_cases op <;> rfl
  · rw [wordG, BitVec.append_assoc]
    rfl

theorem wellFormedUnder_decodeTwoOperand (p : CtrlLowBits) (op : Nat) (src dst : Operand)
    (payload : BitVec 12) : (decodeTwoOperand op src dst payload).wellFormedUnder p = true := by
  unfold decodeTwoOperand
  split <;> rfl

theorem encode_decodeJump {bmode : Nat} (h : bmode < 4) (target : Operand) (cond : Cond) :
    encode (decodeJump bmode target cond) = wordB (BitVec.ofNat 2 bmode) target cond := by
  interval_cases bmode <;> rfl

theorem wellFormedUnder_decodeJump (p : CtrlLowBits) (bmode : Nat) (target : Operand) (cond : Cond) :
    (decodeJump bmode target cond).wellFormedUnder p = true := by
  unfold decodeJump
  split <;> rfl

theorem decodeBareControl_eq_instr {p : CtrlLowBits} {f : BitVec 6 → Instr} {low : BitVec 6} {ir : Word}
    {i : Instr} (h : decodeBareControl p f low ir = .instr i) : p.allows low = true ∧ i = f low := by
  unfold decodeBareControl at h
  split at h
  next allowed => exact ⟨allowed, (Decoded.instr.inj h).symm⟩
  next => cases h

theorem encode_of_decodeControl {p : CtrlLowBits} {command : Nat} {low : BitVec 6} {ir : Word} {i : Instr}
    (h : decodeControl p command low ir = .instr i) :
    encode i = wordC (BitVec.ofNat 6 command) low ∧ i.wellFormedUnder p = true := by
  unfold decodeControl at h
  split at h
  case h_3 =>
    cases h
    exact ⟨congrArg (wordC 2#6) (operandBits_operandOfBits low), rfl⟩
  case h_6 => cases h
  all_goals
    obtain ⟨allowed, rfl⟩ := decodeBareControl_eq_instr h
    exact ⟨rfl, allowed⟩

/-- The encoder undoes the decoder, whichever value CTRL_LOW_BITS has. -/
theorem encode_of_decodeUnder {p : CtrlLowBits} {w : Word} {i : Instr} (h : decodeUnder p w = .instr i) :
    encode i = w ∧ i.wellFormedUnder p = true := by
  rcases opcode_cases w with hop | hop | hop
  · rw [decodeUnder_twoOperand p hop] at h
    cases h
    refine ⟨?_, wellFormedUnder_decodeTwoOperand p _ _ _ _⟩
    have fields := encode_decodeTwoOperand hop (operandOfBits (w.extractLsb' 6 6))
      (operandOfBits (w.extractLsb' 0 6))
    rwa [operandBits_operandOfBits, operandBits_operandOfBits, high_append_low, BitVec.ofNat_toNat,
      BitVec.setWidth_eq, wordG_of_fields] at fields
  · rw [decodeUnder_control p hop] at h
    obtain ⟨henc, hwf⟩ := encode_of_decodeControl h
    rw [BitVec.ofNat_toNat, BitVec.setWidth_eq, wordC_of_fields hop] at henc
    exact ⟨henc, hwf⟩
  · rw [decodeUnder_jump p hop] at h
    cases h
    refine ⟨?_, wellFormedUnder_decodeJump p _ _ _⟩
    rw [encode_decodeJump (BitVec.isLt _), BitVec.ofNat_toNat, BitVec.setWidth_eq, wordB_of_fields hop]

/-- Settles O2: the round trip under this model's CTRL_LOW_BITS. -/
theorem encodeDecodeAgree : Obligations.EncodeDecodeAgree := fun _ _ => encode_of_decodeUnder

/-! Which words are rejected (30_encoding R104). -/

/-- The words of opcode 0xE with a command above 4 are the interval 0xE140..0xEFFF (44_control R216). -/
theorem undefinedCommand_range (w : Word) :
    (0xE140 ≤ w.toNat ∧ w.toNat ≤ 0xEFFF) ↔
      w.extractLsb' 12 4 = 14#4 ∧ 5 ≤ (w.extractLsb' 6 6).toNat := by
  have hw := w.isLt
  simp only [← BitVec.toNat_inj, BitVec.extractLsb'_toNat, Nat.shiftRight_eq_div_pow, BitVec.toNat_ofNat]
  omega

theorem decodeControl_undefined (p : CtrlLowBits) {command : Nat} (h : 5 ≤ command) (low : BitVec 6) (ir : Word) :
    decodeControl p command low ir = .undefinedCommand ir := by
  unfold decodeControl
  split
  case h_6 => rfl
  all_goals omega

/-- Where bits 5..0 are ignored (D21) each of the five commands is an instruction. -/
theorem decodeControl_defined {command : Nat} (h : command < 5) (low : BitVec 6) (ir : Word) :
    ∃ i, decodeControl .ignored command low ir = .instr i := by
  interval_cases command
  all_goals exact ⟨_, rfl⟩

/-- Settles O6: only the control format rejects, and it rejects the undefined commands. -/
theorem onlyUndefinedCommandsAreRejected : Obligations.OnlyUndefinedCommandsAreRejected := by
  intro w
  rw [undefinedCommand_range, decode, Machine.Config_ctrlLowBits]
  refine ⟨fun ⟨hop, hcommand⟩ => ?_, fun hdefined => ?_⟩
  · rw [decodeUnder_control _ hop, decodeControl_undefined _ hcommand]
  · rcases opcode_cases w with hop | hop | hop
    · exact ⟨_, decodeUnder_twoOperand _ hop⟩
    · rw [decodeUnder_control _ hop]
      exact decodeControl_defined (Nat.lt_of_not_le fun hcommand => hdefined ⟨hop, hcommand⟩) _ _
    · exact ⟨_, decodeUnder_jump _ hop⟩

/-! The examples and the fields of the source. -/

/-- Settles O3: nine fixed words, and the constant is what `@R15++` reads in any state (30_encoding R102). -/
theorem sourceExamplesDecode : Obligations.SourceExamplesDecode := by
  refine ⟨?_, ?_, ?_, ?_, ?_, ?_, ?_, ?_, ?_, fun s hpc hconst => ?_⟩
  case refine_10 => exact ⟨_, hconst ▸ Machine.constantOperandSteps s hpc⟩
  all_goals decide

theorem operandOfBits_injective : Function.Injective operandOfBits :=
  Function.LeftInverse.injective operandBits_operandOfBits

/-- Settles O4: the field is read as its two parts, and the encoder tells its 64 values apart. -/
theorem operandFieldLayout : Obligations.OperandFieldLayout :=
  ⟨operandOfBits_append, by decide, by decide, rfl, rfl, rfl, rfl, rfl, rfl,
    fun _ _ h => operandOfBits_injective h⟩

/-- The jump word of R99, bit field by bit field, is the encoder's word of format B. -/
theorem wordB_eq_append (ssss : BitVec 4) (mm bmode : BitVec 2) (n : Bool) (ccc : Fin 8) :
    0xF#4 ++ ssss ++ mm ++ bmode ++ BitVec.ofBool n ++ BitVec.ofNat 3 ccc.val =
      wordB bmode ⟨regOfNum ssss, modeOfBits mm⟩ ⟨n, ccc⟩ := by
  rw [wordB, operandBits, condBits, regNum_regOfNum, modeBits_modeOfBits, BitVec.append_assoc',
    BitVec.append_assoc']
  rfl

/-- Settles O5: a word of format B decodes by its `bmode`. -/
theorem jumpGroupDecodes : Obligations.JumpGroupDecodes := by
  intro ssss mm n ccc word operand
  have hword (bmode : BitVec 2) : decode (word bmode) = .instr (decodeJump bmode.toNat operand ⟨n, ccc⟩) :=
    (congrArg decode (wordB_eq_append ssss mm bmode n ccc)).trans (decodeUnder_wordB _ bmode operand ⟨n, ccc⟩)
  exact ⟨hword 0b00#2, hword 0b01#2, hword 0b10#2, hword 0b11#2⟩

end Sys2Proof
end

section
/-! SUPPORT. Operands and destinations, mode by mode: where they are, what their register ends as, and what reading
them gives and leaves. -/

namespace Sys2Proof.Machine

/-- A register written with a function of itself, as the two updating modes do (40_operands R131). -/
theorem readReg_writeReg_update (f : Word → Word) (r : Reg) (s : State) :
    readReg (writeReg r (f (readReg s r)) s) r =
      if r = .sr then srFixed Config.srUnusedBits (f (readReg s .sr)) else f (readReg s r) := by
  rw [readReg_writeReg_same]
  split
  next hr => rw [hr]
  next => rfl

theorem memRead_of_device {a : Word} {s : State} {h : List IoEvent} (ha : inIoPage a = true)
    (hd : s.device = some h) :
    memRead a s = .next (Config.ioAnswer h a, { s with device := some (.read a :: h) }) :=
  (memRead_eq_next ..).2 (.inr ⟨ha, h, hd, rfl⟩)

theorem readReg_locateState_of_decInd {o : Operand} (hm : o.mode = .decInd) (s : State) :
    readReg (locateState o s) o.reg =
      if o.reg = .sr then srFixed Config.srUnusedBits (readReg s .sr - 1) else readReg s o.reg - 1 := by
  simp only [locateState, hm]
  exact readReg_writeReg_update (· - 1) o.reg s

theorem readReg_dstFinish_of_indInc {o : Operand} (hm : o.mode = .indInc) (s : State) :
    readReg (dstFinish o s) o.reg =
      if o.reg = .sr then srFixed Config.srUnusedBits (readReg s .sr + 1) else readReg s o.reg + 1 := by
  simp only [dstFinish, hm]
  exact readReg_writeReg_update (· + 1) o.reg s

/-- Settles O56: each updating mode is one write of its register, and the old value is one read. -/
theorem destinationByMode : Obligations.DestinationByMode := by
  rintro ⟨r, m⟩ s
  refine ⟨?reg, ?ind, ?indInc, ?decInd, fun _ => rfl, fun a ha => memRead_of_memory ha,
    fun a h ha hd => ⟨_, memRead_of_device ha hd⟩⟩
  case reg | ind =>
    rintro rfl
    exact ⟨rfl, rfl, rfl⟩
  case indInc =>
    rintro rfl
    exact ⟨rfl, rfl, onlyRegChanged_writeReg r _ s, readReg_dstFinish_of_indInc rfl s⟩
  case decInd =>
    rintro rfl
    exact ⟨rfl, onlyRegChanged_writeReg r _ s, rfl, readReg_locateState_of_decInd rfl s⟩

/-- Settles O17: an operand is its destination located, read and finished, and only the read can stop. -/
theorem operandEvaluatesWhenReadable : Obligations.OperandEvaluatesWhenReadable := by
  intro o s
  rw [readable_iff_dstRead]
  constructor
  · rintro ⟨⟨v, u⟩, h⟩
    exact ⟨_, (readOperand_eq_next ..).2 ⟨v, u, h, rfl⟩⟩
  · rintro ⟨r, h⟩
    obtain ⟨v, u, hd, -⟩ := (readOperand_eq_next ..).1 h
    exact ⟨_, hd⟩

@[simp] theorem readReg_withDevice (s : State) (d : Option (List IoEvent)) (r : Reg) :
    readReg { s with device := d } r = readReg s r := by
  cases r <;> rfl

/-- An operand that is read leaves its register's two updates and the device's history. -/
theorem readOperand_eq_finished {o : Operand} {s t : State} {v : Word} (h : readOperand o s = .next (v, t)) :
    t = dstFinish o { locateState o s with device := t.device } := by
  obtain ⟨v', u, hd, he⟩ := (readOperand_eq_next ..).1 h
  obtain ⟨rfl, rfl⟩ := Prod.mk.inj he
  rw [dstFinish_device, ← dstRead_changes_device hd]

theorem locateState_of_mode_ne {o : Operand} (hm : o.mode ≠ .decInd) (s : State) : locateState o s = s := by
  unfold locateState
  split
  next hdec => exact absurd hdec hm
  all_goals rfl

theorem dstFinish_of_mode_ne {o : Operand} (hm : o.mode ≠ .indInc) (s : State) : dstFinish o s = s := by
  unfold dstFinish
  split
  next hinc => exact absurd hinc hm
  all_goals rfl

/-- The frame of an operand that is read is that of its one update, before or after. -/
theorem modeFrame_readOperand {o : Operand} {s t : State} {v : Word} (h : readOperand o s = .next (v, t)) :
    ModeFrame o s t := by
  rw [readOperand_eq_finished h]
  by_cases hm : o.mode = .decInd
  · obtain ⟨hi, lo, pc, sr⟩ := modeFrame_locateState o s
    rw [dstFinish_of_mode_ne (by simp [hm])]
    exact ⟨hi, lo, pc, sr⟩
  · obtain ⟨hi, lo, pc, sr⟩ := modeFrame_dstFinish o { s with device := t.device }
    rw [locateState_of_mode_ne hm]
    exact ⟨hi, lo, pc, sr⟩

theorem readOperand_of_mode_reg {o : Operand} {s t : State} {v : Word} (h : readOperand o s = .next (v, t))
    (hm : o.mode = .reg) : v = readReg s o.reg ∧ t = s := by
  simp only [readOperand, hm, Host.Outcome.next.injEq, Prod.mk.injEq] at h
  obtain ⟨rfl, rfl⟩ := h
  exact ⟨rfl, rfl⟩

/-- An operand in memory (20_memory R63). -/
theorem readOperand_of_memory {o : Operand} {s t : State} {v a : Word} (h : readOperand o s = .next (v, t))
    (ha : locate o s = .mem a) (hio : inIoPage a = false) : v = readWord s.mem a ∧ t.device = s.device := by
  rw [readOperand_eq, ha, dstRead, memRead_of_memory hio] at h
  cases h
  simp

/-- An operand in the I/O page (20_memory R68). -/
theorem readOperand_of_ioPage {o : Operand} {s t : State} {v a : Word} (h : readOperand o s = .next (v, t))
    (ha : locate o s = .mem a) (hio : inIoPage a = true) :
    ∃ old, s.device = some old ∧ t.device = some (.read a :: old) := by
  cases hd : s.device with
  | none =>
    have refused : readOperand o s = .refused (.noIODevice a) :=
      (readOperand_eq_refused ..).2 ⟨a, ha, hio, hd, rfl⟩
    rw [refused] at h
    cases h
  | some old =>
    rw [readOperand_eq, ha, dstRead, memRead_of_device hio ((locateState_device o s).trans hd)] at h
    cases h
    exact ⟨old, rfl, dstFinish_device o _⟩

/-- Settles O16: the mode makes one update of its register, before or after, and the read is one access. -/
theorem operandReadByMode : Obligations.OperandReadByMode := by
  intro o s t v h
  obtain ⟨hi, lo, pc, sr⟩ := modeFrame_readOperand h
  obtain ⟨-, hind, hinc, hdec, -⟩ := destinationByMode o s
  have hstate := readOperand_eq_finished h
  refine ⟨hi, lo, pc, readOperand_of_mode_reg h, fun a ha hio => (readOperand_of_memory h ha hio).1,
    fun hm => ⟨(hind hm).1, fun q => ?ind⟩, fun hm => ⟨(hinc hm).1, ?indInc⟩, fun hm => ?decInd, sr,
    readOperand_mem h, readOperand_hidden h, fun hm => by rw [(readOperand_of_mode_reg h hm).2],
    fun a ha => ⟨fun hio => (readOperand_of_memory h ha hio).2, readOperand_of_ioPage h ha⟩⟩
  case ind =>
    rw [hstate, locateState_of_mode_ne (by simp [hm]), dstFinish_of_mode_ne (by simp [hm]), readReg_withDevice]
  case indInc =>
    rw [hstate, locateState_of_mode_ne (by simp [hm]), readReg_dstFinish_of_indInc hm]
    simp only [readReg_withDevice]
  case decInd =>
    have ht : readReg t o.reg = readReg (locateState o s) o.reg := by
      rw [hstate, dstFinish_of_mode_ne (by simp [hm]), readReg_withDevice]
    rw [ht]
    exact ⟨(hdec hm).1, readReg_locateState_of_decInd hm s⟩

/-- A write of R14 leaves nothing of the flag writes before it (40_operands R136; log 8). -/
theorem writeReg_sr_writeFlags (v : Word) (f : FlagWrites) (s : State) :
    writeReg .sr v (writeFlags f s) = writeReg .sr v s := rfl

/-- Settles O30: a destination R14 is written after MOVE's own flags. -/
theorem moveToStatusRegisterWins : Obligations.MoveToStatusRegisterWins := by
  intro src s s1 a h
  rw [exec_move, writeOnly_eq_next, ← writeReg_sr_writeFlags a (logicOut a).flags]
  exact ⟨a, s1, _, h, rfl, rfl⟩

end Sys2Proof.Machine
end

section
/-! SUPPORT. The step at a boundary that runs: the fetch, then the decoded instruction. -/

namespace Sys2Proof.Machine

theorem step_of_boundary_run {s s0 t : State} {w : Word} (hb : boundary s = .run s0)
    (hf : fetch s0 = .next (w, t)) : step s = runDecoded (fun i => exec i t) (decode w) := by
  rw [step, hb]
  simp only [hf, andThen_next]

theorem fetch_of_device {s : State} {h : List IoEvent} (hio : inIoPage s.pc = true) (hd : s.device = some h) :
    fetch s = .next (Config.ioAnswer h s.pc, { s with pc := s.pc + 1, device := some (.read s.pc :: h) }) := by
  rw [fetch, memRead_of_device hio hd, andThen_next]

theorem fetch_of_no_device {s : State} (hio : inIoPage s.pc = true) (hd : s.device = none) :
    fetch s = .refused (.noIODevice s.pc) := by
  rw [fetch, (memRead_eq_refused ..).2 ⟨hio, hd, rfl⟩, andThen_refused]

/-- Settles O49: the parts of a step, the boundary, the fetch and the decoded word, one after the other. -/
theorem stepRunsDecodedInstruction : Obligations.StepRunsDecodedInstruction := by
  refine ⟨fun s s0 t w i hb hf hd _ => ?_, fun s s0 t w hb hf hd => ?_, fun s => boundary_of_no_request,
    fun s rest hh hI => ?_, fun s => fetch_of_memory, fun s h hio hd => ⟨_, fetch_of_device hio hd⟩,
    fun s => fetch_of_no_device⟩
  · rw [step_of_boundary_run hb hf, hd, runDecoded]
  · rw [step_of_boundary_run hb hf, hd, runDecoded]
  · simp [boundary, hh, hI]

end Sys2Proof.Machine
end

section
/-! SUPPORT. The statistics against the machine: what each part of an instruction does to memory and to the device's
history stays within the accesses counted for it. -/

namespace Sys2Proof.Machine

/-- From `s` to `t` the device has seen at most so many reads and writes, and memory changed only if there is a
write among them (40_operands R141). -/
structure AccessesWithin (reads writes : Nat) (s t : State) : Prop where
  device : HistoryGrows reads writes s t
  stores : writes = 0 → t.mem = s.mem

theorem AccessesWithin.trans {r w r' w' : Nat} {s t u : State} (h : AccessesWithin r w s t)
    (g : AccessesWithin r' w' t u) : AccessesWithin (r + r') (w + w') s u where
  device := h.device.trans g.device
  stores hw := (g.stores (Nat.eq_zero_of_add_eq_zero_left hw)).trans (h.stores (Nat.eq_zero_of_add_eq_zero_right hw))

theorem AccessesWithin.mono {r w r' w' : Nat} {s t : State} (h : AccessesWithin r w s t) (hr : r ≤ r')
    (hw : w ≤ w') : AccessesWithin r' w' s t where
  device := h.device.mono hr hw
  stores h0 := h.stores (Nat.eq_zero_of_le_zero (h0 ▸ hw))

/-- A part that makes no access, before or after others. -/
theorem accessesWithin_of_eq {s t : State} (hm : t.mem = s.mem) (hd : t.device = s.device) :
    AccessesWithin 0 0 s t :=
  ⟨historyGrows_of_device_eq hd, fun _ => hm⟩

/-- An operand counts as an access exactly when it is located in memory. -/
theorem locate_inMemory (o : Operand) (s : State) :
    (inMemory [o.mode] = 0 ∧ locate o s = .reg o.reg) ∨ (inMemory [o.mode] = 1 ∧ ∃ a, locate o s = .mem a) := by
  obtain ⟨r, m⟩ := o
  cases m with
  | reg => exact .inl ⟨rfl, rfl⟩
  | ind | indInc | decInd => exact .inr ⟨rfl, _, rfl⟩

theorem inMemory_cons (m : Mode) (ms : List Mode) : inMemory (m :: ms) = inMemory [m] + inMemory ms := by
  cases m with
  | reg => exact (Nat.zero_add _).symm
  | ind | indInc | decInd => exact Nat.add_comm _ 1

theorem inMemory_le_length (modes : List Mode) : inMemory modes ≤ modes.length :=
  List.length_filter_le ..

/-! ### The parts -/

theorem dstRead_accessesWithin {o : Operand} {s u t : State} {v : Word}
    (h : dstRead (locate o s) u = .next (v, t)) : AccessesWithin (inMemory [o.mode]) 0 u t := by
  have same : t.mem = u.mem := by rw [dstRead_changes_device h]
  rcases locate_inMemory o s with ⟨hn, hl⟩ | ⟨hn, -⟩
  · rw [hl] at h
    cases h
    exact hn ▸ accessesWithin_of_eq rfl rfl
  · exact hn ▸ ⟨dstRead_historyGrows h, fun _ => same⟩

theorem dstWrite_accessesWithin {o : Operand} {s u t : State} {v : Word}
    (h : dstWrite (locate o s) v u = .next t) : AccessesWithin 0 (inMemory [o.mode]) u t := by
  rcases locate_inMemory o s with ⟨hn, hl⟩ | ⟨hn, -⟩
  · rw [hl] at h
    cases h
    exact hn ▸ accessesWithin_of_eq (writeReg_mem ..) (writeReg_device ..)
  · exact hn ▸ ⟨dstWrite_historyGrows h, nofun⟩

theorem locateState_accessesWithin (o : Operand) (s : State) : AccessesWithin 0 0 s (locateState o s) :=
  accessesWithin_of_eq (locateState_mem o s) (locateState_device o s)

theorem dstFinish_accessesWithin (o : Operand) (s : State) : AccessesWithin 0 0 s (dstFinish o s) :=
  accessesWithin_of_eq (dstFinish_mem o s) (dstFinish_device o s)

theorem writeFlags_accessesWithin (f : FlagWrites) (s : State) : AccessesWithin 0 0 s (writeFlags f s) :=
  accessesWithin_of_eq rfl rfl

theorem readOperand_accessesWithin {o : Operand} {s t : State} {v : Word}
    (h : readOperand o s = .next (v, t)) : AccessesWithin (inMemory [o.mode]) 0 s t := by
  obtain ⟨v', u, hd, he⟩ := (readOperand_eq_next ..).1 h
  cases he
  exact (((locateState_accessesWithin o s).trans (dstRead_accessesWithin hd)).trans
    (dstFinish_accessesWithin o u)).mono (by omega) le_rfl

theorem push_accessesWithin {v : Word} {s t : State} (h : push v s = .next t) : AccessesWithin 0 1 s t :=
  ⟨push_historyGrows h, nofun⟩

theorem fetch_accessesWithin {w : Word} {s t : State} (h : fetch s = .next (w, t)) : AccessesWithin 1 0 s t :=
  ⟨fetch_historyGrows h, fun _ => by rw [(fetch_eq_next h).1]⟩

/-! ### The three shapes of a two-operand instruction -/

section
variable {src dst : Operand} {s t : State}

theorem writeOnly_accessesWithin {f : Word → AluOut} (h : writeOnly f src dst s = .next t) :
    AccessesWithin (inMemory [src.mode]) (inMemory [dst.mode]) s t := by
  obtain ⟨a, s1, u, source, write, rfl⟩ := (writeOnly_eq_next ..).1 h
  have located : AccessesWithin (inMemory [src.mode]) 0 s (locateState dst s1) :=
    (readOperand_accessesWithin source).trans (locateState_accessesWithin dst s1)
  exact (((located.trans (writeFlags_accessesWithin ..)).trans (dstWrite_accessesWithin write)).trans
    (dstFinish_accessesWithin dst u)).mono le_rfl (by omega)

/-- The two reads of an instruction that reads its old destination. -/
theorem sourceAndOld_accessesWithin {s1 s3 : State} {a d : Word} (source : readOperand src s = .next (a, s1))
    (old : dstRead (locate dst s1) (locateState dst s1) = .next (d, s3)) :
    AccessesWithin (inMemory [src.mode, dst.mode]) 0 s s3 := by
  rw [inMemory_cons]
  exact ((readOperand_accessesWithin source).trans (locateState_accessesWithin dst s1)).trans
    (dstRead_accessesWithin old)

theorem readModifyWrite_accessesWithin {f : Word → Word → State → Res AluOut}
    (h : readModifyWrite f src dst s = .next t) :
    AccessesWithin (inMemory [src.mode, dst.mode]) (inMemory [dst.mode]) s t := by
  obtain ⟨a, s1, d, s3, out, u, source, old, -, write, rfl⟩ := (readModifyWrite_eq_next ..).1 h
  exact ((((sourceAndOld_accessesWithin source old).trans (writeFlags_accessesWithin ..)).trans
    (dstWrite_accessesWithin write)).trans (dstFinish_accessesWithin dst u)).mono le_rfl (by omega)

theorem compareOnly_accessesWithin {f : Word → Word → FlagWrites} (h : compareOnly f src dst s = .next t) :
    AccessesWithin (inMemory [src.mode, dst.mode]) 0 s t := by
  obtain ⟨a, s1, d, s3, source, old, rfl⟩ := (compareOnly_eq_next ..).1 h
  exact ((sourceAndOld_accessesWithin source old).trans (writeFlags_accessesWithin ..)).trans
    (dstFinish_accessesWithin dst _)

end

/-- Which of the three shapes a two-operand instruction has, with the accesses counted for it
(40_operands R140). -/
theorem twoOperand_shape {i : Instr} {src dst : Operand} (hi : twoOperands i = some (src, dst)) (s : State) :
    (∃ f, exec i s = writeOnly f src dst s ∧ accesses i s = ⟨[src.mode], [dst.mode], false⟩) ∨
    (∃ f, exec i s = readModifyWrite f src dst s ∧
      accesses i s = ⟨[src.mode, dst.mode], [dst.mode], false⟩) ∨
    (∃ f, exec i s = compareOnly f src dst s ∧ accesses i s = ⟨[src.mode, dst.mode], [], false⟩) := by
  cases i <;> cases hi
  case move => exact .inl ⟨_, exec_move .., rfl⟩
  case swap => exact .inl ⟨_, exec_swap .., rfl⟩
  case not => exact .inl ⟨_, exec_not .., rfl⟩
  case add => exact .inr (.inl ⟨_, exec_add .., rfl⟩)
  case addc => exact .inr (.inl ⟨_, exec_addc .., rfl⟩)
  case sub => exact .inr (.inl ⟨_, exec_sub .., rfl⟩)
  case subc => exact .inr (.inl ⟨_, exec_subc .., rfl⟩)
  case shl => exact .inr (.inl ⟨_, exec_shl .., rfl⟩)
  case shr => exact .inr (.inl ⟨_, exec_shr .., rfl⟩)
  case and => exact .inr (.inl ⟨_, exec_and .., rfl⟩)
  case or => exact .inr (.inl ⟨_, exec_or .., rfl⟩)
  case xor => exact .inr (.inl ⟨_, exec_xor .., rfl⟩)
  case cmp => exact .inr (.inr ⟨_, exec_cmp .., rfl⟩)

/-! ### Jumps and calls -/

/-- Every jump counts its operand and no destination (45_branch R227). -/
theorem jump_accesses {i : Instr} {o : Operand} {c : Cond} (hi : jumpOperand i = some (o, c)) (s : State) :
    (accesses i s).reads = [o.mode] ∧ (accesses i s).writes = [] := by
  have evaluated (call : Bool) : (jumpAccesses .evaluate call o c s).reads = [o.mode] ∧
      (jumpAccesses .evaluate call o c s).writes = [] := by
    unfold jumpAccesses
    cases readOperand o s <;> exact ⟨rfl, rfl⟩
  cases i <;> cases hi
  case abra | rbra => exact evaluated false
  case asub | rsub => exact evaluated true

/-- A call that is taken counts its push (45_branch R230). -/
theorem call_accesses_push {i : Instr} {o : Operand} {c : Cond} {s s1 : State} {a : Word}
    (hi : i = .asub o c ∨ i = .rsub o c) (operand : readOperand o s = .next (a, s1)) (hc : taken c s1 = true) :
    (accesses i s).push = true := by
  have pushed : (jumpAccesses .evaluate true o c s).push = true := by simp [jumpAccesses, operand, hc]
  rcases hi with rfl | rfl
  · exact pushed
  · exact pushed

theorem jumpStep_accessesWithin {i : Instr} {o : Operand} {c : Cond} {s t : State}
    (hi : jumpOperand i = some (o, c)) (h : JumpStep i o c s t) :
    AccessesWithin (inMemory (accesses i s).reads) (accesses i s).memWrites s t := by
  obtain ⟨hreads, hwrites⟩ := jump_accesses hi s
  rw [hreads]
  cases h with
  | untaken a operand _ => exact (readOperand_accessesWithin operand).mono le_rfl (Nat.zero_le _)
  | jump a b s1 operand _ _ fin =>
    have jumped : AccessesWithin 0 0 s1 t := accessesWithin_of_eq (by rw [fin]) (by rw [fin])
    exact ((readOperand_accessesWithin operand).trans jumped).mono le_rfl (Nat.zero_le _)
  | call a b s1 u operand hc target pushed fin =>
    have counted : (accesses i s).memWrites = 1 := by
      rw [Accesses.memWrites, hwrites, call_accesses_push (target.imp And.left And.left) operand hc]
      rfl
    have jumped : AccessesWithin 0 0 u t := accessesWithin_of_eq (by rw [fin]) (by rw [fin])
    rw [counted]
    exact ((readOperand_accessesWithin operand).trans (push_accessesWithin pushed)).trans jumped

/-! ### Every instruction, and the step -/

/-- An instruction stays within the accesses counted for it. -/
theorem exec_accessesWithin {i : Instr} {s t : State} (h : exec i s = .next t) :
    AccessesWithin (inMemory (accesses i s).reads) (accesses i s).memWrites s t := by
  rcases instr_kinds i with ⟨src, dst, hi⟩ | ⟨o, c, hi⟩ | ⟨p, rfl⟩ | ⟨x, rfl⟩ | ⟨x, rfl⟩ | ⟨o, rfl⟩ |
    ⟨x, rfl⟩ | ⟨x, rfl⟩
  · rcases twoOperand_shape hi s with ⟨f, hf, ha⟩ | ⟨f, hf, ha⟩ | ⟨f, hf, ha⟩
    · rw [ha]
      exact writeOnly_accessesWithin (hf ▸ h)
    · rw [ha]
      exact readModifyWrite_accessesWithin (hf ▸ h)
    · rw [ha]
      exact compareOnly_accessesWithin (hf ▸ h)
  · exact jumpStep_accessesWithin hi (jump_cases i o c s t hi h)
  · cases h
  · cases h
    exact accessesWithin_of_eq rfl rfl
  · obtain ⟨-, rfl⟩ := rti_cases x s t h
    exact accessesWithin_of_eq rfl rfl
  · obtain ⟨a, s1, operand, -, rfl⟩ := int_cases o s t h
    have entered : AccessesWithin 0 0 s1 (takeInterrupt a s1) := accessesWithin_of_eq rfl rfl
    exact (readOperand_accessesWithin operand).trans entered
  all_goals
    cases h
    exact accessesWithin_of_eq rfl rfl

/-- No instruction counts more than two operands read, or more than one write (40_operands R141). -/
theorem accesses_le (i : Instr) (s : State) :
    inMemory (accesses i s).reads ≤ 2 ∧ (accesses i s).memWrites ≤ 1 := by
  rcases instr_kinds i with ⟨src, dst, hi⟩ | ⟨o, c, hi⟩ | ⟨p, rfl⟩ | ⟨x, rfl⟩ | ⟨x, rfl⟩ | ⟨o, rfl⟩ |
    ⟨x, rfl⟩ | ⟨x, rfl⟩
  · rcases twoOperand_shape hi s with ⟨f, -, ha⟩ | ⟨f, -, ha⟩ | ⟨f, -, ha⟩
    · rw [ha]
      exact ⟨(inMemory_le_length [src.mode]).trans one_le_two, inMemory_le_length [dst.mode]⟩
    · rw [ha]
      exact ⟨inMemory_le_length [src.mode, dst.mode], inMemory_le_length [dst.mode]⟩
    · rw [ha]
      exact ⟨inMemory_le_length [src.mode, dst.mode], Nat.zero_le 1⟩
  · obtain ⟨hreads, hwrites⟩ := jump_accesses hi s
    rw [Accesses.memWrites, hreads, hwrites]
    exact ⟨(inMemory_le_length [o.mode]).trans one_le_two, (Nat.zero_add _).trans_le (Bool.toNat_le _)⟩
  · exact ⟨Nat.zero_le 2, Nat.zero_le 1⟩
  · exact ⟨Nat.zero_le 2, Nat.zero_le 1⟩
  · exact ⟨Nat.zero_le 2, Nat.zero_le 1⟩
  · exact ⟨(inMemory_le_length [o.mode]).trans one_le_two, Nat.zero_le 1⟩
  all_goals exact ⟨Nat.zero_le 2, Nat.zero_le 1⟩

/-- What a step counts against what it does: nothing and no access, or an instruction and its fetch. -/
theorem step_accessesWithin {s t : State} (h : step s = .next t) :
    (stepAccesses s = none ∧ t.mem = s.mem ∧ t.device = s.device) ∨
    ∃ w i u, stepAccesses s = some (w, accesses i u) ∧
      AccessesWithin (accesses i u).memReads (accesses i u).memWrites s t := by
  unfold step at h
  unfold stepAccesses
  rcases boundary_cases s with ⟨-, hb⟩ | ⟨-, -, isr, rest, -, hb⟩ | ⟨-, hb⟩
  · rw [hb] at h ⊢
    cases h
    exact .inl ⟨rfl, rfl, rfl⟩
  · rw [hb] at h ⊢
    cases h
    exact .inl ⟨rfl, rfl, rfl⟩
  · rw [hb] at h ⊢
    obtain ⟨⟨w, u⟩, hf, hrun⟩ := (andThen_eq_next ..).1 h
    simp only [hf]
    cases hd : decode w with
    | instr i =>
      simp only [hd, runDecoded] at hrun
      have begun : AccessesWithin 0 0 s { s with intSource := s.intSource.tail } := accessesWithin_of_eq rfl rfl
      have fetched : AccessesWithin 1 0 s u := begun.trans (fetch_accessesWithin hf)
      exact .inr ⟨w, i, u, rfl, (fetched.trans (exec_accessesWithin hrun)).mono le_rfl (Nat.zero_add _).le⟩
    | undefinedCommand ir => simp [hd, runDecoded] at hrun
    | controlLowBits ir => simp [hd, runDecoded] at hrun

theorem afterStep_of_none {s : State} (h : stepAccesses s = none) (c : Statistics) : c.afterStep s = c := by
  rw [Statistics.afterStep, h]

theorem afterStep_of_some {s : State} {w : Word} {a : Accesses} (h : stepAccesses s = some (w, a))
    (c : Statistics) : c.afterStep s = c.record w a := by
  rw [Statistics.afterStep, h]

/-- Settles O60: fetch and instruction stay within the counted accesses, and these are bounded by the shape of the
instruction. -/
theorem statisticsBoundAccesses : Obligations.StatisticsBoundAccesses := by
  intro s t c h
  rcases step_accessesWithin h with ⟨hnone, hmem, hdev⟩ | ⟨w, i, u, hsome, device, stores⟩
  · refine ⟨fun _ => ⟨hmem, hdev, afterStep_of_none hnone c⟩, fun w a hsome => ?_⟩
    simp [hnone] at hsome
  · refine ⟨fun hnone => by simp [hsome] at hnone, fun w' a ha => ?_⟩
    obtain ⟨rfl, rfl⟩ := Prod.mk.inj (Option.some.inj (hsome.symm.trans ha))
    obtain ⟨reads, writes⟩ := accesses_le i u
    rw [afterStep_of_some hsome]
    exact ⟨rfl, rfl, rfl, Nat.le_add_right 1 _, Nat.add_le_add_left reads 1, writes, stores, device.events⟩

end Sys2Proof.Machine
end

section
/-! SUPPORT. MOVE, SWAP, NOT and the additions and subtractions: their results and flags by exact arithmetic, and
that each instruction completes with them in every form. -/

namespace Sys2Proof.Machine

/-! ### The flags an instruction leaves -/

/-- The five flags after an instruction's flag writes: the ones written, and the old ones elsewhere
(10_state R35). -/
theorem flagsAre_writeFlags (f : FlagWrites) (s : State) :
    flagsAre (writeFlags f s) (f.v.getD (readFlag s bitV)) (f.n.getD (readFlag s bitN))
      (f.z.getD (readFlag s bitZ)) (f.c.getD (readFlag s bitC)) (f.x.getD (readFlag s bitX)) := by
  simp only [flagsAre, readFlag_writeFlags, getLsbD_apply]
  simp [readFlag]

theorem flagsAre_logicOut (r : Word) (s : State) :
    flagsAre (writeFlags (logicOut r).flags s) (readFlag s bitV) (r.getLsbD 15) (decide (r = 0x0000#16))
      (readFlag s bitC) (decide (r = 0xFFFF#16)) := by
  rw [← BitVec.msb_eq_getLsbD_last, ← beq_eq_decide, ← beq_eq_decide]
  exact flagsAre_writeFlags (logicOut r).flags s

theorem flagsAre_arithOut (r : Word) (c v : Bool) (s : State) :
    flagsAre (writeFlags (arithOut r c v).flags s) v (r.getLsbD 15) (decide (r = 0x0000#16)) c
      (decide (r = 0xFFFF#16)) := by
  rw [← BitVec.msb_eq_getLsbD_last, ← beq_eq_decide, ← beq_eq_decide]
  exact flagsAre_writeFlags (arithOut r c v).flags s

/-- The write of a destination other than R14 keeps the flags written before it (40_operands R136). -/
theorem flagsAre_of_dstWrite {l : Loc} {res : Word} {m u : State} {v n z c x : Bool}
    (h : dstWrite l res m = .next u) (hl : l ≠ .reg .sr) (flags : flagsAre m v n z c x) :
    flagsAre u v n z c x := by
  simpa only [flagsAre, readFlag, readSr, sr_dstWrite h hl] using flags

/-! ### Completion of the two shapes that write their destination -/

/-- An instruction that writes a result without V and C completes with it. -/
theorem completesWriting_of_logicOut {i : Operand → Operand → Instr} (res : Word → Word)
    (hexec : ∀ src dst s, exec (i src dst) s = writeOnly (fun a => logicOut (res a)) src dst s) :
    CompletesWriting i res := by
  intro src dst s a s1 source ready
  obtain ⟨u, write, done⟩ := writeOnly_completes (fun a => logicOut (res a)) src dst s s1 a source ready
  exact ⟨u, (hexec src dst s).trans done, destHolds_of_dstWrite write,
    onlyDestinationChanged_of_dstWrite write,
    fun hl => flagsAre_of_dstWrite write hl (flagsAre_logicOut (res a) _)⟩

/-- An instruction that reads and writes its destination completes with the result and the flags of its function
`f`. -/
theorem completesModifying_of_out {i : Operand → Operand → Instr} (f : Word → Word → State → AluOut)
    {v c x : Word → Word → State → Bool}
    (hexec : ∀ src dst s, exec (i src dst) s = readModifyWrite (fun a d s => .next (f a d s)) src dst s)
    (flags : ∀ a d s, flagsAre (writeFlags (f a d s).flags s) (v a d s) ((f a d s).res.getLsbD 15)
      (decide ((f a d s).res = 0x0000#16)) (c a d s) (x a d s)) :
    CompletesModifying i (fun a d s => (f a d s).res) v c x := by
  intro src dst s a s1 d s3 source old
  obtain ⟨u, write, done⟩ := readModifyWrite_completes (fun a d s => .next (f a d s)) src dst s s1 s3 a d
    (f a d s3) source old rfl
  exact ⟨u, (hexec src dst s).trans done, destHolds_of_dstWrite write,
    onlyDestinationChanged_of_dstWrite write, fun hl => flagsAre_of_dstWrite write hl (flags a d s3)⟩

/-- An instruction with an arithmetic result completes with it, its carry and its overflow. -/
theorem completesModifying_of_arithOut {i : Operand → Operand → Instr} (res : Word → Word → State → Word)
    (c v : Word → Word → State → Bool)
    (hexec : ∀ src dst s, exec (i src dst) s =
      readModifyWrite (fun a d s => .next (arithOut (res a d s) (c a d s) (v a d s))) src dst s) :
    CompletesModifying i res v c (fun a d s => decide (res a d s = 0xFFFF#16)) :=
  completesModifying_of_out (fun a d s => arithOut (res a d s) (c a d s) (v a d s)) hexec
    fun a d s => flagsAre_arithOut (res a d s) (c a d s) (v a d s) s

/-! ### MOVE, SWAP and NOT -/

/-- SWAP's exchange of the bytes is a rotation by 8 (42_shift_swap R173). -/
theorem swapBytes_eq_rotateLeft (v : Word) : swapBytes v = v.rotateLeft 8 := by
  apply BitVec.eq_of_getLsbD_eq
  intro k hk
  rw [swapBytes, BitVec.getLsbD_append, BitVec.getLsbD_rotateLeft]
  interval_cases k <;> simp

/-- Settles O19: each of the three writes its result with the flags of a result without V and C. -/
theorem moveSwapNotComplete : Obligations.MoveSwapNotComplete := by
  refine ⟨completesWriting_of_logicOut _ exec_move, completesWriting_of_logicOut _ fun src dst s => ?swap,
    completesWriting_of_logicOut _ fun src dst s => ?not⟩
  case swap => simp only [exec_swap, swapBytes_eq_rotateLeft]
  case not =>
    have hnot : ∀ a : Word, 0xFFFF#16 - a = ~~~a := BitVec.allOnes_sub_eq_not
    simp only [exec_not, hnot]

/-! ### Sums and differences -/

/-- The sign bit of a result is the sign of the exact number, inverted when that number does not fit
(41_move_arith R152..R156). -/
theorem msb_ofInt {n : Int} (lo : -65536 ≤ n) (hi : n < 65536) :
    (BitVec.ofInt 16 n).msb = (signedOverflow n != decide (n < 0)) := by
  have hint : (BitVec.ofInt 16 n).toInt = n.bmod 65536 := BitVec.toInt_ofInt n
  rw [BitVec.msb_eq_toInt, hint, signedOverflow, Bool.eq_iff_iff]
  simp only [Int.bmod, decide_eq_true_eq, bne_iff_ne, ne_eq, decide_eq_decide]
  split <;> omega

/-- The test of V: where an overflow is possible the exact number has the sign `neg`, and V compares the sign of
the result with it. -/
theorem overflow_test {n : Int} {possible neg : Bool} (lo : -65536 ≤ n) (hi : n < 65536)
    (sign : possible = true → neg = decide (n < 0)) (fits : possible = false → signedOverflow n = false) :
    (possible && (BitVec.ofInt 16 n).msb != neg) = signedOverflow n := by
  cases possible with
  | false => simp [fits rfl]
  | true => simp [msb_ofInt lo hi, sign rfl]

theorem toInt_range (d : Word) : -32768 ≤ d.toInt ∧ d.toInt < 32768 := ⟨d.le_toInt, d.toInt_lt⟩

theorem ofBool_setWidth (b : Bool) : (BitVec.ofBool b).setWidth 16 = BitVec.ofNat 16 b.toNat := by
  cases b <;> rfl

theorem ofInt_sub {w : Nat} (x y : Int) : BitVec.ofInt w (x - y) = BitVec.ofInt w x - BitVec.ofInt w y := by
  rw [Int.sub_eq_add_neg, BitVec.ofInt_add, BitVec.ofInt_neg, BitVec.sub_eq_add_neg]

/-- A sum of two words of the same sign has that sign, and one of different signs fits. -/
theorem overflow_test_add (a d : Word) (carry : Bool) :
    (d.msb == a.msb && (BitVec.ofInt 16 (d.toInt + a.toInt + carry.toNat)).msb != d.msb) =
      signedOverflow (d.toInt + a.toInt + carry.toNat) := by
  have hc : carry.toNat ≤ 1 := carry.toNat_le
  have ha := toInt_range a
  have hd := toInt_range d
  refine overflow_test (by omega) (by omega) (fun same => ?_) fun differ => ?_
  · rw [BitVec.msb_eq_toInt, BitVec.msb_eq_toInt, beq_iff_eq, decide_eq_decide] at same
    rw [BitVec.msb_eq_toInt, decide_eq_decide]
    omega
  · rw [BitVec.msb_eq_toInt, BitVec.msb_eq_toInt, beq_eq_false_iff_ne, Ne, decide_eq_decide] at differ
    rw [signedOverflow, decide_eq_false_iff_not]
    omega

/-- A difference of two words of different signs has the sign of the first, and one of the same sign fits. -/
theorem overflow_test_sub (a d : Word) (borrow : Bool) :
    (d.msb != a.msb && (BitVec.ofInt 16 (d.toInt - a.toInt - borrow.toNat)).msb != d.msb) =
      signedOverflow (d.toInt - a.toInt - borrow.toNat) := by
  have hb : borrow.toNat ≤ 1 := borrow.toNat_le
  have ha := toInt_range a
  have hd := toInt_range d
  refine overflow_test (by omega) (by omega) (fun differ => ?_) fun same => ?_
  · rw [BitVec.msb_eq_toInt, BitVec.msb_eq_toInt, bne_iff_ne, Ne, decide_eq_decide] at differ
    rw [BitVec.msb_eq_toInt, decide_eq_decide]
    omega
  · rw [BitVec.msb_eq_toInt, BitVec.msb_eq_toInt, bne_eq_false_iff_eq, decide_eq_decide] at same
    rw [signedOverflow, decide_eq_false_iff_not]
    omega

/-- The sum modulo 65536 is the same from the unsigned and from the signed numbers. -/
theorem add_eq_ofInt (a d : Word) (carry : Bool) :
    d + a + (BitVec.ofBool carry).setWidth 16 = BitVec.ofInt 16 (d.toInt + a.toInt + carry.toNat) := by
  simp [ofBool_setWidth, BitVec.ofInt_add]

theorem sub_eq_ofInt (a d : Word) (borrow : Bool) :
    d - a - (BitVec.ofBool borrow).setWidth 16 = BitVec.ofInt 16 (d.toInt - a.toInt - borrow.toNat) := by
  simp [ofBool_setWidth, ofInt_sub]

/-- ADD and ADDC by exact arithmetic (41_move_arith R152, R153). -/
theorem addOut_eq (a d : Word) (carry : Bool) :
    addOut a d carry = arithOut (d + a + (BitVec.ofBool carry).setWidth 16)
      (decide (65536 ≤ d.toNat + a.toNat + carry.toNat)) (signedOverflow (d.toInt + a.toInt + carry.toNat)) := by
  have hres : BitVec.ofNat 16 (d.toNat + a.toNat + carry.toNat) =
      d + a + (BitVec.ofBool carry).setWidth 16 := by
    simp [ofBool_setWidth, BitVec.ofNat_add]
  rw [addOut, hres, ← overflow_test_add, add_eq_ofInt]

/-- SUB and SUBC by exact arithmetic (41_move_arith R154, R155). -/
theorem subOut_eq (a d : Word) (borrow : Bool) :
    subOut a d borrow = arithOut (d - a - (BitVec.ofBool borrow).setWidth 16)
      (decide (d.toNat < a.toNat + borrow.toNat)) (signedOverflow (d.toInt - a.toInt - borrow.toNat)) := by
  have hres : BitVec.ofInt 16 (d.toNat - a.toNat - borrow.toNat) =
      d - a - (BitVec.ofBool borrow).setWidth 16 := by
    simp [ofBool_setWidth, ofInt_sub]
  have hborrow : ((d.toNat : Int) - a.toNat - borrow.toNat < 0) ↔ d.toNat < a.toNat + borrow.toNat := by omega
  rw [subOut, hres, decide_eq_decide.2 hborrow, ← overflow_test_sub, sub_eq_ofInt]

/-- ADD is ADDC with no carry in. -/
theorem addOut_false (a d : Word) :
    addOut a d false =
      arithOut (d + a) (decide (65536 ≤ d.toNat + a.toNat)) (signedOverflow (d.toInt + a.toInt)) := by
  simp [addOut_eq]

/-- SUB is SUBC with no borrow in. -/
theorem subOut_false (a d : Word) :
    subOut a d false = arithOut (d - a) (decide (d.toNat < a.toNat)) (signedOverflow (d.toInt - a.toInt)) := by
  simp [subOut_eq]

/-- Settles O21: each is an arithmetic result, with C as it is at step 4 as the carry in of ADDC. -/
theorem addAddcComplete : Obligations.AddAddcComplete := by
  refine ⟨completesModifying_of_arithOut _ _ _ fun src dst s => ?add,
    completesModifying_of_arithOut _ _ _ fun src dst s => ?addc⟩
  case add => simp only [exec_add, addOut_false]
  case addc => simp only [exec_addc, addOut_eq]

/-- Settles O22: each is an arithmetic result, with C as it is at step 4 as the borrow in of SUBC. -/
theorem subSubcComplete : Obligations.SubSubcComplete := by
  refine ⟨completesModifying_of_arithOut _ _ _ fun src dst s => ?sub,
    completesModifying_of_arithOut _ _ _ fun src dst s => ?subc⟩
  case sub => simp only [exec_sub, subOut_false]
  case subc => simp only [exec_subc, subOut_eq]

/-! ### Laws 3 and 4 of R156 -/

/-- The sign of a difference against its overflow is the comparison of the signed numbers. -/
theorem sign_sub_ne_overflow (a d : Word) :
    (d - a).getLsbD 15 ≠ signedOverflow (d.toInt - a.toInt) ↔ d.toInt < a.toInt := by
  have ha := toInt_range a
  have hd := toInt_range d
  have hres : d - a = BitVec.ofInt 16 (d.toInt - a.toInt) := by simpa using sub_eq_ofInt a d false
  rw [← BitVec.msb_eq_getLsbD_last, hres, msb_ofInt (by omega) (by omega)]
  cases signedOverflow (d.toInt - a.toInt) <;> simp

/-- Settles O32: the flags SUB leaves, each read as a comparison. -/
theorem subComparesLikeSigned : Obligations.SubComparesLikeSigned := by
  intro src dst s s1 s3 a d source old hl
  obtain ⟨u, done, -, -, flags⟩ := subSubcComplete.1 src dst s a s1 d s3 source old
  obtain ⟨hv, hn, hz, hc, -⟩ := flags hl
  refine ⟨u, done, ?_, by rw [hc, decide_eq_true_eq], ?_⟩
  · rw [hz, decide_eq_true_eq]
    exact sub_eq_zero
  · rw [hn, hv]
    exact sign_sub_ne_overflow a d

/-- An instruction that modifies one register by another: the registers it leaves. -/
theorem readModifyWrite_reg (f : Word → Word → State → AluOut) {q r : Reg} (hqr : q ≠ r) (hq : q ≠ .sr)
    (hr : r ≠ .sr) (s : State) :
    ∃ t, readModifyWrite (fun a d s => .next (f a d s)) ⟨q, .reg⟩ ⟨r, .reg⟩ s = .next t ∧
      readReg t r = (f (readReg s q) (readReg s r) s).res ∧ readReg t q = readReg s q := by
  refine ⟨_, rfl, ?_, ?_⟩
  · exact (readReg_writeReg_same ..).trans (if_neg hr)
  · exact (readReg_writeReg_other _ r q _ hqr hr).trans (readReg_writeFlags _ s q hq)

/-- Settles O31: the source register is the same at both instructions, so the difference takes the sum back. -/
theorem addThenSubRestores : Obligations.AddThenSubRestores := by
  intro q r s hqr hq hr
  obtain ⟨t, ht, hsum, hkept⟩ := readModifyWrite_reg (fun a d _ => addOut a d false) hqr hq hr s
  obtain ⟨u, hu, hdiff, -⟩ := readModifyWrite_reg (fun a d _ => subOut a d false) hqr hq hr t
  simp only [addOut_false, subOut_false, arithOut] at hsum hdiff
  exact ⟨t, u, ht, hu, hsum, by rw [hdiff, hsum, hkept, BitVec.add_sub_cancel]⟩

end Sys2Proof.Machine
end

section
/-! SUPPORT. When a two-operand instruction completes: exactly when both of its operands can be accessed. -/

namespace Sys2Proof.Machine

/-- Which of the three shapes a two-operand instruction has, with a function that always answers: SHL and SHR run
every count out (40_operands R140, 42_shift_swap R170; log 11). -/
theorem twoOperand_total_shape {i : Instr} {src dst : Operand} (hi : twoOperands i = some (src, dst)) (s : State) :
    (∃ f, exec i s = writeOnly f src dst s) ∨
    (∃ f : Word → Word → State → AluOut,
      exec i s = readModifyWrite (fun a d s => .next (f a d s)) src dst s) ∨
    (∃ f, exec i s = compareOnly f src dst s) := by
  cases i <;> cases hi
  case move | swap | not =>
    simp only [exec_move, exec_swap, exec_not]
    exact .inl ⟨_, rfl⟩
  case add | addc | sub | subc | shl | shr | and | or | xor =>
    simp only [exec_add, exec_addc, exec_sub, exec_subc, exec_shl, exec_shr, exec_and, exec_or, exec_xor]
    exact .inr (.inl ⟨_, rfl⟩)
  case cmp => exact .inr (.inr ⟨_, exec_cmp ..⟩)

section
variable {src dst : Operand} {s : State}

theorem operandsReady_of_reads {a d : Word} {s1 s3 : State} (source : readOperand src s = .next (a, s1))
    (old : dstRead (locate dst s1) (locateState dst s1) = .next (d, s3)) : operandsReady src dst s = true :=
  (operandsReady_iff src dst s).2 ⟨(a, s1), source, (readable_iff_dstRead dst s1).2 ⟨(d, s3), old⟩⟩

theorem reads_of_operandsReady (h : operandsReady src dst s = true) :
    ∃ a s1 d s3, readOperand src s = .next (a, s1) ∧
      dstRead (locate dst s1) (locateState dst s1) = .next (d, s3) := by
  obtain ⟨⟨a, s1⟩, source, ready⟩ := (operandsReady_iff src dst s).1 h
  obtain ⟨⟨d, s3⟩, old⟩ := (readable_iff_dstRead dst s1).1 ready
  exact ⟨a, s1, d, s3, source, old⟩

/-- A destination that is not read has a step for its write exactly when it has one for a read. -/
theorem writeOnly_completes_iff (f : Word → AluOut) :
    (∃ t, writeOnly f src dst s = .next t) ↔ operandsReady src dst s = true := by
  constructor
  · rintro ⟨t, h⟩
    obtain ⟨a, s1, u, source, write, -⟩ := (writeOnly_eq_next ..).1 h
    obtain ⟨⟨d, s3⟩, old⟩ := (dstWrite_total (locate dst s1) (f a).res (locateState dst s1)
      (writeFlags (f a).flags (locateState dst s1)) rfl).2 ⟨u, write⟩
    exact operandsReady_of_reads source old
  · intro h
    obtain ⟨⟨a, s1⟩, source, ready⟩ := (operandsReady_iff src dst s).1 h
    obtain ⟨u, -, done⟩ := writeOnly_completes f src dst s s1 a source ready
    exact ⟨_, done⟩

theorem readModifyWrite_completes_iff (f : Word → Word → State → AluOut) :
    (∃ t, readModifyWrite (fun a d s => .next (f a d s)) src dst s = .next t) ↔
      operandsReady src dst s = true := by
  constructor
  · rintro ⟨t, h⟩
    obtain ⟨a, s1, d, s3, out, u, source, old, -⟩ := (readModifyWrite_eq_next ..).1 h
    exact operandsReady_of_reads source old
  · intro h
    obtain ⟨a, s1, d, s3, source, old⟩ := reads_of_operandsReady h
    obtain ⟨u, -, done⟩ := readModifyWrite_completes (fun a d s => .next (f a d s)) src dst s s1 s3 a d _
      source old rfl
    exact ⟨_, done⟩

theorem compareOnly_completes_iff (f : Word → Word → FlagWrites) :
    (∃ t, compareOnly f src dst s = .next t) ↔ operandsReady src dst s = true := by
  constructor
  · rintro ⟨t, h⟩
    obtain ⟨a, s1, d, s3, source, old, -⟩ := (compareOnly_eq_next ..).1 h
    exact operandsReady_of_reads source old
  · intro h
    obtain ⟨a, s1, d, s3, source, old⟩ := reads_of_operandsReady h
    exact ⟨_, (compareOnly_eq_next ..).2 ⟨a, s1, d, s3, source, old, rfl⟩⟩

end

/-- A two-operand instruction completes exactly when both of its operands can be accessed. -/
theorem twoOperand_completes_iff {i : Instr} {src dst : Operand} (hi : twoOperands i = some (src, dst))
    (s : State) : (∃ t, exec i s = .next t) ↔ operandsReady src dst s = true := by
  rcases twoOperand_total_shape hi s with ⟨f, h⟩ | ⟨f, h⟩ | ⟨f, h⟩
  · rw [h, writeOnly_completes_iff]
  · rw [h, readModifyWrite_completes_iff]
  · rw [h, compareOnly_completes_iff]

theorem next_ne_fault {α : Type} (a : α) (e : Fault) : (.next a : Res α) ≠ .fault e := nofun

/-- A sequence faults only where a part does. -/
theorem andThen_ne_fault {α β : Type} {r : Res α} {f : α → Res β} (first : ∀ e, r ≠ .fault e)
    (second : ∀ a e, f a ≠ .fault e) (e : Fault) : andThen r f ≠ .fault e := by
  intro h
  rcases (andThen_eq_fault ..).1 h with h | ⟨a, -, h⟩
  · exact first e h
  · exact second a e h

/-- Steps 5 to 7 of 40_operands R134 raise no fault. -/
theorem writeResult_ne_fault (l : Loc) (out : AluOut) (dst : Operand) (s : State) (e : Fault) :
    andThen (writeResult Config.srDstOrder l out s) (fun u => .next (dstFinish dst u)) ≠ .fault e :=
  andThen_ne_fault (dstWrite_ne_fault l out.res _) (fun _ => next_ne_fault _) e

/-- A two-operand instruction raises no fault (60_exceptions R250). -/
theorem twoOperand_ne_fault {i : Instr} {src dst : Operand} (hi : twoOperands i = some (src, dst)) (s : State)
    (e : Fault) : exec i s ≠ .fault e := by
  rcases twoOperand_total_shape hi s with ⟨f, h⟩ | ⟨f, h⟩ | ⟨f, h⟩ <;> rw [h]
  · exact andThen_ne_fault (readOperand_ne_fault src s) (fun _ => writeResult_ne_fault _ _ dst _) e
  · exact andThen_ne_fault (readOperand_ne_fault src s) (fun _ => andThen_ne_fault (dstRead_ne_fault _ _)
      fun _ => writeResult_ne_fault _ _ dst _) e
  · exact andThen_ne_fault (readOperand_ne_fault src s) (fun _ => andThen_ne_fault (dstRead_ne_fault _ _)
      fun _ => next_ne_fault _) e

/-- Settles O29: without ready operands there is no next state, there is never a fault, and a refusal is an access to
the I/O page. -/
theorem twoOperandStopsOnlyAtIoPage : Obligations.TwoOperandStopsOnlyAtIoPage := by
  intro i src dst s hi
  refine ⟨(twoOperand_completes_iff hi s).2, fun hready => ?_⟩
  cases hexec : exec i s with
  | next t => simp [(twoOperand_completes_iff hi s).1 ⟨t, hexec⟩] at hready
  | fault e => exact absurd hexec (twoOperand_ne_fault hi s e)
  | refused e =>
    obtain ⟨hd, a, io, rfl⟩ := exec_refusesOnlyIoPage i s e hexec
    exact ⟨hd, a, io, rfl⟩

end Sys2Proof.Machine
end

section
/-! SUPPORT. SHL and SHR in closed form for every count (42_shift_swap R171, R172), and that each completes with it in
every form. -/

namespace Sys2Proof.Machine

/-! ### The word and the flags a shift leaves -/

/-- The places a shift left frees: the lowest `n`. -/
theorem getLsbD_lowOnes (n k : Nat) (hk : k < 16) : (BitVec.ofNat 16 (2 ^ n - 1)).getLsbD k = decide (k < n) := by
  rw [BitVec.getLsbD_ofNat, Nat.testBit_two_pow_sub_one, decide_eq_true hk, Bool.true_and]

/-- The places a shift right frees: the highest `n`. -/
theorem getLsbD_highOnes (n k : Nat) (hn : n ≤ 16) (hk : k < 16) :
    (BitVec.ofNat 16 ((2 ^ n - 1) * 2 ^ (16 - n))).getLsbD k = decide (16 ≤ k + n) := by
  rw [BitVec.getLsbD_ofNat, Nat.testBit_mul_two_pow, Nat.testBit_two_pow_sub_one]
  grind

/-- The bits of the fill: the fill bit at each of the ones. -/
theorem getLsbD_fill (fill : Bool) (ones : Word) (k : Nat) :
    (if fill then ones else 0x0000#16).getLsbD k = (fill && ones.getLsbD k) := by
  cases fill <;> simp

/-- Above count 16 every place is freed. -/
theorem getLsbD_fill_all (fill : Bool) (k : Nat) (hk : k < 16) :
    (if fill then 0xFFFF#16 else 0x0000#16).getLsbD k = fill := by
  rw [getLsbD_fill, show 0xFFFF#16 = BitVec.allOnes 16 from rfl, BitVec.getLsbD_allOnes, decide_eq_true hk,
    Bool.and_true]

/-- The word SHL leaves: shifted left with the fill bit in the freed places, which above count 16 are all (R171). -/
theorem shlOut_res (n : Nat) (d : Word) (fill c : Bool) :
    (shlOut n d fill c).res =
      if n ≤ 16 then (d <<< n) ||| (if fill then BitVec.ofNat 16 (2 ^ n - 1) else 0x0000#16)
      else if fill then 0xFFFF#16 else 0x0000#16 := by
  apply BitVec.eq_of_getLsbD_eq
  intro k hk
  rw [shlOut, (repeatPlaces_shl fill n d c).1 k hk]
  by_cases hn : n ≤ 16
  · rw [if_pos hn, BitVec.getLsbD_or, getLsbD_fill, getLsbD_lowOnes n k hk, BitVec.getLsbD_shiftLeft]
    by_cases freed : k < n <;> simp [hk, freed]
  · have freed : k < n := by omega
    rw [if_pos freed, if_neg hn, getLsbD_fill_all fill k hk]

/-- The word SHR leaves: shifted right with the fill bit in the freed places, which above count 16 are all (R172). -/
theorem shrOut_res (n : Nat) (d : Word) (fill x : Bool) :
    (shrOut n d fill x).res =
      if n ≤ 16 then
        (d >>> n) ||| (if fill then BitVec.ofNat 16 ((2 ^ n - 1) * 2 ^ (16 - n)) else 0x0000#16)
      else if fill then 0xFFFF#16 else 0x0000#16 := by
  apply BitVec.eq_of_getLsbD_eq
  intro k hk
  rw [shrOut, (repeatPlaces_shr fill n d x).1 k hk]
  by_cases hn : n ≤ 16
  · rw [if_pos hn, BitVec.getLsbD_or, getLsbD_fill, getLsbD_highOnes n k hn hk, BitVec.getLsbD_ushiftRight,
      Nat.add_comm n k]
    by_cases freed : 16 ≤ k + n
    · simp [freed, Nat.not_lt.2 freed, BitVec.getLsbD_of_ge]
    · simp [freed, Nat.lt_of_not_le freed]
  · have freed : ¬ k + n < 16 := by omega
    rw [if_neg freed, if_neg hn, getLsbD_fill_all fill k hk]

/-- SHL leaves the last bit out in C, N and Z of its word, and the old V and X (10_state R35; R171). -/
theorem flagsAre_shlOut (n : Nat) (d : Word) (s : State) (fill c : Bool) :
    flagsAre (writeFlags (shlOut n d fill c).flags s) (readFlag s bitV) ((shlOut n d fill c).res.getLsbD 15)
      (decide ((shlOut n d fill c).res = 0x0000#16))
      (if n = 0 then c else if n ≤ 16 then d.getLsbD (16 - n) else fill) (readFlag s bitX) := by
  rw [← (repeatPlaces_shl fill n d c).2, ← BitVec.msb_eq_getLsbD_last, ← beq_eq_decide]
  exact flagsAre_writeFlags (shlOut n d fill c).flags s

/-- SHR leaves the last bit out in X, N and Z of its word, and the old V and C (10_state R35; R172). -/
theorem flagsAre_shrOut (n : Nat) (d : Word) (s : State) (fill x : Bool) :
    flagsAre (writeFlags (shrOut n d fill x).flags s) (readFlag s bitV) ((shrOut n d fill x).res.getLsbD 15)
      (decide ((shrOut n d fill x).res = 0x0000#16)) (readFlag s bitC)
      (if n = 0 then x else if n ≤ 16 then d.getLsbD (n - 1) else fill) := by
  rw [← (repeatPlaces_shr fill n d x).2, ← BitVec.msb_eq_getLsbD_last, ← beq_eq_decide]
  exact flagsAre_writeFlags (shrOut n d fill x).flags s

/-! ### Completion -/

/-- Settles O23: SHL completes with what its loop leaves, and that is the closed form. -/
theorem shlClosedForm : Obligations.ShlClosedForm := by
  have loop := completesModifying_of_out _ exec_shl fun n d s => flagsAre_shlOut n.toNat d s _ _
  simp only [shlOut_res] at loop
  exact loop

/-- Settles O24: SHR completes with what its loop leaves, and that is the closed form. -/
theorem shrClosedForm : Obligations.ShrClosedForm := by
  have loop := completesModifying_of_out _ exec_shr fun n d s => flagsAre_shrOut n.toNat d s _ _
  simp only [shrOut_res] at loop
  exact loop

end Sys2Proof.Machine
end

section
/-! SUPPORT. AND, OR and XOR, and the words of the reserved opcode (43_logic_cmp R187..R189, R191). -/

namespace Sys2Proof.Machine

/-! ### AND, OR and XOR -/

/-- An instruction that combines its source with its old destination, without V and C, completes with that result:
the counterpart of `completesWriting_of_logicOut` and `completesModifying_of_arithOut`. -/
theorem completesModifying_of_logicOut {i : Operand → Operand → Instr} (res : Word → Word → Word)
    (hexec : ∀ src dst s,
      exec (i src dst) s = readModifyWrite (fun a d _ => .next (logicOut (res a d))) src dst s) :
    CompletesModifying i (fun a d _ => res a d) (fun _ _ s => readFlag s bitV) (fun _ _ s => readFlag s bitC)
      (fun a d _ => decide (res a d = 0xFFFF#16)) :=
  completesModifying_of_out (fun a d _ => logicOut (res a d)) hexec fun a d s => flagsAre_logicOut (res a d) s

/-- Settles O20: each of the three is a result without V and C. -/
theorem andOrXorComplete : Obligations.AndOrXorComplete :=
  ⟨completesModifying_of_logicOut _ exec_and, completesModifying_of_logicOut _ exec_or,
    completesModifying_of_logicOut _ exec_xor⟩

/-! ### The reserved opcode -/

/-- The words of opcode 0xD are the interval 0xD000..0xDFFF (43_logic_cmp R191). -/
theorem reservedOpcode_range (w : Word) :
    (0xD000 ≤ w.toNat ∧ w.toNat ≤ 0xDFFF) ↔ w.extractLsb' 12 4 = 0xD#4 := by
  have hw := w.isLt
  simp only [← BitVec.toNat_inj, BitVec.extractLsb'_toNat, Nat.shiftRight_eq_div_pow, BitVec.toNat_ofNat]
  omega

/-- The reserved opcode with a payload is the decoding of one word, whichever value CTRL_LOW_BITS has. -/
theorem decodeUnder_eq_reservedD_iff (p : CtrlLowBits) (w : Word) (payload : BitVec 12) :
    decodeUnder p w = .instr (.reservedD payload) ↔ w = 0xD#4 ++ payload := by
  constructor
  · intro decoded
    exact (encode_of_decodeUnder decoded).1.symm
  · rintro rfl
    exact decodeUnder_reservedD p payload

/-- The opcode field alone makes a word the reserved opcode (30_encoding R94, R103). -/
theorem decodeUnder_reservedD_iff_opcode (p : CtrlLowBits) (w : Word) :
    (∃ payload, decodeUnder p w = .instr (.reservedD payload)) ↔ w.extractLsb' 12 4 = 0xD#4 := by
  simp only [decodeUnder_eq_reservedD_iff]
  constructor
  · rintro ⟨payload, rfl⟩
    exact extractLsb'_append_hi _ payload
  · intro hop
    exact ⟨w.extractLsb' 0 12, by rw [← hop, opcode_append_payload]⟩

/-- The reserved opcode stops in every state with the word it came from (43_logic_cmp R191; D19). -/
theorem exec_reservedD (payload : BitVec 12) (s : State) :
    exec (.reservedD payload) s = .fault (.reservedOpcode (0xD#4 ++ payload)) := rfl

/-- Settles O7: the interval is the opcode field 0xD, and that field is the reserved opcode. -/
theorem reservedOpcodeFaults : Obligations.ReservedOpcodeFaults :=
  ⟨fun w => (reservedOpcode_range w).trans (decodeUnder_reservedD_iff_opcode _ w).symm, exec_reservedD⟩

end Sys2Proof.Machine
end

section
/-! SUPPORT. The control group: what HALT, RTI and INT do, what INT and RTI do together, and the page that INCRB and
DECRB show (44_control R210..R215). -/

namespace Sys2Proof.Machine

/-- Settles O33: HALT has one effect, in every state. -/
theorem haltHalts : Obligations.HaltHalts := fun _ _ => rfl

/-! ### RTI and INT -/

/-- RTI where it has a meaning (44_control R211). -/
theorem exec_rti_inside {s : State} (unused : BitVec 6) (inside : s.inIsr = true) :
    exec (.rti unused) s = .next (returnFromInterrupt s) :=
  if_pos inside

/-- RTI with nothing to return from (44_control R211, corner case d; D24). -/
theorem exec_rti_outside {s : State} (unused : BitVec 6) (outside : s.inIsr = false) :
    exec (.rti unused) s = .fault .rtiOutsideIsr :=
  if_neg (by simp [outside])

/-- R14 takes the latch through its hard-wired bits, and reading it applies them again (10_state R32; D5). -/
theorem readReg_sr_returnFromInterrupt (s : State) :
    readReg (returnFromInterrupt s) .sr = srFixed Config.srUnusedBits s.srSave :=
  srFixed_idem Config.srUnusedBits s.srSave

/-- Settles O36: inside an interrupt RTI is the return, outside it stops. -/
theorem rtiReturns : Obligations.RtiReturns := by
  refine fun unused s => ⟨fun inside => ?_, exec_rti_outside unused⟩
  exact ⟨_, exec_rti_inside unused inside, readReg_sr_returnFromInterrupt s, rfl, rfl, rfl⟩

/-- INT once its operand is known: IN_ISR after the operand decides, and the operand has not changed it. -/
theorem exec_int_of_operand {o : Operand} {s s1 : State} {a : Word} (operand : readOperand o s = .next (a, s1)) :
    exec (.int o) s = if s.inIsr then .fault .nestedInterrupt else .next (takeInterrupt a s1) := by
  obtain ⟨-, -, isr, -⟩ := readOperand_hidden operand
  simp only [exec, execInt, operand, andThen_next, isr]

theorem exec_int_outside {o : Operand} {s s1 : State} {a : Word} (operand : readOperand o s = .next (a, s1))
    (outside : s.inIsr = false) : exec (.int o) s = .next (takeInterrupt a s1) := by
  rw [exec_int_of_operand operand, if_neg (by simp [outside])]

theorem exec_int_inside {o : Operand} {s s1 : State} {a : Word} (operand : readOperand o s = .next (a, s1))
    (inside : s.inIsr = true) : exec (.int o) s = .fault .nestedInterrupt := by
  rw [exec_int_of_operand operand, if_pos inside]

/-- Settles O37: outside an interrupt INT is the entry from the state its operand left, inside it stops. -/
theorem intEnters : Obligations.IntEnters := by
  refine fun o s s1 a operand => ⟨fun outside => ?_, exec_int_inside operand⟩
  exact ⟨_, exec_int_outside operand outside, rfl, rfl, rfl, rfl, rfl⟩

/-- Entry and return together change no register: the page of R0..R7 passes through the latch too, because the
hard-wired bits lie below it. -/
theorem readReg_return_take (a : Word) (s : State) (r : Reg) :
    readReg (returnFromInterrupt (takeInterrupt a s)) r = readReg s r := by
  cases r with
  | lo i =>
    have page : currentPage (returnFromInterrupt (takeInterrupt a s)) = currentPage s := by
      simp [currentPage, readSr]
    rw [readReg_lo, readReg_lo, page]
    exact readBank_congr rfl _ i
  | hi i => rfl
  | sr =>
    calc readReg (returnFromInterrupt (takeInterrupt a s)) .sr
      _ = srFixed Config.srUnusedBits (readSr s) := readReg_sr_returnFromInterrupt _
      _ = readSr s := srFixed_idem _ _
  | pc => rfl

/-- Settles O38: INT is the entry after its operand, so RTI from there is inside an interrupt and is the return. -/
theorem interruptThenReturnResumes : Obligations.InterruptThenReturnResumes := by
  intro o s s1 a unused operand outside
  exact ⟨_, _, exec_int_outside operand outside, exec_rti_inside unused (takeInterrupt_inIsr a s1),
    readReg_return_take a s1, rfl, rfl, rfl, rfl⟩

/-! ### INCRB and DECRB -/

theorem withRbank_withRbank (page page' : BitVec 8) (v : Word) :
    withRbank page (withRbank page' v) = withRbank page v := by
  apply BitVec.eq_of_getLsbD_eq
  intro k _
  simp only [getLsbD_withRbank]
  split <;> rfl

theorem withRbank_rbankOf (v : Word) : withRbank (rbankOf v) v = v := by
  apply BitVec.eq_of_getLsbD_eq
  intro k hk
  rw [getLsbD_withRbank]
  split
  next => rfl
  next high =>
    have low : k - 8 < 8 := by omega
    have place : 8 + (k - 8) = k := by omega
    simp [rbankOf, low, place]

/-- The state with another page in the window: what INCRB and DECRB leave (`exec_incrb`, `exec_decrb`). -/
def showPage (page : BitVec 8) (s : State) : State := { s with sr := withRbank page s.sr }

theorem exec_incrb (unused : BitVec 6) (s : State) :
    exec (.incrb unused) s = .next (showPage (currentPage s + 1) s) := rfl

theorem exec_decrb (unused : BitVec 6) (s : State) :
    exec (.decrb unused) s = .next (showPage (currentPage s - 1) s) := rfl

@[simp] theorem currentPage_showPage (page : BitVec 8) (s : State) : currentPage (showPage page s) = page :=
  rbankOf_withRbank page s.sr

theorem readReg_lo_showPage (page : BitVec 8) (s : State) (k : Fin 8) :
    readReg (showPage page s) (.lo k) = readBank s page k := by
  rw [readReg_lo, currentPage_showPage]
  exact readBank_congr rfl page k

theorem getLsbD_readReg_sr_showPage (page : BitVec 8) (s : State) {k : Nat} (hk : k < 8) :
    (readReg (showPage page s) .sr).getLsbD k = (readReg s .sr).getLsbD k := by
  simp [readSr, showPage, srFixed_withRbank, getLsbD_withRbank, hk]

/-- What an instruction that only shows a page does to R14 and the window, whichever page it is (10_state R25). -/
theorem completes_showing_page {i : Instr} {s : State} {page : BitVec 8} (h : exec i s = .next (showPage page s)) :
    ∃ t, exec i s = .next t ∧ currentPage t = page ∧
      (∀ k, k < 8 → (readReg t .sr).getLsbD k = (readReg s .sr).getLsbD k) ∧
      (∀ k, readReg t (.lo k) = readBank s page k) ∧ { t with sr := s.sr } = s :=
  ⟨_, h, currentPage_showPage page s, fun _ => getLsbD_readReg_sr_showPage page s,
    readReg_lo_showPage page s, rfl⟩

/-- Settles O39: the two instructions differ in the page they show. -/
theorem bankSteps : Obligations.BankSteps :=
  fun unused s => ⟨completes_showing_page (exec_incrb unused s), completes_showing_page (exec_decrb unused s)⟩

theorem showPage_showPage (page page' : BitVec 8) (s : State) :
    showPage page (showPage page' s) = showPage page s := by
  simp only [showPage, withRbank_withRbank]

theorem showPage_currentPage (s : State) : showPage (currentPage s) s = s := by
  simp only [showPage, currentPage, withRbank_rbankOf]

/-- Settles O40: the page shown last is the first one, as the step down undoes the step up modulo 256. -/
theorem decrbUndoesIncrb : Obligations.DecrbUndoesIncrb := by
  refine fun x y s => ⟨_, exec_incrb x s, ?_⟩
  rw [exec_decrb, currentPage_showPage, BitVec.add_sub_cancel, showPage_showPage, showPage_currentPage]

end Sys2Proof.Machine
end

section
/-! SUPPORT. Jumps, branches and calls: what each does once its operand is known, what a call leaves, why one stops,
and the two ways back from a call (45_branch R227..R233, R241). -/

namespace Sys2Proof.Machine

/-! ### Taken and untaken -/

theorem conditionHolds_iff_taken (c : Cond) (s : State) : conditionHolds c s ↔ taken c s = true := by
  simp [conditionHolds, taken, bne_iff_ne]

/-- Bit 0 of R14 always reads 1, so a jump on it is unconditional (10_state R32). -/
theorem conditionHolds_always (s : State) : conditionHolds ⟨false, 0⟩ s := by
  obtain ⟨-, -, htaken, -⟩ := alwaysOneBit s 0
  exact (conditionHolds_iff_taken _ s).2 htaken

section
variable {o : Operand} {c : Cond} {s s1 : State} {a : Word}

/-- A conditional jump whose condition holds after its operand (45_branch R227; D14). -/
theorem conditionalJump_taken (go : Word → State → Res State) (operand : readOperand o s = .next (a, s1))
    (hc : conditionHolds c s1) : conditionalJump .evaluate go o c s = go a s1 := by
  simp only [conditionalJump, operand, andThen_next, if_pos ((conditionHolds_iff_taken c s1).1 hc)]

/-- A conditional jump whose condition fails still evaluated its operand (45_branch R233; D15; log 10). -/
theorem conditionalJump_untaken (go : Word → State → Res State) (operand : readOperand o s = .next (a, s1))
    (hc : ¬ conditionHolds c s1) : conditionalJump .evaluate go o c s = .next s1 := by
  rw [conditionHolds_iff_taken] at hc
  simp only [conditionalJump, operand, andThen_next, if_neg hc]

end

/-- Settles O45: ABRA and RBRA are conditional jumps whose action is one write of R15. -/
theorem branchesComplete : Obligations.BranchesComplete := by
  intro o c s s1 a operand
  rw [exec_abra, exec_rbra]
  exact ⟨fun hc => ⟨conditionalJump_taken _ operand hc, conditionalJump_taken _ operand hc⟩,
    fun hc => ⟨conditionalJump_untaken _ operand hc, conditionalJump_untaken _ operand hc⟩⟩

/-! ### Calls -/

theorem accessible_of_memory {a : Word} (s : State) (h : inIoPage a = false) : accessible s a = true := by
  simp only [accessible, h, Bool.not_false, Bool.true_or]

theorem readReg_sp_writeReg (v : Word) (s : State) : readReg (writeReg .sp v s) .sp = v :=
  (readReg_writeReg_same s .sp v).trans (if_neg nofun)

/-- A push has a step exactly where its word, the one below R13, is accessible (45_branch R230). -/
theorem push_total (v : Word) (s : State) :
    accessible s (readReg s .sp - 1) = true ↔ ∃ u, push v s = .next u := by
  rw [push_eq, ← memWrite_total]
  simp only [accessible, writeReg_device]

theorem calledFrom_of_push {s u : State} (pushed : push s.pc s = .next u) (target : Word) :
    calledFrom s target (jumpTo target u) := by
  have sp := readReg_sp_writeReg (readReg s .sp - 1) s
  have frame : ∀ k : Fin 6, k ≠ 5 →
      readReg (writeReg .sp (readReg s .sp - 1) s) (.hi k) = readReg s (.hi k) := fun k hk =>
    readReg_writeReg_other s .sp (.hi k) _ (by simpa using hk) nofun
  rw [push_eq] at pushed
  rcases (memWrite_eq_next ..).1 pushed with ⟨memory, rfl⟩ | ⟨io, h, hd, rfl⟩
  · exact ⟨rfl, sp, frame, rfl, rfl, sameHidden_refl s,
      fun _ => ⟨readWord_writeWord_same .., rfl, fun _ => readByte_writeWord_other s.pc s.mem⟩,
      fun io => absurd (memory.symm.trans io) Bool.false_ne_true⟩
  · exact ⟨rfl, sp, frame, rfl, rfl, sameHidden_refl s,
      fun memory => absurd (memory.symm.trans io) Bool.false_ne_true, fun _ => ⟨rfl, h, hd, rfl⟩⟩

/-- The push of a call and the jump after it; the target may be relative to R15, which the push keeps. -/
theorem callTo_calledFrom {s : State} (target : State → Word) (room : accessible s (readReg s .sp - 1) = true)
    (keeps : ∀ u, u.pc = s.pc → target u = target s) :
    ∃ t, andThen (push s.pc s) (fun u => .next (jumpTo (target u) u)) = .next t ∧ calledFrom s (target s) t := by
  obtain ⟨u, pushed⟩ := (push_total s.pc s).1 room
  obtain ⟨pc, -⟩ := push_state pushed
  refine ⟨jumpTo (target s) u, ?_, calledFrom_of_push pushed (target s)⟩
  rw [pushed, andThen_next, keeps u pc]

/-- Settles O46: ASUB and RSUB are conditional jumps whose action is a push and a write of R15. -/
theorem callsComplete : Obligations.CallsComplete := by
  intro o c s s1 a operand
  rw [exec_asub, exec_rsub]
  refine ⟨fun hc room => ?taken,
    fun hc => ⟨conditionalJump_untaken _ operand hc, conditionalJump_untaken _ operand hc⟩⟩
  rw [conditionalJump_taken _ operand hc, conditionalJump_taken _ operand hc]
  exact ⟨callTo_calledFrom (fun _ => a) room fun _ _ => rfl,
    callTo_calledFrom (·.pc + a) room fun u pc => congrArg (· + a) pc⟩

/-! ### Why a jump stops -/

theorem push_ne_fault (v : Word) (s : State) (e : Fault) : push v s ≠ .fault e := by
  rw [push_eq]
  exact memWrite_ne_fault _ _ _ e

theorem conditionalJump_ne_fault {go : Word → State → Res State} (hgo : ∀ a u e, go a u ≠ .fault e) (o : Operand)
    (c : Cond) (s : State) (e : Fault) : conditionalJump .evaluate go o c s ≠ .fault e := by
  refine andThen_ne_fault (readOperand_ne_fault o s) (fun (a, s1) e => ?_) e
  dsimp only
  split
  · exact hgo a s1 e
  · exact next_ne_fault s1 e

/-- A jump, branch or call raises no fault (60_exceptions R250). -/
theorem jump_ne_fault {i : Instr} {o : Operand} {c : Cond} (hi : jumpOperand i = some (o, c)) (s : State)
    (e : Fault) : exec i s ≠ .fault e := by
  cases i <;> cases hi
  case abra | rbra =>
    simp only [exec_abra, exec_rbra]
    exact conditionalJump_ne_fault (fun _ _ => next_ne_fault _) o c s e
  case asub | rsub =>
    simp only [exec_asub, exec_rsub]
    exact conditionalJump_ne_fault
      (fun _ u => andThen_ne_fault (push_ne_fault u.pc u) fun _ => next_ne_fault _) o c s e

/-- Settles O47: there is never a fault, and a refusal is an access to the I/O page. -/
theorem jumpsStopOnlyAtIoPage : Obligations.JumpsStopOnlyAtIoPage := by
  intro i o c s hi
  cases hexec : exec i s with
  | next t => exact .inl ⟨t, rfl⟩
  | fault e => exact absurd hexec (jump_ne_fault hi s e)
  | refused e =>
    obtain ⟨hd, a, io, rfl⟩ := exec_refusesOnlyIoPage i s e hexec
    exact .inr ⟨hd, a, io, rfl⟩

/-! ### The way back -/

theorem readOperand_indInc_of_memory {r : Reg} {s : State} (h : inIoPage (readReg s r) = false) :
    readOperand ⟨r, .indInc⟩ s =
      .next (readWord s.mem (readReg s r), writeReg r (readReg s r + 1) s) := by
  simp only [readOperand, memRead_of_memory h, andThen_next]

/-- After a call whose stack word is memory the operand `@R13++` is the return address, and reading it restores R13
(45_branch R241). -/
theorem readOperand_pop_of_calledFrom {s t : State} {b : Word} (called : calledFrom s b t)
    (memory : inIoPage (readReg s .sp - 1) = false) :
    readOperand ⟨.sp, .indInc⟩ t = .next (s.pc, writeReg .sp (readReg s .sp) t) := by
  obtain ⟨-, sp, -, -, -, -, stack, -⟩ := called
  obtain ⟨word, -, -⟩ := stack memory
  rw [readOperand_indInc_of_memory (by rwa [sp]), sp, word, BitVec.sub_add_cancel]

theorem exec_move_to_pc {src : Operand} {s s1 : State} {a : Word} (operand : readOperand src s = .next (a, s1)) :
    exec (.move src ⟨.pc, .reg⟩) s = .next (writeReg .pc a (writeFlags (logicOut a).flags s1)) := by
  rw [exec_move, writeOnly_eq_next]
  exact ⟨a, s1, _, operand, rfl, rfl⟩

/-- MOVE's own flag writes keep V and C (10_state R35). -/
theorem readFlag_writeFlags_logicOut (a : Word) (s : State) {k : Nat} (hk : k ∉ [bitN, bitZ, bitX]) :
    readFlag (writeFlags (logicOut a).flags s) k = readFlag s k := by
  rw [readFlag_writeFlags, logicOut_keeps a k hk, readFlag]

/-- What the two calls share: each leaves some target in R15, and R13 and the stack word as `calledFrom` says. -/
theorem call_taken {call : Operand → Cond → Instr} {o : Operand} {c : Cond} {s s1 : State} {a : Word}
    (hcall : call = .asub ∨ call = .rsub) (operand : readOperand o s = .next (a, s1)) (hc : conditionHolds c s1)
    (room : accessible s1 (readReg s1 .sp - 1) = true) :
    ∃ b t, exec (call o c) s = .next t ∧ calledFrom s1 b t := by
  obtain ⟨whenTaken, -⟩ := callsComplete o c s s1 a operand
  obtain ⟨asub, rsub⟩ := whenTaken hc room
  rcases hcall with rfl | rfl
  · exact ⟨_, asub⟩
  · exact ⟨_, rsub⟩

/-- Settles O48: both returns read the operand `@R13++`, which gives the pushed R15 and restores R13. -/
theorem callThenReturn : Obligations.CallThenReturn := by
  intro o c s s1 a call hcall operand hc memory
  obtain ⟨b, t, hexec, called⟩ := call_taken hcall operand hc (accessible_of_memory s1 memory)
  have pop := readOperand_pop_of_calledFrom called memory
  obtain ⟨-, -, -, -, sr, -⟩ := called
  have status : readReg (writeReg .sp (readReg s1 .sp) t) .sr = readReg s1 .sr := by
    simp only [readReg_sr, readSr, writeReg_hi_sr, sr]
  have flag (k : Nat) : readFlag (writeReg .sp (readReg s1 .sp) t) k = readFlag s1 k :=
    congrArg (·.getLsbD k) status
  have restored := readReg_sp_writeReg (readReg s1 .sp) t
  obtain ⟨always, -⟩ := branchesComplete ⟨.sp, .indInc⟩ ⟨false, 0⟩ t _ _ pop
  obtain ⟨abra, -⟩ := always (conditionHolds_always _)
  refine ⟨t, _, _, hexec, exec_move_to_pc pop, abra, rfl, restored, ?_, ?_, rfl, restored, status⟩
  · exact (readFlag_writeFlags_logicOut _ _ (by decide)).trans (flag bitV)
  · exact (readFlag_writeFlags_logicOut _ _ (by decide)).trans (flag bitC)

end Sys2Proof.Machine
end

section
/-! SUPPORT. Interrupts at the instruction boundary: when a request is entered, when it passes by, and that only RTI
leaves an interrupt (60_exceptions R254..R259). -/

namespace Sys2Proof.Machine

/-! ### A request at the boundary -/

section
variable {s : State} {isr : Word} {rest : List (Option Word)}

/-- A request is taken where IN_ISR = 0 and HALTED = 0 (60_exceptions R255, R257; D26; log 15). -/
theorem boundary_of_request_outside (request : s.intSource = some isr :: rest) (running : s.halted = false)
    (outside : s.inIsr = false) :
    boundary s = .enter (takeInterrupt isr { s with intSource := rest }) := by
  simp [boundary, request, running, outside]

/-- Inside an interrupt a request passes by (60_exceptions R254; log 15). -/
theorem boundary_of_request_inside (request : s.intSource = some isr :: rest) (running : s.halted = false)
    (inside : s.inIsr = true) : boundary s = .run { s with intSource := rest } := by
  simp [boundary, request, running, inside]

/-- The step that takes a request is the entry and executes no instruction (60_exceptions R256). -/
theorem step_of_request_outside (request : s.intSource = some isr :: rest) (running : s.halted = false)
    (outside : s.inIsr = false) : step s = .next (takeInterrupt isr { s with intSource := rest }) := by
  rw [step, boundary_of_request_outside request running outside]

/-- Inside an interrupt the boundary is the same with the request and without it. -/
theorem step_of_request_inside (request : s.intSource = some isr :: rest) (running : s.halted = false)
    (inside : s.inIsr = true) : step s = step { s with intSource := none :: rest } := by
  obtain ⟨-, -, -, quiet, -⟩ := stepRunsDecodedInstruction
  rw [step, boundary_of_request_inside request running inside, step,
    quiet { s with intSource := none :: rest } rest running rfl]

end

/-- Settles O41: the step is the entry from the state without the request. -/
theorem hardwareInterruptEntry : Obligations.HardwareInterruptEntry := by
  intro s isr rest request running outside
  exact ⟨_, step_of_request_outside request running outside, rfl, rfl, rfl, rfl, rfl, rfl, rfl, rfl, rfl, rfl, rfl⟩

/-- Settles O42: inside an interrupt no step changes a latch, and RTI leaves the request to a boundary outside. -/
theorem requestHeldOffInIsr : Obligations.RequestHeldOffInIsr := by
  refine ⟨fun s isr rest request running inside => ⟨step_of_request_inside request running inside, fun t h => ?_⟩,
    fun unused s t isr rest request running h => ?_⟩
  · rcases step_latches h with kept | ⟨outside, -⟩
    · exact kept
    · cases inside.symm.trans outside
  · obtain ⟨-, rfl⟩ := rti_cases unused s t h
    exact ⟨_, step_of_request_outside (s := returnFromInterrupt s) request running rfl, rfl, rfl⟩

/-! ### Leaving an interrupt -/

/-- Of the instructions that write IN_ISR, INT sets it and RTI clears it. -/
theorem rti_of_leaves_isr {i : Instr} {s t : State} (h : exec i s = .next t) (inside : s.inIsr = true)
    (left : t.inIsr = false) : ∃ unused, i = .rti unused := by
  have changed : t.inIsr ≠ s.inIsr := by simp [inside, left]
  rcases exec_hidden_cases h with ⟨-, -, isr, -, -⟩ | ⟨x, -, rfl⟩ | ⟨x, rfl, -⟩ | ⟨o, a, s1, -, -, -, rfl⟩
  · exact absurd isr changed
  · exact absurd rfl changed
  · exact ⟨x, rfl⟩
  · cases left

theorem outside_of_boundary_enter {s t : State} (h : boundary s = .enter t) : s.inIsr = false := by
  rcases boundary_cases s with ⟨-, stuck⟩ | ⟨-, outside, -⟩ | ⟨-, run⟩
  · cases stuck.symm.trans h
  · exact outside
  · cases run.symm.trans h

/-- Settles O43: RTI is the return, and of IN_ISR at the boundary both directions are known. -/
theorem onlyRtiLeavesIsr : Obligations.OnlyRtiLeavesIsr := by
  refine ⟨fun unused s inside => ?_, fun i s t => rti_of_leaves_isr, fun s t inside h => ?_,
    fun s isr rest outside running request => ⟨_, boundary_of_request_outside request running outside⟩⟩
  · exact ⟨_, exec_rti_inside unused inside, readReg_sr_returnFromInterrupt s, rfl, rfl⟩
  · cases inside.symm.trans (outside_of_boundary_enter h)

end Sys2Proof.Machine
end

section
/-! SUPPORT. All the faults: which instruction raises which, and that a step raises no other (60_exceptions R250). -/

namespace Sys2Proof.Machine

/-- The one fault of RTI (44_control R211, corner case d; D24). -/
theorem rti_fault_cases {unused : BitVec 6} {s : State} {e : Fault} (h : exec (.rti unused) s = .fault e) :
    e = .rtiOutsideIsr ∧ s.inIsr = false := by
  cases hisr : s.inIsr with
  | true => cases (exec_rti_inside unused hisr).symm.trans h
  | false =>
    cases (exec_rti_outside unused hisr).symm.trans h
    exact ⟨rfl, rfl⟩

/-- The one fault of INT; its operand raises none (44_control R212, corner case d; D23). -/
theorem int_fault_cases {o : Operand} {s : State} {e : Fault} (h : exec (.int o) s = .fault e) :
    e = .nestedInterrupt ∧ s.inIsr = true := by
  rcases (andThen_eq_fault ..).1 h with first | ⟨⟨a, s1⟩, operand, -⟩
  · exact absurd first (readOperand_ne_fault o s e)
  · cases hisr : s.inIsr with
    | true =>
      cases (exec_int_inside operand hisr).symm.trans h
      exact ⟨rfl, rfl⟩
    | false => cases (exec_int_outside operand hisr).symm.trans h

/-- All the faults of an instruction: it is the reserved opcode, INT or RTI. -/
theorem exec_fault_cases {i : Instr} {s : State} {e : Fault} (h : exec i s = .fault e) :
    (∃ p, i = .reservedD p ∧ e = .reservedOpcode (0xD#4 ++ p)) ∨
      (∃ o, i = .int o ∧ e = .nestedInterrupt ∧ s.inIsr = true) ∨
      (∃ x, i = .rti x ∧ e = .rtiOutsideIsr ∧ s.inIsr = false) := by
  rcases instr_kinds i with ⟨src, dst, hi⟩ | ⟨o, c, hi⟩ | ⟨p, rfl⟩ | ⟨x, rfl⟩ | ⟨x, rfl⟩ | ⟨o, rfl⟩ |
    ⟨x, rfl⟩ | ⟨x, rfl⟩
  · exact absurd h (twoOperand_ne_fault hi s e)
  · exact absurd h (jump_ne_fault hi s e)
  · cases (exec_reservedD p s).symm.trans h
    exact .inl ⟨p, rfl, rfl⟩
  · cases h
  · exact .inr (.inr ⟨x, rfl, rti_fault_cases h⟩)
  · exact .inr (.inl ⟨o, rfl, int_fault_cases h⟩)
  all_goals cases h

theorem fetch_ne_fault (s : State) (e : Fault) : fetch s ≠ .fault e :=
  andThen_ne_fault (memRead_ne_fault s.pc s) (fun _ => next_ne_fault _) e

/-- A step that faults has fetched a word, and its fault is that of the word. -/
theorem step_fault_cases {s : State} {e : Fault} (h : step s = .fault e) :
    s.halted = false ∧ ∃ w u, fetch { s with intSource := s.intSource.tail } = .next (w, u) ∧
      runDecoded (fun i => exec i u) (decode w) = .fault e := by
  unfold step at h
  rcases boundary_cases s with ⟨-, hb⟩ | ⟨-, -, isr, rest, -, hb⟩ | ⟨running, hb⟩ <;> rw [hb] at h
  · cases h
  · cases h
  · rcases (andThen_eq_fault ..).1 h with first | ⟨⟨w, u⟩, hf, decoded⟩
    · exact absurd first (fetch_ne_fault _ e)
    · exact ⟨running, w, u, hf, decoded⟩

/-- Settles O50: the fetched word is rejected by the decoder, or it is an instruction that faults; the fetch has left
IN_ISR as it was. -/
theorem stepFaultsOnlyAsNamed : Obligations.StepFaultsOnlyAsNamed := by
  intro s e h
  obtain ⟨running, w, u, hf, decoded⟩ := step_fault_cases h
  obtain ⟨-, -, isr, -, -⟩ := fetch_hidden hf
  obtain ⟨rejected, accepted⟩ := onlyUndefinedCommandsAreRejected w
  obtain ⟨reserved, -⟩ := reservedOpcodeFaults
  refine ⟨running, w, u, hf, ?_⟩
  by_cases hw : 0xE140 ≤ w.toNat ∧ w.toNat ≤ 0xEFFF
  · rw [rejected hw] at decoded
    cases decoded
    exact .inr (.inl ⟨rfl, hw, rejected hw⟩)
  · obtain ⟨i, hd⟩ := accepted hw
    rw [hd] at decoded
    rcases exec_fault_cases decoded with ⟨p, rfl, rfl⟩ | ⟨o, rfl, rfl, inside⟩ | ⟨x, rfl, rfl, outside⟩
    · have word : w = 0xD#4 ++ p := (decodeUnder_eq_reservedD_iff _ w p).1 hd
      exact .inl ⟨congrArg _ word.symm, (reserved w).2 ⟨p, hd⟩, p, hd⟩
    · exact .inr (.inr (.inl ⟨rfl, isr.symm.trans inside, o, hd⟩))
    · exact .inr (.inr (.inr ⟨rfl, isr.symm.trans outside, x, hd⟩))

end Sys2Proof.Machine
end

section
/-! SUPPORT. The word the host places for the next fetch, and the step that runs it (70_reset R300; log 4). -/

namespace Sys2Proof.Machine

/-- Where the host places the next word: at R15, or at 0x0000 when R15 is in the I/O page (log 4). -/
def fetchPlace (s : State) : Word := if inIoPage s.pc then 0x0000#16 else s.pc

theorem inIoPage_fetchPlace (s : State) : inIoPage (fetchPlace s) = false := by
  unfold fetchPlace
  split
  · rfl
  · exact Bool.eq_false_iff.2 ‹_›

theorem withFetchWord_toNat (w : Word) (s : State) : s.withFetchWord 16 w.toNat = placeForFetch w s := by
  rw [State.withFetchWord, Nat.mod_eq_of_lt w.isLt, BitVec.ofNat_toNat, BitVec.setWidth_eq]

theorem placeForFetch_eq (w : Word) (s : State) :
    placeForFetch w s = { s with
      pc := fetchPlace s, mem := writeWord (fetchPlace s) w s.mem, halted := false,
      intSource := withoutRequest s.intSource } := rfl

/-- The state the placed word runs on: its fetch is done, and the coming boundary's entry of the interrupt input is
used up. -/
def fetchedState (w : Word) (s : State) : State :=
  { s with
    pc := fetchPlace s + 1, mem := writeWord (fetchPlace s) w s.mem, halted := false, intSource := s.intSource.tail }

theorem boundary_placeForFetch (w : Word) (s : State) :
    boundary (placeForFetch w s) = .run { placeForFetch w s with intSource := s.intSource.tail } := by
  rw [placeForFetch_eq]
  rcases s.intSource with _ | ⟨_ | isr, rest⟩ <;> rfl

theorem fetch_placedWord (w : Word) (s : State) :
    fetch { placeForFetch w s with intSource := s.intSource.tail } = .next (w, fetchedState w s) := by
  rw [placeForFetch_eq, fetch_of_memory (inIoPage_fetchPlace s), readWord_writeWord_same]
  rfl

theorem step_withFetchWord {w : Word} {i : Instr} (s : State) (hd : decode w = .instr i) :
    step (s.withFetchWord 16 w.toNat) = exec i (fetchedState w s) := by
  rw [withFetchWord_toNat, step_of_boundary_run (boundary_placeForFetch w s) (fetch_placedWord w s), hd, runDecoded]

theorem readReg_fetchedState (w : Word) (s : State) {r : Reg} (hr : r ≠ .pc) :
    readReg (fetchedState w s) r = readReg s r := by
  cases r with
  | pc => exact absurd rfl hr
  | lo i => rfl
  | hi i => rfl
  | sr => rfl

/-- Settles O52: the boundary has no request left, the fetch is below the I/O page, and it reads the placed word. -/
theorem placedWordRunsNext : Obligations.PlacedWordRunsNext := by
  intro s w i hd
  exact ⟨fetchedState w s, step_withFetchWord s hd, rfl, rfl, rfl, rfl, rfl, rfl, rfl,
    fun r hr => readReg_fetchedState w s hr, rfl, rfl, rfl, rfl⟩

end Sys2Proof.Machine
end

section
/-! SUPPORT. The host's load: the bytes it leaves, the words it writes, and the addresses of an image (70_reset R300;
log 4). -/

namespace Sys2Proof.Machine

/-! ### Pairs -/

theorem storeHostWord_eq (a v : Word) (s : State) :
    storeHostWord a v s = { s with mem := (storeHostWord a v s).mem } := by
  unfold storeHostWord
  split <;> rfl

theorem loadPairs_eq (pairs : List (Word × Word)) (s : State) :
    State.loadPairs pairs s = { s with mem := (State.loadPairs pairs s).mem } := by
  induction pairs generalizing s with
  | nil => rfl
  | cons p rest ih => rw [loadPairs_cons, ih, storeHostWord_eq]

theorem loadPairs_frame (pairs : List (Word × Word)) (s : State) :
    { State.loadPairs pairs s with mem := s.mem } = s := by
  rw [loadPairs_eq]

theorem loadPairs_wf (pairs : List (Word × Word)) (s : State) (hw : s.wf = true) :
    (State.loadPairs pairs s).wf = true := by
  induction pairs generalizing s with
  | nil => exact hw
  | cons p rest ih => exact ih _ (storeHostWord_wf p.1 p.2 s hw)

theorem readByte_storeHostWord_other {a : Word} (v : Word) (s : State) {cell : Nat}
    (h : inIoPage a = false → cell ≠ 2 * a.toNat ∧ cell ≠ 2 * a.toNat + 1) :
    readByte (storeHostWord a v s).mem cell = readByte s.mem cell := by
  rw [storeHostWord_mem]
  split
  · rfl
  · next hio =>
    obtain ⟨low, high⟩ := h (Bool.eq_false_iff.2 hio)
    exact readByte_writeWord_other v s.mem low high

/-- A load leaves every byte that no pair's word has. -/
theorem readByte_loadPairs_other {pairs : List (Word × Word)} (s : State) {cell : Nat}
    (h : ∀ p ∈ pairs, inIoPage p.1 = false → cell ≠ 2 * p.1.toNat ∧ cell ≠ 2 * p.1.toNat + 1) :
    readByte (State.loadPairs pairs s).mem cell = readByte s.mem cell := by
  induction pairs generalizing s with
  | nil => rfl
  | cons p rest ih =>
    rw [List.forall_mem_cons] at h
    obtain ⟨first, others⟩ := h
    rw [loadPairs_cons, ih _ others, readByte_storeHostWord_other p.2 s first]

/-- A load leaves every word whose address no pair names. -/
theorem readWord_loadPairs_other {pairs : List (Word × Word)} (s : State) {a : Word} (h : ∀ p ∈ pairs, p.1 ≠ a) :
    readWord (State.loadPairs pairs s).mem a = readWord s.mem a := by
  have apart : ∀ p ∈ pairs, p.1.toNat ≠ a.toNat := fun p hp e => h p hp (BitVec.eq_of_toNat_eq e)
  have high := readByte_loadPairs_other (cell := 2 * a.toNat + 1) s fun p hp _ => by have := apart p hp; omega
  have low := readByte_loadPairs_other (cell := 2 * a.toNat) s fun p hp _ => by have := apart p hp; omega
  rw [readWord, readWord, high, low]

theorem readWord_storeHostWord_same {a : Word} (v : Word) (s : State) (hio : inIoPage a = false) :
    readWord (storeHostWord a v s).mem a = v := by
  rw [storeHostWord_mem, if_neg (Bool.eq_false_iff.1 hio), readWord_writeWord_same]

/-- The last pair for an address below the I/O page is the one that is read there. -/
theorem readWord_loadPairs_last (before : List (Word × Word)) {after : List (Word × Word)} {a : Word} (v : Word)
    (s : State) (hio : inIoPage a = false) (last : ∀ p ∈ after, p.1 ≠ a) :
    readWord (State.loadPairs (before ++ (a, v) :: after) s).mem a = v := by
  rw [loadPairs_append, loadPairs_cons, readWord_loadPairs_other _ last, readWord_storeHostWord_same v _ hio]

/-! ### Images -/

/-- The pairs of an image by their index: the addresses are consecutive from the origin, modulo 65536. -/
theorem imagePairs_eq_mapIdx (origin : Word) (words : List Word) :
    imagePairs origin words = words.mapIdx fun k v => (origin + BitVec.ofNat 16 k, v) := by
  induction words generalizing origin with
  | nil => rfl
  | cons v rest ih =>
    have shift (k : Nat) : origin + 1#16 + BitVec.ofNat 16 k = origin + BitVec.ofNat 16 (k + 1) := by
      rw [BitVec.ofNat_add, BitVec.add_assoc, BitVec.add_comm 1#16]
    simp [imagePairs, ih, List.mapIdx_cons, shift]

theorem imagePairs_getElem (origin : Word) (words : List Word) (k : Nat) (hk : k < (imagePairs origin words).length) :
    (imagePairs origin words)[k] =
      (origin + BitVec.ofNat 16 k, words[k]'(by rwa [imagePairs_length] at hk)) := by
  simp only [imagePairs_eq_mapIdx, List.getElem_mapIdx]

theorem imageAddress_inj (origin : Word) {j k : Nat} (hj : j < 65536) (hk : k < 65536)
    (h : origin + BitVec.ofNat 16 j = origin + BitVec.ofNat 16 k) : j = k := by
  have := congrArg BitVec.toNat (add_left_cancel h)
  rwa [BitVec.toNat_ofNat, BitVec.toNat_ofNat, Nat.mod_eq_of_lt hj, Nat.mod_eq_of_lt hk] at this

/-- An image that fits the address space names an address once: no later pair has it again. -/
theorem imagePairs_drop_ne (origin : Word) {words : List Word} (fits : words.length ≤ 65536) {k : Nat}
    (hk : k < words.length) : ∀ p ∈ (imagePairs origin words).drop (k + 1), p.1 ≠ origin + BitVec.ofNat 16 k := by
  intro p hp same
  obtain ⟨j, hj, rfl⟩ := List.mem_iff_getElem.1 hp
  rw [List.length_drop, imagePairs_length] at hj
  rw [List.getElem_drop, imagePairs_getElem] at same
  have := imageAddress_inj origin (by omega) (by omega) same
  omega

theorem readWord_loadImage (origin : Word) {words : List Word} (s : State) (fits : words.length ≤ 65536) {k : Nat}
    (hk : k < words.length) (hio : inIoPage (origin + BitVec.ofNat 16 k) = false) :
    readWord (State.loadImage origin words s).mem (origin + BitVec.ofNat 16 k) = words[k] := by
  have hk' : k < (imagePairs origin words).length := by rwa [imagePairs_length]
  rw [State.loadImage, ← List.take_append_drop k (imagePairs origin words), List.drop_eq_getElem_cons hk',
    imagePairs_getElem]
  exact readWord_loadPairs_last _ _ s hio (imagePairs_drop_ne origin fits hk)

theorem readByte_loadImage_other (origin : Word) {words : List Word} (s : State) {cell : Nat}
    (h : ∀ k, k < words.length → inIoPage (origin + BitVec.ofNat 16 k) = false →
      cell ≠ 2 * (origin + BitVec.ofNat 16 k).toNat ∧ cell ≠ 2 * (origin + BitVec.ofNat 16 k).toNat + 1) :
    readByte (State.loadImage origin words s).mem cell = readByte s.mem cell := by
  refine readByte_loadPairs_other s fun p hp => ?_
  rw [imagePairs_eq_mapIdx] at hp
  obtain ⟨k, hk, rfl⟩ := List.mem_mapIdx.1 hp
  exact h k hk

/-- Settles O57: an image is a load of its pairs, whose addresses differ while it fits the address space. -/
theorem loadWritesItsPairs : Obligations.LoadWritesItsPairs := by
  refine ⟨fun pairs s => ⟨loadPairs_frame pairs s, ?_, fun _ => readByte_loadPairs_other s, loadPairs_wf pairs s⟩,
    fun origin words s => ⟨loadPairs_frame _ s, fun fits k => readWord_loadImage origin s fits,
      fun _ => readByte_loadImage_other origin s⟩⟩
  rintro before a v after rfl hio last
  exact readWord_loadPairs_last before v s hio last

end Sys2Proof.Machine
end

section
/-! SUPPORT. The host's run against the machine's steps, and its end at the first halted state (70_reset R300, R301;
log 20, log 26). -/

namespace Sys2Proof.Machine

/-! ### The steps of the machine -/

/-- The host's `Core.run` of this machine, at the machine's own types. -/
def steps (k : Nat) (s : State) : Res State := Host.Core.run Sys2Proof.core k s

@[simp] theorem steps_zero (s : State) : steps 0 s = .next s := rfl

theorem steps_succ (k : Nat) (s : State) : steps (k + 1) s = andThen (step s) (steps k) := by
  cases h : step s <;> simp only [steps, Host.Core.run, Host.Check.core_step, h] <;> rfl

/-- A halted machine stays as it is (44_control R210; log 20). -/
theorem step_of_halted {s : State} (h : s.halted = true) : step s = .next s := by
  simp [step, boundary, h]

theorem steps_of_halted {s : State} (h : s.halted = true) (k : Nat) : steps k s = .next s := by
  induction k with
  | zero => rfl
  | succ k ih => rw [steps_succ, step_of_halted h, andThen_next, ih]

/-! ### The run is the steps -/

/-- How a run ends, by what its steps gave. -/
def runEnd (c : Statistics) : Res State → RunResult
  | .next t => if t.halted then .halted c t else .running c t
  | .fault e => .fault c e
  | .refused e => .refused c e

theorem runEnd_next (c : Statistics) (t : State) :
    runEnd c (.next t) = if t.halted then .halted c t else .running c t := rfl

/-- Every run ends as its steps do. -/
theorem run_eq_runEnd (bound : Nat) (c : Statistics) (s : State) :
    ∃ c', s.run bound c = runEnd c' (steps bound s) := by
  induction bound generalizing c s with
  | zero => exact ⟨c, rfl⟩
  | succ k ih =>
    cases hh : s.halted with
    | true => exact ⟨c, by rw [run_of_halted _ c s hh, steps_of_halted hh, runEnd_next, if_pos hh]⟩
    | false =>
      rw [run_eq, if_neg (Bool.eq_false_iff.1 hh), steps_succ]
      cases step s with
      | next u => exact ih (c.afterStep s) u
      | fault e => exact ⟨c, rfl⟩
      | refused e => exact ⟨c, rfl⟩

/-! ### The end of a run -/

/-- All the ways a run ends at a halted state: it starts there, or it takes a step and goes on to its end. -/
theorem run_halted_cases {bound : Nat} {c c' : Statistics} {s t : State} (h : s.run bound c = .halted c' t) :
    (s.halted = true ∧ c = c' ∧ s = t) ∨
      (s.halted = false ∧ ∃ k u, bound = k + 1 ∧ step s = .next u ∧ u.run k (c.afterStep s) = .halted c' t) := by
  cases hh : s.halted with
  | true =>
    rw [run_of_halted bound c s hh] at h
    cases h
    exact .inl ⟨rfl, rfl, rfl⟩
  | false =>
    rw [run_eq, if_neg (Bool.eq_false_iff.1 hh)] at h
    cases bound with
    | zero => cases h
    | succ k =>
      cases hs : step s with
      | next u =>
        rw [hs] at h
        exact .inr ⟨rfl, k, u, rfl, rfl, h⟩
      | fault e => rw [hs] at h; cases h
      | refused e => rw [hs] at h; cases h

/-- A greater bound changes nothing of a run that has ended. -/
theorem run_halted_add {bound : Nat} {c c' : Statistics} {s t : State} (h : s.run bound c = .halted c' t)
    (more : Nat) : s.run (bound + more) c = .halted c' t := by
  induction bound generalizing c s with
  | zero =>
    obtain ⟨hh, rfl, rfl⟩ | ⟨-, k, u, hk, -⟩ := run_halted_cases h
    · exact run_of_halted _ c s hh
    · cases hk
  | succ k ih =>
    obtain ⟨hh, rfl, rfl⟩ | ⟨hh, k', u, hk, hs, hu⟩ := run_halted_cases h
    · exact run_of_halted _ c s hh
    · cases hk
      rw [Nat.add_right_comm, run_succ _ c s u hh hs, ih hu]

/-- `t` is the first halted state of the steps from `s`, and at most `bound` of them reach it. -/
def FirstHalt (bound : Nat) (s t : State) : Prop :=
  ∃ k, k ≤ bound ∧ steps k s = .next t ∧
    ∀ j, j < k → ∃ u, steps j s = .next u ∧ u.halted = false

theorem firstHalt_refl (bound : Nat) (s : State) : FirstHalt bound s s :=
  ⟨0, Nat.zero_le _, rfl, fun _ hj => absurd hj (Nat.not_lt_zero _)⟩

theorem FirstHalt.after_step {bound : Nat} {s u t : State} (hh : s.halted = false) (hs : step s = .next u)
    (h : FirstHalt bound u t) : FirstHalt (bound + 1) s t := by
  obtain ⟨k, hk, reached, before⟩ := h
  refine ⟨k + 1, Nat.succ_le_succ hk, by rw [steps_succ, hs, andThen_next, reached], fun j hj => ?_⟩
  cases j with
  | zero => exact ⟨s, rfl, hh⟩
  | succ j =>
    rw [steps_succ, hs, andThen_next]
    exact before j (Nat.lt_of_succ_lt_succ hj)

/-- A run that has ended is at a halted state, the first of its steps. -/
theorem run_halted_first {bound : Nat} {c c' : Statistics} {s t : State} (h : s.run bound c = .halted c' t) :
    t.halted = true ∧ FirstHalt bound s t := by
  induction bound generalizing c s with
  | zero =>
    obtain ⟨hh, rfl, rfl⟩ | ⟨-, k, u, hk, -⟩ := run_halted_cases h
    · exact ⟨hh, firstHalt_refl _ s⟩
    · cases hk
  | succ k ih =>
    obtain ⟨hh, rfl, rfl⟩ | ⟨hh, k', u, hk, hs, hu⟩ := run_halted_cases h
    · exact ⟨hh, firstHalt_refl _ s⟩
    · cases hk
      obtain ⟨ended, first⟩ := ih hu
      exact ⟨ended, first.after_step hh hs⟩

/-- Settles O59: the run ends as its steps do, and a run that has ended has ended at the first halted state. -/
theorem runEndsAtFirstHalt : Obligations.RunEndsAtFirstHalt := by
  have outcome {bound c s r} (h : steps bound s = r) : ∃ c', s.run bound c = runEnd c' r := h ▸ run_eq_runEnd bound c s
  refine ⟨fun _ _ _ _ h => outcome h, fun _ _ _ _ h => outcome h, fun _ _ _ _ h => outcome h,
    fun bound c c' s t h => ?_⟩
  obtain ⟨ended, first⟩ := run_halted_first h
  exact ⟨ended, run_halted_add h, first⟩

end Sys2Proof.Machine
end

section
/-! SUPPORT. The halted machine, step by step (44_control R210; D28; log 20). -/

namespace Sys2Proof.Machine

/-- Settles O35: the boundary of a halted machine is stuck before it looks at any request. -/
theorem haltedMachineIsStuck : Obligations.HaltedMachineIsStuck :=
  fun _ halted => step_of_halted halted

end Sys2Proof.Machine
end
